-- ==== Sys2Proof/Word.lean ====
section
/-! DEFINITION. The word types of HUFFCORE: the 32-bit host word (R14), the 8-bit unit (R8), the 9-bit symbol
field (R8) and the 10-bit node index (R10). -/

namespace Sys2Proof

/-- A 32-bit word of the host register bus (R14, `REG_BITS`). -/
abbrev Word := BitVec 32

/-- An 8-bit unit of the input and of the decoded output (R8, `UNIT_BITS`). -/
abbrev Byte := BitVec 8

/-- A 9-bit symbol field (R8, `SYM_BITS`; R85: it can hold 0..511, the symbols are 0..256). -/
abbrev Symbol := BitVec 9

/-- A 10-bit index into the node store (R10, `NODE_IDX_BITS`). -/
abbrev NodeIdx := BitVec 10

end Sys2Proof
end

