-- ==== Sys2Proof/Syntax.lean ====
section
/-! DEFINITION. The instructions of HUFFCORE: one constructor per row of spec/opcode_table.json. Eleven commands (R76),
the soft reset of the CTRL word (R79) and the two tokens of the stream's tree header (R83, R84). -/

namespace Sys2Proof

/-- R72: the command words, the CTRL word that requests a soft reset, and the header tokens. A command has no operands
(R75); only the LEAF token carries one, the 9-bit symbol field, written as the number it holds. -/
inductive Instr where
  /-- NOP, CMD[7:0] = 0x00 (R101). -/
  | nop
  /-- FREQ_CLEAR, 0x01 (R102). -/
  | freqClear
  /-- FREQ_ACCUM, 0x02 (R103). -/
  | freqAccum
  /-- TREE_BUILD, 0x03 (R110). -/
  | treeBuild
  /-- CODE_GEN, 0x04 (R119). -/
  | codeGen
  /-- HDR_WRITE, 0x05 (R124). -/
  | hdrWrite
  /-- ENCODE, 0x06 (R135). -/
  | encode
  /-- HDR_READ, 0x07 (R129). -/
  | hdrRead
  /-- DECODE, 0x08 (R142). -/
  | decode
  /-- COMPRESS, 0x09 (R150). -/
  | compress
  /-- DECOMPRESS, 0x0A (R151). -/
  | decompress
  /-- SRESET, CTRL bit 0 written as 1 (R79, R172). -/
  | sreset
  /-- Header token INTERNAL, the single bit 0 (R83). -/
  | hdrInternal
  /-- Header token LEAF, "1" and the 9-bit field of the symbol (R84, R85). -/
  | hdrLeaf (sym : Nat)
deriving DecidableEq, Repr

end Sys2Proof
end

