-- ==== Sys2Proof/Machine/State.lean ====
section
/-! DEFINITION. The state of HUFFCORE (10_state.md), the two ports as the block sees them (20_memory.md), and the plain data
that says what the host and the environment do next. INVENTORY.md lists every field with its rule and its reset value. -/

namespace Sys2Proof.Machine

/-- R41: the phases PHASE can hold. (DISPATCH, 0x02, is reported in ERRCODE only and is never held.) -/
inductive Phase where
  | idle | nopRun | fcClear | faInit | faRead | tbBuild | cgGen
  | hwMagic | hwWalk | hwSym | enRewind | enRead | enBits | enClose
  | hrMagic | hrBit | hrSym | deStart | deBit | deEmit | deClose
deriving DecidableEq, Repr

/-- R3, R99: the engines (NOP counts as one). -/
inductive Engine where
  | nop | freqClear | freqAccum | treeBuild | codeGen | hdrWrite | encode | hdrRead | decode
deriving DecidableEq, Repr

/-- R155: the error causes. -/
inductive Cause where
  | illegalCmd | notReady | freqOverflow | weightOverflow | noCode | badMagic
  | truncHdrBit | truncHdrSym | hdrOverflow | badRoot | noTerminator
deriving DecidableEq, Repr

/-- R30: where the tree came from (TREE_SRC: 0 = built by TREE_BUILD, 1 = parsed by HDR_READ). -/
inductive TreeSource where
  | built | parsed
deriving DecidableEq, Repr

/-- R27: an entry of the node store. -/
structure Node where
  leaf   : Bool
  sym    : Symbol
  weight : Word
  left   : NodeIdx
  right  : NodeIdx
deriving DecidableEq, Repr

/-- R29: an entry of the code table; bit k of `bits` is p_k. -/
structure Code where
  valid : Bool
  len   : BitVec 9
  bits  : BitVec 256
deriving DecidableEq, Repr

/-- R50: a child position still to be parsed. -/
inductive Slot where
  | root
  | left (parent : NodeIdx)
  | right (parent : NodeIdx)
deriving DecidableEq, Repr

/-- R31: the eighteen registers of the host window. -/
inductive Reg where
  | ctrl | cmd | status | errcode | errinfo | freqIdx | freqData | total | nodeIdx
  | nodeWeight | nodeLink | treeInfo | codeIdx | codeWsel | codeLen | codeData | inBits | outBits
deriving DecidableEq, Repr

/-- R63: the width of a host access. Only whole words are defined. -/
inductive AccessSize where
  | byte | half | word
deriving DecidableEq, Repr

/-- R63: a host access to the register window, at a byte offset within it (R14: 256 bytes). -/
inductive Access where
  | read (off : BitVec 8) (size : AccessSize)
  | write (off : BitVec 8) (size : AccessSize) (v : Word)
deriving DecidableEq, Repr

/-- R57 to R60: a port transaction the core issues. -/
inductive Transaction where
  | rd (n : Nat)
  | rewind
  | wr (bits : List Bool)
  | close
deriving DecidableEq, Repr

/-- One turn of the interleaving R66: what the host, the core or the world around the block does next. -/
inductive Turn where
  /-- the host makes one access (R17, R64). -/
  | host (a : Access)
  /-- the core takes its enabled step, if it has one (R94). -/
  | core
  /-- the host's polling loop WAIT (R92): read STATUS until BUSY reads 0. -/
  | wait
  /-- the level of the block's reset input (R171). -/
  | resetLine (asserted : Bool)
  /-- whether the input port and the output port answer (R68). -/
  | ports (inputAnswers outputAnswers : Bool)
  /-- an input stream is put behind the input port, at POS 0 (R175, R178). -/
  | loadInput (bits : List Bool)
  /-- the input port is put back to its start (R178). -/
  | rewindInput
  /-- a fresh, empty output stream is put behind the output port (R174, R175). -/
  | freshOutput
deriving DecidableEq, Repr

/-- An internal memory (R53): entries by index, strictly rising, none equal to what an unlisted index reads as. -/
abbrev Memory (α : Type) := List (Nat × α)

/-- The state. First what 10_state.md gives the block, then the two ports, then the model's own fields. -/
structure State where
  /-- CTRL.IE (R32). -/
  ie : Bool
  /-- ACTIVE_CMD (R33). -/
  activeCmd : BitVec 8
  /-- STATUS.DONE (R34). -/
  done : Bool
  /-- STATUS.ERR (R34). -/
  err : Bool
  /-- STATUS.DROP (R34). -/
  drop : Bool
  /-- TREE_VALID (R30). -/
  treeValid : Bool
  /-- CODES_VALID (R30). -/
  codesValid : Bool
  /-- TREE_SRC (R30). -/
  treeSrc : TreeSource
  /-- ERRCODE (R35). -/
  errcode : Word
  /-- ERRINFO (R36). -/
  errinfo : Word
  /-- FREQ_IDX (R37). -/
  freqIdx : BitVec 9
  /-- NODE_IDX (R40). -/
  nodeIdx : NodeIdx
  /-- CODE_IDX (R46). -/
  codeIdx : BitVec 9
  /-- CODE_WSEL (R46). -/
  codeWsel : BitVec 3
  /-- IN_BITS (R48). -/
  inBits : Word
  /-- OUT_BITS (R49). -/
  outBits : Word
  /-- FREQ[0..255] (R25); FREQ[256] is hardwired and not stored. -/
  freq : Memory Word
  /-- TOTAL (R26). -/
  total : Word
  /-- NODE[0..512] (R27). -/
  node : Memory Node
  /-- ROOT (R28). -/
  root : NodeIdx
  /-- NCOUNT (R28). -/
  ncount : NodeIdx
  /-- CODE_VALID, CODE_LEN, CODE_BITS [0..256] (R29). -/
  code : Memory Code
  /-- PHASE (R41). BUSY is the view `phase ≠ idle`. -/
  phase : Phase
  /-- SEQ (R42). -/
  seq : BitVec 3
  /-- TS (R50), top of the stack first. -/
  ts : List NodeIdx
  /-- HW_N (R50). -/
  hwN : NodeIdx
  /-- ESYM (R50). -/
  esym : Symbol
  /-- EJ (R50). -/
  ej : BitVec 9
  /-- EOMF (R50). -/
  eomf : Bool
  /-- PEND (R50), top of the stack first. -/
  pend : List Slot
  /-- HLEAF (R50). -/
  hleaf : NodeIdx
  /-- CUR (R50). -/
  cur : NodeIdx
  /-- IN, the input port's bit sequence (R55). -/
  input : List Bool
  /-- POS (R55). -/
  pos : Nat
  /-- OUT, the output port's bit sequence (R56). -/
  output : List Bool
  /-- the input port answers transactions (R68). -/
  inputAnswers : Bool
  /-- the output port answers transactions (R68). -/
  outputAnswers : Bool
  /-- the block's reset input is asserted (R171). -/
  resetLine : Bool
  /-- the model's own: the turns still to come, in order (R66). -/
  turns : List Turn
  /-- the model's own: the words host reads were answered with, oldest first. -/
  answers : List Word
  /-- the model's own: how many free values have been drawn. -/
  draws : Nat
deriving DecidableEq, Repr

/-- R173, R175: the machine right after reset, with nothing behind the input port, an empty output and no turn to come. The
NODE and code memories and the engine temporaries, which R173 calls unspecified, hold zeros (log entry 3). -/
def State.reset : State where
  ie := false
  activeCmd := 0x00#8
  done := false
  err := false
  drop := false
  treeValid := false
  codesValid := false
  treeSrc := .built
  errcode := 0#32
  errinfo := 0#32
  freqIdx := 0#9
  nodeIdx := 0#10
  codeIdx := 0#9
  codeWsel := 0#3
  inBits := 0#32
  outBits := 0#32
  freq := []
  total := 0#32
  node := []
  root := 0#10
  ncount := 0#10
  code := []
  phase := .idle
  seq := 0#3
  ts := []
  hwN := 0#10
  esym := 0#9
  ej := 0#9
  eomf := false
  pend := []
  hleaf := 0#10
  cur := 0#10
  input := []
  pos := 0
  output := []
  inputAnswers := true
  outputAnswers := true
  resetLine := false
  turns := []
  answers := []
  draws := 0

/-- Why the machine stops. An error of R155 is no fault: the block goes idle and the run goes on. -/
inductive Fault where
  /-- Raised by a host access (or by WAIT) while the reset input is asserted: R171 says that the block then "answers no host
  access", so the host's bus cycle does not end. Safe: the model stops where a bus may recover (log entry 10). -/
  | busNoAnswer
deriving DecidableEq, Repr

/-- Why the model has no step. -/
inductive Refusal where
  /-- Raised by exec for an instruction that has no meaning yet. Safe. No arm of exec uses it. -/
  | notModelled (mnemonic : String)
  /-- Raised by a host access that is not an aligned 32-bit access: R63, "a model refuses it" (U5). Safe. -/
  | accessUndefined
  /-- Raised by a turn of the world that moves a port while a command runs: R179, "A model gives the host no move that changes
  IN during a command" (U7). Safe. -/
  | portMovedWhileBusy
  /-- Raised by exec for a header token that the header parser is not at; step never does so (log entry 12). Safe. -/
  | tokenNotAtPort
deriving DecidableEq, Repr

end Sys2Proof.Machine
end

