-- ==== Sys2Proof/Machine/Bits.lean ====
section
/-! DEFINITION. Bit strings of a stream: the value of an n-bit field (R57), the bits of a field (R59), and the byte view of
a stream (R61). The first bit of a stream is the most significant bit of the field it starts. -/

namespace Sys2Proof.Machine

/-- R57: `IN[0]*2^(n-1) + ... + IN[n-1]*2^0`, first stream bit most significant. -/
def natOfBits (l : List Bool) : Nat := l.foldl (fun acc b => 2 * acc + b.toNat) 0

/-- The n-bit field whose stream bits are `l` (R57). -/
def fieldOfBits (n : Nat) (l : List Bool) : BitVec n := BitVec.ofNat n (natOfBits l)

/-- R59: the bits `v[n-1], v[n-2], ..., v[0]`, in the order WR(n, v) appends them. -/
def bitsOf {n : Nat} (v : BitVec n) : List Bool := (List.range n).map fun i => v.getLsbD (n - 1 - i)

/-- R61: the bit sequence of a byte sequence, the first bit of each byte its most significant bit. -/
def bitsOfBytes (bs : List Byte) : List Bool := bs.flatMap fun b => bitsOf b

/-- R61: the byte view of a stream whose length is a multiple of 8 (a last group of fewer than 8 bits is no byte). -/
def bytesOfBits : List Bool → List Byte
  | b0 :: b1 :: b2 :: b3 :: b4 :: b5 :: b6 :: b7 :: rest =>
    fieldOfBits 8 [b0, b1, b2, b3, b4, b5, b6, b7] :: bytesOfBits rest
  | _ => []

/-- R47: a code word of the host window: bit (31 - j) is code bit 32*w + j, so the code is shown left-aligned. -/
def leftAligned (bits : BitVec 256) (w : Nat) : Word :=
  fieldOfBits 32 ((List.range 32).map fun j => bits.getLsbD (32 * w + j))

/-- R29: the bit vector of a path, bit k is p_k and the bits at and above the length are 0. -/
def bitsOfPath (p : List Bool) : BitVec 256 := (BitVec.ofBoolListLE p).setWidth 256

end Sys2Proof.Machine
end

