-- ==== Sys2Proof/WellFormed.lean ====
section
/-! DEFINITION. Well-formed instructions: the one operand there is fits its field. -/

namespace Sys2Proof

/-- The symbol of a LEAF token fits the 9-bit field (R85: 0..511; 257..511 are accepted by the reader, R91). Every other
instruction has no operand (R75). -/
def Instr.wellFormed : Instr → Bool
  | .hdrLeaf sym => decide (sym < 512)
  | .nop => true
  | .freqClear => true
  | .freqAccum => true
  | .treeBuild => true
  | .codeGen => true
  | .hdrWrite => true
  | .encode => true
  | .hdrRead => true
  | .decode => true
  | .compress => true
  | .decompress => true
  | .sreset => true
  | .hdrInternal => true

end Sys2Proof
end

