-- ==== Sys2Proof/Decode.lean ====
section
/-! DEFINITION. The decoder and, after it, the encoder. R72 names the formats: the command word written to CMD (R73, R76), the
CTRL word (R79) and the header tokens of the stream (R83, R84). What tells them apart is WHERE they arrive, so the decoder
takes the place with the bits. It is total and rejects by name. -/

namespace Sys2Proof

/-- What the decoder is given: a 32-bit write at a byte offset of the register window, or the stream bits at the input
port's position. -/
inductive Fetched where
  | busWrite (off : BitVec 8) (v : Word)
  | stream (bits : List Bool)
deriving DecidableEq, Repr

/-- Why the decoder refuses. -/
inductive DecodeError where
  /-- CMD[7:0] in 0x0B..0xFF (R77): the machine raises ILLEGAL_CMD for it at dispatch. -/
  | illegalOpcode (op : BitVec 8)
  /-- a CTRL word with bit 0 = 0 requests no reset (R32, R79): a plain register write. -/
  | noResetRequested
  /-- a write at another offset carries no instruction (R31). -/
  | noInstructionAt (off : BitVec 8)
  /-- the stream ends before the token's first bit. -/
  | endOfStream
  /-- fewer than nine bits follow the "1" of a LEAF token (R84). -/
  | truncatedLeaf
deriving DecidableEq, Repr

/-- R76: the opcode map, on CMD[7:0]. Bits 31:8 are ignored (R73). -/
def decodeCmd (v : Word) : Except DecodeError Instr :=
  match (v.setWidth 8).toNat with
  | 0 => .ok .nop
  | 1 => .ok .freqClear
  | 2 => .ok .freqAccum
  | 3 => .ok .treeBuild
  | 4 => .ok .codeGen
  | 5 => .ok .hdrWrite
  | 6 => .ok .encode
  | 7 => .ok .hdrRead
  | 8 => .ok .decode
  | 9 => .ok .compress
  | 10 => .ok .decompress
  | _ => .error (.illegalOpcode (v.setWidth 8))

/-- R79: CTRL bit 0 = 1 requests a soft reset; bit 1 and bits 31:2 do not matter then (R32). -/
def decodeCtrl (v : Word) : Except DecodeError Instr :=
  if v.getLsbD 0 then .ok .sreset else .error .noResetRequested

/-- R88: a reader reads one bit; 0 ends an INTERNAL token (R83); 1 means nine more bits follow, the symbol, most
significant first (R84). Answers the token and the bits after it. -/
def decodeToken : List Bool → Except DecodeError (Instr × List Bool)
  | [] => .error .endOfStream
  | false :: rest => .ok (.hdrInternal, rest)
  | true :: rest =>
    if 9 ≤ rest.length then .ok (.hdrLeaf (Machine.natOfBits (rest.take 9)), rest.drop 9) else .error .truncatedLeaf

/-- The decoder: CMD stands at offset 0x04, CTRL at 0x00 (R31). -/
def decode : Fetched → Except DecodeError Instr
  | .busWrite off v =>
    if off = 0x04#8 then decodeCmd v else if off = 0x00#8 then decodeCtrl v else .error (.noInstructionAt off)
  | .stream bits => (decodeToken bits).map Prod.fst

/-- R76: the opcode of a command. -/
def Instr.opcode? : Instr → Option (BitVec 8)
  | .nop => some 0x00#8
  | .freqClear => some 0x01#8
  | .freqAccum => some 0x02#8
  | .treeBuild => some 0x03#8
  | .codeGen => some 0x04#8
  | .hdrWrite => some 0x05#8
  | .encode => some 0x06#8
  | .hdrRead => some 0x07#8
  | .decode => some 0x08#8
  | .compress => some 0x09#8
  | .decompress => some 0x0A#8
  | .sreset => none
  | .hdrInternal => none
  | .hdrLeaf _ => none

/-- The stream bits of a header token (R83 to R85); no bits for an instruction that is no token. -/
def tokenBits : Instr → List Bool
  | .hdrInternal => [false]
  | .hdrLeaf sym => true :: Machine.bitsOf (BitVec.ofNat 9 sym)
  | .nop => []
  | .freqClear => []
  | .freqAccum => []
  | .treeBuild => []
  | .codeGen => []
  | .hdrWrite => []
  | .encode => []
  | .hdrRead => []
  | .decode => []
  | .compress => []
  | .decompress => []
  | .sreset => []

/-- The encoder: a command is a write of its opcode to CMD (R73), a soft reset the write 0x1 to CTRL (R93), a token its
stream bits (R83, R84). Ignored bits are written as 0. -/
def encode (i : Instr) : Fetched :=
  match i with
  | .sreset => .busWrite 0x00#8 0x00000001#32
  | .hdrInternal => .stream (tokenBits .hdrInternal)
  | .hdrLeaf sym => .stream (tokenBits (.hdrLeaf sym))
  | .nop => .busWrite 0x04#8 0x00000000#32
  | .freqClear => .busWrite 0x04#8 0x00000001#32
  | .freqAccum => .busWrite 0x04#8 0x00000002#32
  | .treeBuild => .busWrite 0x04#8 0x00000003#32
  | .codeGen => .busWrite 0x04#8 0x00000004#32
  | .hdrWrite => .busWrite 0x04#8 0x00000005#32
  | .encode => .busWrite 0x04#8 0x00000006#32
  | .hdrRead => .busWrite 0x04#8 0x00000007#32
  | .decode => .busWrite 0x04#8 0x00000008#32
  | .compress => .busWrite 0x04#8 0x00000009#32
  | .decompress => .busWrite 0x04#8 0x0000000A#32

/-- The place and the bits that a row of spec/opcode_table.json stands for, from the number of its bits and their value
(log entry 11). A HDRTOKEN row is given in stream order with the first bit leftmost: the INTERNAL token is one bit (one byte that
holds 0, when rounded), the LEAF token ten (two bytes). Every other width is a bus write, read as a CMD word: the table's one CTRL
row (SRESET, 0x1) has the same number as FREQ_CLEAR's. -/
def tableFetch (nbits w : Nat) : Fetched :=
  if nbits = 1 ∨ (nbits = 8 ∧ w = 0) then .stream (Machine.bitsOf (BitVec.ofNat 1 w))
  else if nbits = 10 ∨ nbits = 16 then .stream (Machine.bitsOf (BitVec.ofNat 10 w))
  else .busWrite 0x04#8 (BitVec.ofNat 32 w)

/-- What the decoder reads from the word of an opcode-table row. -/
def decodeTableWord (nbits w : Nat) : Option Instr := (decode (tableFetch nbits w)).toOption

end Sys2Proof
end

