-- ==== Sys2Proof/Config.lean ====
section
/-! DEFINITION. The implementation parameters of 00_scope.md (R7 to R16) and the FREE VALUES: the words that the spec
calls "any value" and the pad bits it leaves open. A free value is an opaque constant: no proof can see what it is. -/

namespace Sys2Proof.Config

/-- `NSYM` (R7): the symbol space is 0..256. -/
def nsym : Nat := 257

/-- `EOM` (R7): the end-marker symbol. -/
def eom : Symbol := 256#9

/-- `MAGIC` (R9). -/
def magic : Word := 0xFACE8201#32

/-- `MAX_NODES` (R10): entries of the node store. -/
def maxNodes : Nat := 513

/-- `TOTAL_MAX` (R11): the largest number of input bytes FREQ_ACCUM accepts, 2^32 - 2. -/
def totalMax : Word := 0xFFFFFFFE#32

/-- The largest node weight (R12, `WEIGHT_BITS` = 32). -/
def weightMax : Nat := 2 ^ 32 - 1

/-- `MAX_CODE_LEN` (R13). -/
def maxCodeLen : Nat := 256

/-- FREE VALUE (log entry 5): the value of the n-th "any value" read of a window (U1 and U2 of
93_implementation_defined.md; R38, R39, R43 to R49). -/
opaque freeWord : Nat → Word

/-- FREE VALUE (log entry 4): the pad bits `PAD` (R15): bit j of the pad that the n-th draw appends. -/
opaque padBit : Nat → Nat → Bool

end Sys2Proof.Config
end

