-- ==== Sys2Proof/Machine/Flags.lean ====
section
/-! DEFINITION. The codes of phases and causes (R41, R155), the engine lists (R149), the flags and the words that show them
(R30, R34, R35, R51, R52), and the dispatch preconditions (R97). -/

namespace Sys2Proof.Machine

/-- R41: the phase codes. -/
def Phase.code : Phase → BitVec 8
  | .idle => 0x00#8
  | .nopRun => 0x01#8
  | .fcClear => 0x10#8
  | .faInit => 0x11#8
  | .faRead => 0x12#8
  | .tbBuild => 0x20#8
  | .cgGen => 0x30#8
  | .hwMagic => 0x40#8
  | .hwWalk => 0x41#8
  | .hwSym => 0x42#8
  | .enRewind => 0x50#8
  | .enRead => 0x51#8
  | .enBits => 0x52#8
  | .enClose => 0x53#8
  | .hrMagic => 0x60#8
  | .hrBit => 0x61#8
  | .hrSym => 0x62#8
  | .deStart => 0x70#8
  | .deBit => 0x71#8
  | .deEmit => 0x72#8
  | .deClose => 0x73#8

/-- R41: the code DISPATCH, reported in ERRCODE.PHASE for an error at dispatch and never held by PHASE. -/
def dispatchCode : BitVec 8 := 0x02#8

/-- R41: the engine each phase belongs to. -/
def Phase.engine : Phase → Option Engine
  | .idle => none
  | .nopRun => some .nop
  | .fcClear => some .freqClear
  | .faInit => some .freqAccum
  | .faRead => some .freqAccum
  | .tbBuild => some .treeBuild
  | .cgGen => some .codeGen
  | .hwMagic => some .hdrWrite
  | .hwWalk => some .hdrWrite
  | .hwSym => some .hdrWrite
  | .enRewind => some .encode
  | .enRead => some .encode
  | .enBits => some .encode
  | .enClose => some .encode
  | .hrMagic => some .hdrRead
  | .hrBit => some .hdrRead
  | .hrSym => some .hdrRead
  | .deStart => some .decode
  | .deBit => some .decode
  | .deEmit => some .decode
  | .deClose => some .decode

/-- R99: the first phase of each engine. -/
def Engine.first : Engine → Phase
  | .nop => .nopRun
  | .freqClear => .fcClear
  | .freqAccum => .faInit
  | .treeBuild => .tbBuild
  | .codeGen => .cgGen
  | .hdrWrite => .hwMagic
  | .encode => .enRewind
  | .hdrRead => .hrMagic
  | .decode => .deStart

/-- R149: the engine list E(op); empty for an illegal opcode. -/
def engines (op : BitVec 8) : List Engine :=
  match op.toNat with
  | 0 => [.nop]
  | 1 => [.freqClear]
  | 2 => [.freqAccum]
  | 3 => [.treeBuild]
  | 4 => [.codeGen]
  | 5 => [.hdrWrite]
  | 6 => [.encode]
  | 7 => [.hdrRead]
  | 8 => [.decode]
  | 9 => [.freqAccum, .treeBuild, .codeGen, .hdrWrite, .encode]
  | 10 => [.hdrRead, .decode]
  | _ => []

/-- R155: the cause codes. -/
def Cause.code : Cause → BitVec 8
  | .illegalCmd => 1#8
  | .notReady => 2#8
  | .freqOverflow => 3#8
  | .weightOverflow => 4#8
  | .noCode => 5#8
  | .badMagic => 6#8
  | .truncHdrBit => 7#8
  | .truncHdrSym => 8#8
  | .hdrOverflow => 9#8
  | .badRoot => 10#8
  | .noTerminator => 11#8

/-- R35, R155: ERRCODE = zext_32({MIDCODE, AT_EOF, PHASE[7:0], CAUSE[7:0]}). -/
def errcodeWord (midcode atEof : Bool) (phase cause : BitVec 8) : Word :=
  (0#14 ++ BitVec.ofBool midcode ++ BitVec.ofBool atEof ++ phase ++ cause : BitVec (14 + 1 + 1 + 8 + 8))

/-- R41: BUSY = 1 exactly when PHASE is not IDLE. -/
def State.busy (s : State) : Bool := decide (s.phase ≠ .idle)

/-- R52: the interrupt line. -/
def State.irq (s : State) : Bool := s.ie && (s.done || s.err)

/-- R30: the TREE_SRC bit. -/
def TreeSource.bit : TreeSource → Bool
  | .built => false
  | .parsed => true

/-- R34: the STATUS word. -/
def State.statusWord (s : State) : Word :=
  (0#16 ++ s.phase.code ++ BitVec.ofBool s.irq ++ BitVec.ofBool s.treeSrc.bit ++ BitVec.ofBool s.codesValid
    ++ BitVec.ofBool s.treeValid ++ BitVec.ofBool s.drop ++ BitVec.ofBool s.err ++ BitVec.ofBool s.done
    ++ BitVec.ofBool s.busy : BitVec (16 + 8 + 1 + 1 + 1 + 1 + 1 + 1 + 1 + 1))

/-- R32: the CTRL word: SRESET reads 0, IE in bit 1. -/
def State.ctrlWord (s : State) : Word :=
  (0#30 ++ BitVec.ofBool s.ie ++ 0#1 : BitVec (30 + 1 + 1))

/-- R34: a STATUS write clears each of DONE, ERR, DROP whose bit is 1 and ignores every other bit. -/
def State.acknowledge (s : State) (v : Word) : State :=
  { s with
    done := s.done && !v.getLsbD 1
    err := s.err && !v.getLsbD 2
    drop := s.drop && !v.getLsbD 3 }

/-- R97: the dispatch precondition needs(op). -/
def State.needs (s : State) (op : BitVec 8) : Bool :=
  match op.toNat with
  | 4 => s.treeValid
  | 5 => s.treeValid
  | 6 => s.codesValid
  | 8 => s.treeValid
  | _ => true

/-- R51: what every event that clears TREE_VALID does to the two validity flags. -/
def State.invalidate (s : State) : State := { s with treeValid := false, codesValid := false }

end Sys2Proof.Machine
end

