-- ==== Sys2Proof/Machine/Ops.lean ====
section
/-! DEFINITION. The shared operations: the internal memories, the port transactions RD, REWIND, WR and CLOSE, TAKING AN ERROR
(R98, R156), the sequencer (R95, R100) and the reset (R171 to R173). -/

namespace Sys2Proof.Machine

/-! ### The internal memories -/

/-- The entry at an index; `d` is what an unlisted index reads as. -/
def Memory.read {α : Type} (d : α) : Memory α → Nat → α
  | [], _ => d
  | (k, v) :: rest, i => if k = i then v else Memory.read d rest i

/-- Writing an entry keeps the canonical form: writing `d` removes the entry. -/
def Memory.write {α : Type} [DecidableEq α] (d : α) : Memory α → Nat → α → Memory α
  | [], i, v => if v = d then [] else [(i, v)]
  | (k, x) :: rest, i, v =>
    if k = i then if v = d then rest else (i, v) :: rest
    else if i < k then if v = d then (k, x) :: rest else (i, v) :: (k, x) :: rest
    else (k, x) :: Memory.write d rest i v

/-- The canonical form above an index: indices strictly rising and below `bound`, no entry equal to `d`. -/
def Memory.wfFrom {α : Type} [DecidableEq α] (d : α) (bound : Nat) : Nat → Memory α → Bool
  | _, [] => true
  | lo, (k, v) :: rest => decide (lo ≤ k) && decide (k < bound) && decide (v ≠ d) && Memory.wfFrom d bound (k + 1) rest

/-- The canonical form of an internal memory of `bound` entries. -/
abbrev Memory.wf {α : Type} [DecidableEq α] (d : α) (bound : Nat) (m : Memory α) : Bool := Memory.wfFrom d bound 0 m

/-- What an unlisted node reads as (log entry 3). -/
def Node.zero : Node := ⟨false, 0#9, 0#32, 0#10, 0#10⟩

/-- What an unlisted code reads as: no code (log entry 3). -/
def Code.none : Code := ⟨false, 0#9, 0#256⟩

/-- R25: FREQ[k]; FREQ[256] is hardwired to 1; an index above 256 has no entry. -/
def State.freqAt (s : State) (k : Nat) : Word :=
  if k < 256 then Memory.read 0#32 s.freq k else if k = 256 then 1#32 else 0#32

/-- R25: no write changes FREQ[256], and there is no entry above it. -/
def State.setFreq (s : State) (k : Nat) (v : Word) : State :=
  if k < 256 then { s with freq := Memory.write 0#32 s.freq k v } else s

/-- R27: NODE[i]. -/
def State.nodeAt (s : State) (i : NodeIdx) : Node := Memory.read Node.zero s.node i.toNat

/-- R27: NODE[i] <- n; the store has 513 entries (R10). -/
def State.setNode (s : State) (i : NodeIdx) (n : Node) : State :=
  if i.toNat < Config.maxNodes then { s with node := Memory.write Node.zero s.node i.toNat n } else s

/-- R29: the code of a symbol; there is no entry above 256. -/
def State.codeAt (s : State) (k : Nat) : Code :=
  if k < Config.nsym then Memory.read Code.none s.code k else Code.none

/-- R102, R104: `for s in 0..255: FREQ[s] <- 0; TOTAL <- 0; TREE_VALID <- 0; CODES_VALID <- 0`. -/
def State.clearTable (s : State) : State := { s.invalidate with freq := [], total := 0#32 }

/-! ### The ports -/

/-- R57: the value RD(n) would answer, or none for EOF. -/
def State.peek (s : State) (n : Nat) : Option (BitVec n) :=
  if s.pos + n ≤ s.input.length then some (fieldOfBits n ((s.input.drop s.pos).take n)) else none

/-- R57, R48: a RD(n) answered with a value moves POS and adds n to IN_BITS. An EOF answer changes nothing. -/
def State.advance (s : State) (n : Nat) : State :=
  { s with pos := s.pos + n, inBits := s.inBits + BitVec.ofNat 32 n }

/-- R59, R49: WR(n, v). -/
def State.wr (s : State) {n : Nat} (v : BitVec n) : State :=
  { s with output := s.output ++ bitsOf v, outBits := s.outBits + BitVec.ofNat 32 n }

/-- R58: REWIND. -/
def State.rewind (s : State) : State := { s with pos := 0 }

/-- R60: CLOSE appends the pad bits up to the next byte boundary; their values are drawn (R15), and they are not counted (R49). -/
def State.close (s : State) : State :=
  { s with
    output := s.output ++ (List.range ((8 - s.output.length % 8) % 8)).map (Config.padBit s.draws)
    draws := s.draws + 1 }

/-! ### Taking an error -/

/-- What every error does: it sets ERR, ERRCODE and ERRINFO and the command is over. R156 (a core step) and R98 (dispatch)
differ only in the phase reported. DONE and the ports are untouched. The engine temporaries and the NODE entries keep their values
(DESIGN CHOICE, unsafe, log entries 26 and 27). -/
def State.takeError (s : State) (c : Cause) (info : Word) (phase : BitVec 8) (atEof midcode : Bool) : State :=
  { s with
    errcode := errcodeWord midcode atEof phase c.code
    errinfo := info
    err := true
    phase := .idle }

/-- R156: `raise CAUSE(info) with AT_EOF, MIDCODE` in a core step; the phase reported is that of the raising step. -/
def State.raise (s : State) (c : Cause) (info : Word) (atEof midcode : Bool) : State :=
  s.takeError c info s.phase.code atEof midcode

/-- R98: dispatch_error. -/
def State.dispatchError (s : State) (c : Cause) (info : Word) : State :=
  s.takeError c info dispatchCode false false

/-! ### The sequencer -/

/-- R21: goto PH. -/
def State.goto (s : State) (p : Phase) : State := { s with phase := p }

/-- R100: the end of the running engine: the next engine of E(ACTIVE_CMD), or completion. The engine temporaries keep the values
the engine left, between engines and between commands (U4; DESIGN CHOICE, unsafe, log entry 27). -/
def State.finish (s : State) : State :=
  match (engines s.activeCmd)[s.seq.toNat + 1]? with
  | some e => { s with seq := s.seq + 1#3, phase := e.first }
  | none => { s with phase := .idle, done := true }

/-- R95: what a dispatch clears, and ACTIVE_CMD. -/
def State.beginDispatch (s : State) (op : BitVec 8) : State :=
  { s with
    done := false, err := false, errcode := 0#32, errinfo := 0#32, inBits := 0#32, outBits := 0#32, activeCmd := op }

/-- R95, R96: a write of `op` to CMD: dropped while a command runs; else ILLEGAL_CMD, NOT_READY, or the first engine starts. -/
def State.dispatch (s : State) (op : BitVec 8) : State :=
  if s.busy then { s with drop := true }
  else match engines op with
    | [] => (s.beginDispatch op).dispatchError .illegalCmd (op.setWidth 32)
    | e :: _ =>
      if s.needs op then { s.beginDispatch op with seq := 0#3, phase := e.first }
      else (s.beginDispatch op).dispatchError .notReady (op.setWidth 32)

/-! ### Reset -/

/-- R171 to R174: every register and memory of the block takes its reset value; the ports, the reset input and the model's own
fields stay. -/
def State.resetBlock (s : State) : State :=
  { State.reset with
    input := s.input, pos := s.pos, output := s.output
    inputAnswers := s.inputAnswers, outputAnswers := s.outputAnswers, resetLine := s.resetLine
    turns := s.turns, answers := s.answers, draws := s.draws }

end Sys2Proof.Machine
end

