-- ==== Sys2Proof/Machine/Operands.lean ====
section
/-! DEFINITION. What instructions and the host act on: the registers of the window (R31 to R49), the header token at the input
port (R83, R84, R131, R132), and the transaction the next core step issues (R62). -/

namespace Sys2Proof.Machine

/-- R31: the byte offset of each register. -/
def Reg.offset : Reg → BitVec 8
  | .ctrl => 0x00#8
  | .cmd => 0x04#8
  | .status => 0x08#8
  | .errcode => 0x0C#8
  | .errinfo => 0x10#8
  | .freqIdx => 0x14#8
  | .freqData => 0x18#8
  | .total => 0x1C#8
  | .nodeIdx => 0x20#8
  | .nodeWeight => 0x24#8
  | .nodeLink => 0x28#8
  | .treeInfo => 0x2C#8
  | .codeIdx => 0x30#8
  | .codeWsel => 0x34#8
  | .codeLen => 0x38#8
  | .codeData => 0x3C#8
  | .inBits => 0x40#8
  | .outBits => 0x44#8

/-- R31: the register at a byte offset; 0x48..0xFC are unmapped. -/
def Reg.atOffset (off : BitVec 8) : Option Reg :=
  match off.toNat with
  | 0x00 => some .ctrl
  | 0x04 => some .cmd
  | 0x08 => some .status
  | 0x0C => some .errcode
  | 0x10 => some .errinfo
  | 0x14 => some .freqIdx
  | 0x18 => some .freqData
  | 0x1C => some .total
  | 0x20 => some .nodeIdx
  | 0x24 => some .nodeWeight
  | 0x28 => some .nodeLink
  | 0x2C => some .treeInfo
  | 0x30 => some .codeIdx
  | 0x34 => some .codeWsel
  | 0x38 => some .codeLen
  | 0x3C => some .codeData
  | 0x40 => some .inBits
  | 0x44 => some .outBits
  | _ => none

/-- R63: only aligned 32-bit accesses are defined. -/
def Access.defined : Access → Bool
  | .read off size => decide (size = .word) && decide (off.toNat % 4 = 0)
  | .write off size _ => decide (size = .word) && decide (off.toNat % 4 = 0)

/-- R44: the NODE_LINK word {LEAF, 2'b00, SYM, RIGHT, LEFT}. -/
def Node.linkWord (n : Node) : Word :=
  (BitVec.ofBool n.leaf ++ 0#2 ++ n.sym ++ n.right ++ n.left : BitVec (1 + 2 + 9 + 10 + 10))

/-- R47: the CODE_LEN word {VALID, 22'b0, LEN}. -/
def Code.lenWord (c : Code) : Word := (BitVec.ofBool c.valid ++ 0#22 ++ c.len : BitVec (1 + 22 + 9))

/-- R45: the TREE_INFO word. -/
def State.treeInfoWord (s : State) : Word := (0#6 ++ s.ncount ++ 0#6 ++ s.root : BitVec (6 + 10 + 6 + 10))

/-- A word that a rule makes readable only under a condition; none is "any value". -/
def readableWhen (c : Bool) (w : Word) : Option Word := if c then some w else none

/-- The value of a register for the host; none where the spec says that a read returns any value (U1, U2). TREE_INFO is exact
while BUSY = 0 whether or not a tree is held (R45; log entry 6). -/
def State.regValue (s : State) : Reg → Option Word
  | .ctrl => some s.ctrlWord
  | .cmd => some (s.activeCmd.setWidth 32)
  | .status => some s.statusWord
  | .errcode => some s.errcode
  | .errinfo => some s.errinfo
  | .freqIdx => some (s.freqIdx.setWidth 32)
  | .freqData => readableWhen (!s.busy) (s.freqAt s.freqIdx.toNat)
  | .total => readableWhen (!s.busy) s.total
  | .nodeIdx => some (s.nodeIdx.setWidth 32)
  | .nodeWeight =>
    readableWhen (!s.busy && s.treeValid) (if s.nodeIdx < s.ncount then (s.nodeAt s.nodeIdx).weight else 0#32)
  | .nodeLink =>
    readableWhen (!s.busy && s.treeValid) (if s.nodeIdx < s.ncount then (s.nodeAt s.nodeIdx).linkWord else 0#32)
  | .treeInfo => readableWhen (!s.busy) s.treeInfoWord
  | .codeIdx => some (s.codeIdx.setWidth 32)
  | .codeWsel => some (s.codeWsel.setWidth 32)
  | .codeLen => readableWhen (!s.busy && s.codesValid) (s.codeAt s.codeIdx.toNat).lenWord
  | .codeData =>
    readableWhen (!s.busy && s.codesValid) (leftAligned (s.codeAt s.codeIdx.toNat).bits s.codeWsel.toNat)
  | .inBits => readableWhen (!s.busy) s.inBits
  | .outBits => readableWhen (!s.busy) s.outBits

/-- R31, R163: the value at an offset; an unmapped offset reads 0. -/
def State.busValue (s : State) (off : BitVec 8) : Option Word :=
  match Reg.atOffset off with
  | some r => s.regValue r
  | none => some 0#32

/-- R64: MemRead(off, 4). No register changes; the answer goes to the host, and "any value" is a fresh draw (R64, U1). -/
def State.busRead (s : State) (off : BitVec 8) : State :=
  match s.busValue off with
  | some w => { s with answers := s.answers ++ [w] }
  | none => { s with answers := s.answers ++ [Config.freeWord s.draws], draws := s.draws + 1 }

/-- R38: a write to FREQ_DATA. -/
def State.writeFreqData (s : State) (v : Word) : State :=
  if s.busy then s else if s.freqIdx.toNat < 256 then (s.setFreq s.freqIdx.toNat v).invalidate else s

/-- R32: a write to CTRL. -/
def State.writeCtrl (s : State) (v : Word) : State :=
  if v.getLsbD 0 then s.resetBlock else { s with ie := v.getLsbD 1 }

/-- The effect of a write to each register (R32 to R49); a read-only register ignores writes (R163). -/
def State.writeReg (s : State) (v : Word) : Reg → State
  | .ctrl => s.writeCtrl v
  | .cmd => s.dispatch (v.setWidth 8)
  | .status => s.acknowledge v
  | .errcode => s
  | .errinfo => s
  | .freqIdx => { s with freqIdx := v.setWidth 9 }
  | .freqData => s.writeFreqData v
  | .total => s
  | .nodeIdx => { s with nodeIdx := v.setWidth 10 }
  | .nodeWeight => s
  | .nodeLink => s
  | .treeInfo => s
  | .codeIdx => { s with codeIdx := v.setWidth 9 }
  | .codeWsel => { s with codeWsel := v.setWidth 3 }
  | .codeLen => s
  | .codeData => s
  | .inBits => s
  | .outBits => s

/-- R63: MemWrite(off, 4, v); an unmapped offset ignores it (R31). -/
def State.busWrite (s : State) (off : BitVec 8) (v : Word) : State :=
  match Reg.atOffset off with
  | some r => s.writeReg v r
  | none => s

/-- The header token that HDR_READ is at: in HR_BIT the token at the input port, if a child position is pending (R131); in HR_SYM
the LEAF token whose 9-bit field stands there (R132). None where no whole token stands there. -/
def State.headerToken (s : State) : Option Instr :=
  match s.phase with
  | .hrBit => if s.pend = [] then none else (decode (.stream (s.input.drop s.pos))).toOption
  | .hrSym => (s.peek 9).map fun v => .hdrLeaf v.toNat
  | _ => none

/-- R62: the transaction that the core step of the current phase issues, if any. -/
def State.transaction (s : State) : Option Transaction :=
  match s.phase with
  | .faRead => some (.rd 8)
  | .hwMagic => some (.wr (bitsOf Config.magic))
  | .hwWalk =>
    match s.ts with
    | [] => none
    | n :: _ => some (.wr [(s.nodeAt n).leaf])
  | .hwSym => some (.wr (bitsOf (s.nodeAt s.hwN).sym))
  | .enRewind => some .rewind
  | .enRead => some (.rd 8)
  | .enBits =>
    if s.ej < (s.codeAt s.esym.toNat).len then some (.wr [(s.codeAt s.esym.toNat).bits.getLsbD s.ej.toNat]) else none
  | .enClose => some .close
  | .hrMagic => some (.rd 32)
  | .hrBit => if s.pend = [] ∨ s.ncount = 513#10 then none else some (.rd 1)
  | .hrSym => some (.rd 9)
  | .deBit => some (.rd 1)
  | .deEmit => some (.wr (bitsOf ((s.nodeAt s.cur).sym.setWidth 8)))
  | .deClose => some .close
  | .idle => none
  | .nopRun => none
  | .fcClear => none
  | .faInit => none
  | .tbBuild => none
  | .cgGen => none
  | .deStart => none

/-- R68: a core step that issues a transaction to a port that does not answer does not happen. -/
def State.blocked (s : State) : Bool :=
  match s.transaction with
  | none => false
  | some (.rd _) => !s.inputAnswers
  | some .rewind => !s.inputAnswers
  | some (.wr _) => !s.outputAnswers
  | some .close => !s.outputAnswers

end Sys2Proof.Machine
end

