-- ==== Sys2Proof/Machine/CodeTable.lean ====
section
/-! DEFINITION. The code-table generator (43_codetable.md): CODE_GEN. -/

namespace Sys2Proof.Machine

/-- R119: dispatch of CODE_GEN. -/
def execCodeGen (s : State) : Host.Outcome State Fault Refusal := .next (s.dispatch 0x04#8)

/-- R120: the table entry of a path from the root. -/
def codeOfPath (p : List Bool) : Code := ⟨true, BitVec.ofNat 9 p.length, bitsOfPath p⟩

/-- R120, R122: reaching a leaf writes its symbol's entry; a symbol above 256 has none. -/
def writeCode (t : Memory Code) (sym : Symbol) (p : List Bool) : Memory Code :=
  if sym.toNat < Config.nsym then Memory.write Code.none t sym.toNat (codeOfPath p) else t

/-- R120: walk(n, p), the left subtree before the right one. The first argument bounds the depth: no leaf of a full binary tree of
at most 513 nodes lies deeper than 256 (R121), so 257 levels reach every leaf (log entry 14). -/
def walkCodes (m : Memory Node) : Nat → NodeIdx → List Bool → Memory Code → Memory Code
  | 0, _, _, t => t
  | levels + 1, n, p, t =>
    let x := Memory.read Node.zero m n.toNat
    if x.leaf then writeCode t x.sym p
    else walkCodes m levels x.right (p ++ [true]) (walkCodes m levels x.left (p ++ [false]) t)

/-- R120: phase CG_GEN, one atomic core step: the table is cleared, the tree walked from ROOT, CODES_VALID set. -/
def cgGen (s : State) : State :=
  State.finish { s with code := walkCodes s.node (Config.maxCodeLen + 1) s.root [] [], codesValid := true }

end Sys2Proof.Machine
end

