-- ==== Sys2Proof/Machine/Command.lean ====
section
/-! DEFINITION. NOP (R101), the soft reset (R172) and the composite commands COMPRESS and DECOMPRESS (R150, R151). A command's
meaning is its dispatch (R95, R96), one atomic host step; the engines it starts run in core steps (R94, R149). -/

namespace Sys2Proof.Machine

/-- R101: dispatch of NOP. -/
def execNop (s : State) : Host.Outcome State Fault Refusal := .next (s.dispatch 0x00#8)

/-- R101: the one core step of NOP_RUN is `finish`. -/
def nopRun (s : State) : State := s.finish

/-- R172: the soft reset, in one atomic host step, whether or not a command runs. -/
def execSreset (s : State) : Host.Outcome State Fault Refusal := .next s.resetBlock

/-- R150: dispatch of COMPRESS, whose engine list is FREQ_ACCUM, TREE_BUILD, CODE_GEN, HDR_WRITE, ENCODE (R149). -/
def execCompress (s : State) : Host.Outcome State Fault Refusal := .next (s.dispatch 0x09#8)

/-- R151: dispatch of DECOMPRESS, whose engine list is HDR_READ, DECODE (R149). -/
def execDecompress (s : State) : Host.Outcome State Fault Refusal := .next (s.dispatch 0x0A#8)

end Sys2Proof.Machine
end

