-- ==== Sys2Proof/Machine/Decoder.lean ====
section
/-! DEFINITION. The variable-length bit decoder, the tree walker (46_decoder.md): DECODE. -/

namespace Sys2Proof.Machine

/-- R142: dispatch of DECODE. -/
def execDecode (s : State) : Host.Outcome State Fault Refusal := .next (s.dispatch 0x08#8)

/-- R143: phase DE_START. -/
def deStart (s : State) : State :=
  if (s.nodeAt s.root).leaf then
    if (s.nodeAt s.root).sym = Config.eom then s.goto .deClose
    else s.raise .badRoot ((s.nodeAt s.root).sym.setWidth 32) false false
  else { s with cur := s.root, phase := .deBit }

/-- R144: where the walk goes on from the node it has come to. -/
def arrival (x : Node) : Phase := if x.leaf then if x.sym = Config.eom then .deClose else .deEmit else .deBit

/-- R144: the node that the bit `r` leads to from CUR. -/
def State.childOn (s : State) (r : BitVec 1) : NodeIdx := if r = 0#1 then (s.nodeAt s.cur).left else (s.nodeAt s.cur).right

/-- R144: phase DE_BIT. -/
def deBit (s : State) : State :=
  match s.peek 1 with
  | none => s.raise .noTerminator (s.cur.setWidth 32) true (decide (s.cur ≠ s.root))
  | some r => { s.advance 1 with cur := s.childOn r, phase := arrival (s.nodeAt (s.childOn r)) }

/-- R145: phase DE_EMIT. -/
def deEmit (s : State) : State :=
  { s.wr ((s.nodeAt s.cur).sym.setWidth 8) with cur := s.root, phase := .deBit }

/-- R146: phase DE_CLOSE. -/
def deClose (s : State) : State := s.close.finish

end Sys2Proof.Machine
end

