-- ==== Sys2Proof/Machine/Encoder.lean ====
section
/-! DEFINITION. The variable-length bit encoder (45_encoder.md): ENCODE. -/

namespace Sys2Proof.Machine

/-- R135: dispatch of ENCODE. -/
def execEncode (s : State) : Host.Outcome State Fault Refusal := .next (s.dispatch 0x06#8)

/-- R136: phase EN_REWIND. -/
def enRewind (s : State) : State := { s.rewind with inBits := 0#32, eomf := false, phase := .enRead }

/-- R137: the look-up of ESYM: NO_CODE, or its code is written from its first bit on. -/
def lookUp (s : State) : State :=
  if (s.codeAt s.esym.toNat).valid then { s with ej := 0#9, phase := .enBits }
  else s.raise .noCode (s.esym.setWidth 32) false false

/-- R137: phase EN_READ. -/
def enRead (s : State) : State :=
  match s.peek 8 with
  | none => lookUp { s with esym := Config.eom, eomf := true }
  | some r => lookUp { s.advance 8 with esym := r.setWidth 9 }

/-- R138: phase EN_BITS. -/
def enBits (s : State) : State :=
  let c := s.codeAt s.esym.toNat
  if s.ej < c.len then { s.wr (BitVec.ofBool (c.bits.getLsbD s.ej.toNat)) with ej := s.ej + 1#9, phase := .enBits }
  else if s.eomf then s.goto .enClose
  else s.goto .enRead

/-- R139: phase EN_CLOSE. -/
def enClose (s : State) : State := s.close.finish

end Sys2Proof.Machine
end

