-- ==== Sys2Proof/Machine/Frequency.lean ====
section
/-! DEFINITION. The frequency accumulator (41_frequency.md): FREQ_CLEAR and FREQ_ACCUM. -/

namespace Sys2Proof.Machine

/-- R102: dispatch of FREQ_CLEAR. -/
def execFreqClear (s : State) : Host.Outcome State Fault Refusal := .next (s.dispatch 0x01#8)

/-- R103: dispatch of FREQ_ACCUM. -/
def execFreqAccum (s : State) : Host.Outcome State Fault Refusal := .next (s.dispatch 0x02#8)

/-- R102: phase FC_CLEAR. -/
def fcClear (s : State) : State := s.clearTable.finish

/-- R104: phase FA_INIT. -/
def faInit (s : State) : State := s.clearTable.goto .faRead

/-- R105: the byte `r` is counted. -/
def countByte (s : State) (r : Byte) : State :=
  { s.setFreq r.toNat (s.freqAt r.toNat + 1#32) with total := s.total + 1#32 }

/-- R105: phase FA_READ. -/
def faRead (s : State) : State :=
  match s.peek 8 with
  | none => s.finish
  | some r =>
    if (s.advance 8).total = Config.totalMax then (s.advance 8).raise .freqOverflow (r.setWidth 32) false false
    else (countByte (s.advance 8) r).goto .faRead

end Sys2Proof.Machine
end

