-- ==== Sys2Proof/Machine/Header.lean ====
section
/-! DEFINITION. The header codec (44_header.md): HDR_WRITE, HDR_READ, and the two header tokens as HDR_READ takes them. -/

namespace Sys2Proof.Machine

/-- R124: dispatch of HDR_WRITE. -/
def execHdrWrite (s : State) : Host.Outcome State Fault Refusal := .next (s.dispatch 0x05#8)

/-- R129: dispatch of HDR_READ. -/
def execHdrRead (s : State) : Host.Outcome State Fault Refusal := .next (s.dispatch 0x07#8)

/-! ### HDR_WRITE -/

/-- R125: phase HW_MAGIC. -/
def hwMagic (s : State) : State := { s.wr Config.magic with ts := [s.root], phase := .hwWalk }

/-- R126: phase HW_WALK. -/
def hwWalk (s : State) : State :=
  match s.ts with
  | [] => s.finish
  | n :: rest =>
    if (s.nodeAt n).leaf then { s.wr 1#1 with ts := rest, hwN := n, phase := .hwSym }
    else { s.wr 0#1 with ts := (s.nodeAt n).left :: (s.nodeAt n).right :: rest, phase := .hwWalk }

/-- R127: phase HW_SYM. -/
def hwSym (s : State) : State := (s.wr (s.nodeAt s.hwN).sym).goto .hwWalk

/-! ### HDR_READ -/

/-- R130, R28, R45, R134, R158: phase HR_MAGIC. No node has been begun, so NCOUNT is 0 after a BAD_MAGIC too. DEDUCED, unsafe (log
entry 25): R130's pseudocode writes that 0 only after the checks, and R156 and R157 would then keep the old count. ROOT is written
where R130 writes it. -/
def hrMagic (s : State) : State :=
  let s0 := { s.invalidate with ncount := 0#10 }
  match s0.peek 32 with
  | none => s0.raise .badMagic 0#32 true false
  | some r =>
    if r = Config.magic then { s0.advance 32 with root := 0#10, pend := [.root], phase := .hrBit }
    else (s0.advance 32).raise .badMagic r false false

/-- R131: the child position that the new node fills. The root position links nothing. -/
def State.fillSlot (s : State) (slot : Slot) (idx : NodeIdx) : State :=
  match slot with
  | .root => s
  | .left p => s.setNode p { s.nodeAt p with left := idx }
  | .right p => s.setNode p { s.nodeAt p with right := idx }

/-- R131: the token's first bit starts node NCOUNT in the child position `slot`. -/
def State.startNode (s : State) (slot : Slot) (rest : List Slot) (leaf : Bool) : State :=
  State.setNode ({ s.fillSlot slot s.ncount with ncount := s.ncount + 1#10, pend := rest }) s.ncount
    ⟨leaf, 0#9, 0#32, 0#10, 0#10⟩

/-- R131, R83: an INTERNAL token: both children are pending, the left one first. -/
def parseInternal (s : State) (slot : Slot) (rest : List Slot) : State :=
  let s1 := s.startNode slot rest false
  { s1 with pend := .left s.ncount :: .right s.ncount :: rest, phase := .hrBit }

/-- R131, R84: the first bit of a LEAF token: its symbol is read next. -/
def parseLeaf (s : State) (slot : Slot) (rest : List Slot) : State :=
  let s1 := s.startNode slot rest true
  { s1 with hleaf := s.ncount, phase := .hrSym }

/-- R131: phase HR_BIT. The entries written before an error stay in the store (DESIGN CHOICE, log entry 26). -/
def hrBit (s : State) : State :=
  match s.pend with
  | [] => State.finish { s with treeValid := true, treeSrc := .parsed }
  | slot :: rest =>
    if s.ncount = 513#10 then s.raise .hdrOverflow 513#32 false false
    else match s.peek 1 with
      | none => s.raise .truncHdrBit (s.ncount.setWidth 32) true false
      | some r => if r = 0#1 then parseInternal (s.advance 1) slot rest else parseLeaf (s.advance 1) slot rest

/-- R132: phase HR_SYM. The entries written before an error stay in the store (DESIGN CHOICE, log entry 26). -/
def hrSym (s : State) : State :=
  match s.peek 9 with
  | none => s.raise .truncHdrSym (s.ncount.setWidth 32) true false
  | some r => ((s.advance 9).setNode s.hleaf { s.nodeAt s.hleaf with sym := r }).goto .hrBit

/-! ### The header tokens, as HDR_READ takes them from the stream -/

/-- R83: HDR_READ takes an INTERNAL token in one core step of HR_BIT. -/
def execHdrInternal (s : State) : Host.Outcome State Fault Refusal :=
  if s.headerToken = some .hdrInternal then .next (hrBit s) else .refused .tokenNotAtPort

/-- R84: HDR_READ takes a LEAF token in two core steps, the "1" in HR_BIT and the 9-bit field in HR_SYM (R62: one transaction each);
this is the one of the current phase (log entry 12). -/
def execHdrLeaf (sym : Nat) (s : State) : Host.Outcome State Fault Refusal :=
  if s.headerToken = some (.hdrLeaf sym) then .next (if s.phase = .hrSym then hrSym s else hrBit s)
  else .refused .tokenNotAtPort

end Sys2Proof.Machine
end

