-- ==== Sys2Proof/Machine/TreeBuild.lean ====
section
/-! DEFINITION. The tree construction engine (42_tree.md): TREE_BUILD. -/

namespace Sys2Proof.Machine

/-- R110: dispatch of TREE_BUILD. -/
def execTreeBuild (s : State) : Host.Outcome State Fault Refusal := .next (s.dispatch 0x03#8)

/-- R112: the symbols that get a leaf, in ascending order. -/
def State.liveSymbols (s : State) : List Nat := (List.range Config.nsym).filter fun k => decide (s.freqAt k ≠ 0#32)

/-- R111: the leaf of a symbol. -/
def leafNode (sym : Nat) (weight : Word) : Node := ⟨true, BitVec.ofNat 9 sym, weight, 0#10, 0#10⟩

/-- R111: leaves at the indices from `i` on, one per symbol of the list. -/
def placeLeaves (freq : Nat → Word) : Nat → List Nat → Memory Node → Memory Node
  | _, [], m => m
  | i, k :: ks, m => placeLeaves freq (i + 1) ks (Memory.write Node.zero m i (leafNode k (freq k)))

/-- The weight of an entry of the node store. -/
def weightAt (m : Memory Node) (i : Nat) : Nat := (Memory.read Node.zero m i).weight.toNat

/-- R113: (w1, i1) < (w2, i2) iff w1 < w2, or w1 = w2 and i1 < i2. -/
def before (m : Memory Node) (i j : Nat) : Bool :=
  decide (weightAt m i < weightAt m j) || (decide (weightAt m i = weightAt m j) && decide (i < j))

/-- R113: qmin of the live set `i :: q`: the index whose (weight, index) pair is least. -/
def qmin (m : Memory Node) (i : Nat) : List Nat → Nat
  | [] => i
  | j :: q => qmin m (if before m j i then j else i) q

/-- R111: the merged node; the first removed is LEFT, the second RIGHT (R114). -/
def mergedNode (w a b : Nat) : Node := ⟨false, 0#9, BitVec.ofNat 32 w, BitVec.ofNat 10 a, BitVec.ofNat 10 b⟩

/-- What the merge loop ends with: the store, the next free index k, and whether a weight overflowed there (R115). -/
structure BuildResult where
  node     : Memory Node
  next     : Nat
  overflow : Bool
deriving DecidableEq, Repr

/-- R111: `while |Q| >= 2`: merge the two least nodes. A merge shortens the live set by one, so the number of live nodes bounds
the passes (R116; log entry 15). -/
def mergeLoop : Nat → Memory Node → List Nat → Nat → BuildResult
  | fuel + 1, m, i :: j :: q, k =>
    let a := qmin m i (j :: q)
    match (i :: j :: q).erase a with
    | [] => ⟨m, k, false⟩
    | i' :: q' =>
      let b := qmin m i' q'
      let w := weightAt m a + weightAt m b
      if Config.weightMax < w then ⟨m, k, true⟩
      else mergeLoop fuel (Memory.write Node.zero m k (mergedNode w a b)) ((i' :: q').erase b ++ [k]) (k + 1)
  | _, m, _, k => ⟨m, k, false⟩

/-- R111: the whole construction from the frequency table. -/
def State.buildTree (s : State) : BuildResult :=
  let live := s.liveSymbols
  mergeLoop live.length (placeLeaves s.freqAt 0 live s.node) (List.range live.length) live.length

/-- R111: phase TB_BUILD, one atomic core step. On WEIGHT_OVERFLOW the store holds what the loop wrote below k and the old entries
from k on, where R115 leaves the entries unspecified (DESIGN CHOICE, unsafe, log entry 26). -/
def tbBuild (s : State) : State :=
  let r := s.buildTree
  let s0 : State := { s.invalidate with node := r.node, root := 0#10, ncount := BitVec.ofNat 10 r.next }
  if r.overflow then s0.raise .weightOverflow (BitVec.ofNat 32 r.next) false false
  else State.finish { s0 with root := BitVec.ofNat 10 (r.next - 1), treeValid := true, treeSrc := .built }

end Sys2Proof.Machine
end

