-- ==== Sys2Proof/Machine/Phases.lean ====
section
/-! DEFINITION. The core step: the action of the phase in PHASE (R41, R94). -/

namespace Sys2Proof.Machine

/-- R41: the step rule of each phase; in IDLE the core has no step. -/
def phaseStep (s : State) : State :=
  match s.phase with
  | .idle => s
  | .nopRun => nopRun s
  | .fcClear => fcClear s
  | .faInit => faInit s
  | .faRead => faRead s
  | .tbBuild => tbBuild s
  | .cgGen => cgGen s
  | .hwMagic => hwMagic s
  | .hwWalk => hwWalk s
  | .hwSym => hwSym s
  | .enRewind => enRewind s
  | .enRead => enRead s
  | .enBits => enBits s
  | .enClose => enClose s
  | .hrMagic => hrMagic s
  | .hrBit => hrBit s
  | .hrSym => hrSym s
  | .deStart => deStart s
  | .deBit => deBit s
  | .deEmit => deEmit s
  | .deClose => deClose s

end Sys2Proof.Machine
end

