-- ==== Sys2Proof/Machine/Turns.lean ====
section
/-! DEFINITION. The turns of the interleaving R66: host accesses, core steps, and what the world around the block does (reset input,
ports). A write that decodes to an instruction, and a header token at the input port, run through exec. -/

namespace Sys2Proof.Machine

/-- A defined access (R63). A write whose word is an instruction is exec of that instruction; another write has its register's
effect, an illegal opcode among them (R77). -/
def runAccess (s : State) : Access → Host.Outcome State Fault Refusal
  | .read off _ => .next (s.busRead off)
  | .write off _ v =>
    match decode (.busWrite off v) with
    | .ok i => exec i s
    | .error _ => .next (s.busWrite off v)

/-- A host access (R63, R64, R171). -/
def hostTurn (s : State) (a : Access) : Host.Outcome State Fault Refusal :=
  if s.resetLine then .fault .busNoAnswer
  else if a.defined then runAccess s a
  else .refused .accessUndefined

/-- R94: the core's turn. It has no step while idle (R170), while reset is asserted (R171), or while the port that its step
addresses does not answer (R68). -/
def coreTurn (s : State) : Host.Outcome State Fault Refusal :=
  if s.resetLine || !s.busy || s.blocked then .next s
  else match s.headerToken with
    | some i => exec i s
    | none => .next (phaseStep s)

/-- R92: WAIT reads STATUS until BUSY reads 0; the core takes its turn between two reads (log entry 18). -/
def waitTurn (s : State) : Host.Outcome State Fault Refusal :=
  if s.resetLine then .fault .busNoAnswer
  else if s.busy then .next { s.busRead 0x08#8 with turns := .core :: .wait :: s.turns }
  else .next (s.busRead 0x08#8)

/-- R171: the reset input. Asserting it resets the block at once; releasing it starts nothing. -/
def resetTurn (s : State) (asserted : Bool) : State :=
  if asserted then { s.resetBlock with resetLine := true } else { s with resetLine := false }

/-- R174, R175, R178, R179: the world puts streams behind the ports or rewinds the input, between commands only (U7). -/
def portTurn (s : State) (s' : State) : Host.Outcome State Fault Refusal :=
  if s.busy then .refused .portMovedWhileBusy else .next s'

/-- One turn. -/
def takeTurn (s : State) : Turn → Host.Outcome State Fault Refusal
  | .host a => hostTurn s a
  | .core => coreTurn s
  | .wait => waitTurn s
  | .resetLine asserted => .next (resetTurn s asserted)
  | .ports i o => .next { s with inputAnswers := i, outputAnswers := o }
  | .loadInput bits => portTurn s { s with input := bits, pos := 0 }
  | .rewindInput => portTurn s { s with pos := 0 }
  | .freshOutput => portTurn s { s with output := [] }

/-- The header parser waits for a token that it can take: the state a token is fetched in (R131). -/
def State.awaitsToken (s : State) : Bool :=
  decide (s.phase = .hrBit) && decide (s.pend ≠ []) && decide (s.ncount ≠ 513#10)

/-- The block as HR_MAGIC leaves it (R130), running HDR_READ; unless the parser waits for a token already. -/
def State.readyForToken (s : State) : State :=
  if s.awaitsToken then s
  else { s with
    activeCmd := 0x07#8, seq := 0#3, phase := .hrBit, pend := [.root], ncount := 0#10, root := 0#10
    treeValid := false, codesValid := false }

/-- The state whose next turn fetches the bits given: a bus write becomes the host's next access; stream bits are put at the input
port's position, before the parser, and the core's turn comes next (log entry 13). -/
def State.place (s : State) : Fetched → State
  | .busWrite off v => { s with resetLine := false, turns := .host (.write off .word v) :: s.turns }
  | .stream bits =>
    { s.readyForToken with
      input := s.input.take s.pos ++ bits ++ s.input.drop s.pos
      resetLine := false, inputAnswers := true, turns := .core :: s.turns }

end Sys2Proof.Machine
end

