-- ==== Sys2Proof/Machine/Step.lean ====
section
/-! DEFINITION. One step of the machine: the next turn; with no turn to come, the core's (R66, R182). -/

namespace Sys2Proof.Machine

/-- R66: a run is an interleaving of host steps and core steps, which `turns` gives in order. When it is used up the core goes on
until its command ends (R182) and the idle block then stays as it is (R170). -/
def step (s : State) : Host.Outcome State Fault Refusal :=
  match s.turns with
  | [] => coreTurn s
  | t :: rest => takeTurn { s with turns := rest } t

/-- The state whose next step fetches and runs the word of an opcode-table row (log entries 11 and 13). -/
def State.withFetchWord (s : State) (nbits w : Nat) : State := s.place (tableFetch nbits w)

end Sys2Proof.Machine
end

