-- ==== Sys2Proof/Safety.lean ====
section
/-! DEFINITION. The terms in which claims about HUFFCORE are made: runs and how they end (R185), one host access at a time, code
trees and their serialization (R82), and the invariants of the state (R27, R41, R42, R51, R55, R106, R155). -/

namespace Sys2Proof.Machine

/-! ### Runs -/

/-- No turn is scheduled, reset is released and the ports answer: every step is a core step until the command ends. -/
def State.quiet (s : State) : Bool := decide (s.turns = []) && !s.resetLine && s.inputAnswers && s.outputAnswers

/-- A quiet state from which the host may dispatch: the block is idle (BUSY = 0). -/
def State.quietIdle (s : State) : Bool := s.quiet && !s.busy

/-- After `k` steps of the machine from `s` the state is `t`. -/
def After (k : Nat) (s t : State) : Prop := Host.Core.run Sys2Proof.core k s = Host.Outcome.next t

/-- R185: the command has ended well. -/
def State.endedWell (s : State) : Bool := !s.busy && s.done && !s.err

/-- R185: the command has failed. -/
def State.failed (s : State) : Bool := !s.busy && s.err

/-- What a completed command leaves in the registers that dispatch and completion write (R95, R100), for the command `op`; the
ports' counters are the command's own. -/
def State.completed (s : State) (op : BitVec 8) (seq : BitVec 3) (inBits outBits : Nat) : State :=
  { s with
    done := true, err := false, errcode := 0#32, errinfo := 0#32, activeCmd := op, seq := seq, phase := .idle
    inBits := BitVec.ofNat 32 inBits, outBits := BitVec.ofNat 32 outBits }

/-! ### One host access -/

/-- A host read at `off` is answered with `w` and changes nothing else. -/
def ReadAnswers (s : State) (off : BitVec 8) (w : Word) : Prop :=
  ∀ rest : List Turn,
    step { s with turns := .host (.read off .word) :: rest, resetLine := false } =
      .next { s with turns := rest, resetLine := false, answers := s.answers ++ [w] }

/-- A host read at `off` is answered with a fresh free value ("any value") and changes nothing else. -/
def ReadIsAnyValue (s : State) (off : BitVec 8) : Prop :=
  ∀ rest : List Turn,
    step { s with turns := .host (.read off .word) :: rest, resetLine := false } =
      .next { s with
        turns := rest, resetLine := false, answers := s.answers ++ [Config.freeWord s.draws], draws := s.draws + 1 }

/-- A host write of `v` at `off` changes the block from `s` to `t`. -/
def WriteGives (s : State) (off : BitVec 8) (v : Word) (t : State) : Prop :=
  ∀ rest : List Turn,
    step { s with turns := .host (.write off .word v) :: rest, resetLine := false } =
      .next { t with turns := rest, resetLine := false }

/-! ### Code trees -/

/-- A code tree: leaves carry symbols, internal nodes have two children (R23). -/
inductive Tree where
  | leaf (sym : Symbol)
  | node (l r : Tree)
deriving DecidableEq, Repr

/-- The number of leaves. -/
def Tree.leaves : Tree → Nat
  | .leaf _ => 1
  | .node l r => l.leaves + r.leaves

/-- The number of nodes. -/
def Tree.size : Tree → Nat
  | .leaf _ => 1
  | .node l r => 1 + l.size + r.size

/-- R82: the pre-order serialization. -/
def Tree.ser : Tree → List Bool
  | .leaf s => true :: bitsOf s
  | .node l r => false :: (l.ser ++ r.ser)

/-- R20, R121: `p` is the path of left (0) and right (1) choices from the root to a leaf of symbol `s`. -/
def Tree.IsPath : Tree → List Bool → Symbol → Prop
  | .leaf x, [], s => x = s
  | .node l _, false :: p, s => l.IsPath p s
  | .node _ r, true :: p, s => r.IsPath p s
  | .leaf _, _ :: _, _ => False
  | .node _ _, [], _ => False

/-- The leaves with their paths, in the order of the pre-order walk (R120). -/
def Tree.codes : Tree → List (Symbol × List Bool)
  | .leaf s => [(s, [])]
  | .node l r => (l.codes.map fun c => (c.1, false :: c.2)) ++ (r.codes.map fun c => (c.1, true :: c.2))

/-- The entry at `n` of the node store unfolds to the tree. -/
def Spells (m : Memory Node) (n : NodeIdx) : Tree → Prop
  | .leaf s => (Memory.read Node.zero m n.toNat).leaf = true ∧ (Memory.read Node.zero m n.toNat).sym = s
  | .node l r =>
    (Memory.read Node.zero m n.toNat).leaf = false ∧
      Spells m (Memory.read Node.zero m n.toNat).left l ∧ Spells m (Memory.read Node.zero m n.toNat).right r

/-- R133: the entries of a parsed tree, numbered in pre-order from `k` on, weights 0. -/
def Tree.layout (k : Nat) : Tree → List Node
  | .leaf s => [⟨true, s, 0#32, 0#10, 0#10⟩]
  | .node l r =>
    ⟨false, 0#9, 0#32, BitVec.ofNat 10 (k + 1), BitVec.ofNat 10 (k + 1 + l.size)⟩ ::
      (l.layout (k + 1) ++ r.layout (k + 1 + l.size))

/-- R29, R87: the bits of a code, from the root on. -/
def Code.bitList (c : Code) : List Bool := (List.range c.len.toNat).map c.bits.getLsbD

/-- R106: the sum of FREQ[0..k-1]. -/
def State.freqSum (s : State) (k : Nat) : Nat := ((List.range k).map fun i => (s.freqAt i).toNat).sum

/-! ### The tree in the node store -/

/-- The two child positions of every internal node below `n`. -/
def childSlots (m : Memory Node) (n : Nat) : List Slot :=
  (List.range n).flatMap fun i =>
    if (Memory.read Node.zero m i).leaf then [] else [.left (BitVec.ofNat 10 i), .right (BitVec.ofNat 10 i)]

/-- The node that a child position belongs to (the root position to none: 0). -/
def Slot.parent : Slot → Nat
  | .root => 0
  | .left p => p.toNat
  | .right p => p.toNat

/-- The node that a child position holds. -/
def Slot.child (m : Memory Node) : Slot → Nat
  | .root => 0
  | .left p => (Memory.read Node.zero m p.toNat).left.toNat
  | .right p => (Memory.read Node.zero m p.toNat).right.toNat

/-- R27: the fields that carry no meaning hold 0, and a parsed node has weight 0. -/
def nodeFieldsOk (src : TreeSource) (x : Node) : Bool :=
  (if x.leaf then decide (x.left = 0#10) && decide (x.right = 0#10) else decide (x.sym = 0#9)) &&
    match src with
    | .built => true
    | .parsed => decide (x.weight = 0#32)

/-- R117, R133: children lie below their parent in a built tree and above it in a parsed one. -/
def slotOrdered (src : TreeSource) (m : Memory Node) (sl : Slot) : Bool :=
  match src with
  | .built => decide (sl.child m < sl.parent)
  | .parsed => decide (sl.parent < sl.child m)

/-- R27: entries 0..n-1 form one full binary tree rooted at `root`: every entry but the root is the child of exactly one child
position, the root of none, and children are ordered against their parents, so no entry is reachable twice. -/
def treeOk (src : TreeSource) (m : Memory Node) (root n : Nat) : Bool :=
  decide (root < n) && decide (n ≤ Config.maxNodes) &&
    decide (((childSlots m n).map (Slot.child m)).Perm ((List.range n).erase root)) &&
    (childSlots m n).all (slotOrdered src m) &&
    (List.range n).all (fun i => nodeFieldsOk src (Memory.read Node.zero m i)) &&
    match src with
    | .built => decide (root = n - 1)
    | .parsed => decide (root = 0)

/-- R131: what HDR_READ has parsed so far: the tree but for the child positions still pending. -/
def parseOk (m : Memory Node) (n : Nat) (pend : List Slot) : Bool :=
  decide (n ≤ Config.maxNodes) && decide pend.Nodup &&
    (if n = 0 then decide (pend = [.root]) else pend.all fun sl => decide (sl ∈ childSlots m n)) &&
    decide ((((childSlots m n).filter fun sl => decide (sl ∉ pend)).map (Slot.child m)).Perm (List.range' 1 (n - 1))) &&
    ((childSlots m n).filter fun sl => decide (sl ∉ pend)).all (slotOrdered .parsed m) &&
    (List.range n).all (fun i =>
      decide ((Memory.read Node.zero m i).weight = 0#32) &&
        (!(Memory.read Node.zero m i).leaf || nodeFieldsOk .parsed (Memory.read Node.zero m i)) &&
        ((Memory.read Node.zero m i).leaf || decide ((Memory.read Node.zero m i).sym = 0#9)))

/-! ### Invariants -/

/-- The three internal memories have the canonical form. -/
def State.memoryOk (s : State) : Bool :=
  Memory.wf 0#32 256 s.freq && Memory.wf Node.zero Config.maxNodes s.node && Memory.wf Code.none Config.nsym s.code

/-- R41, R42: SEQ is 0..4, and while the block is busy PHASE is a phase of the engine at SEQ in the running command's list. -/
def State.sequencerOk (s : State) : Bool :=
  decide (s.seq.toNat ≤ 4) &&
    (decide (s.phase = .idle) || decide ((engines s.activeCmd)[s.seq.toNat]? = s.phase.engine))

/-- R97, R149: an engine that runs has what its dispatch precondition asks for; and codes are valid only for the tree held (R30).
In a COMPRESS the codes are valid from HDR_WRITE on, since ENCODE will need them. -/
def State.preconditionsOk (s : State) : Bool :=
  (!s.codesValid || s.treeValid) &&
    match s.phase.engine with
    | some .codeGen => s.treeValid
    | some .hdrWrite => s.treeValid && (decide (s.activeCmd ≠ 0x09#8) || s.codesValid)
    | some .encode => s.codesValid
    | some .decode => s.treeValid
    | _ => true

/-- R55: 0 <= POS <= |IN|. -/
def State.inputOk (s : State) : Bool := decide (s.pos ≤ s.input.length)

/-- R155: the ERRCODE words that errors write: one row of the cause table each, a row with an open bit twice. -/
def legalErrcodes : List Word :=
  [0x00000201#32, 0x00000202#32, 0x00001203#32, 0x00002004#32, 0x00005105#32, 0x00006006#32, 0x00016006#32,
    0x00016107#32, 0x00016208#32, 0x00006109#32, 0x0000700A#32, 0x0001710B#32, 0x0003710B#32]

/-- R35, R51, R162: while a command runs no result is shown; DONE and ERR exclude each other; ERRCODE is 0 or a row of R155's table;
ERR comes with a cause and DONE with none. -/
def State.statusOk (s : State) : Bool :=
  (!s.busy || (!s.done && !s.err && decide (s.errcode = 0#32) && decide (s.errinfo = 0#32))) &&
    (decide (s.errcode = 0#32) || decide (s.errcode ∈ legalErrcodes)) &&
    (!s.err || decide (s.errcode ≠ 0#32)) && (!s.done || decide (s.errcode = 0#32))

/-- R106: while FREQ_ACCUM counts, the counts add up to TOTAL, which does not exceed 2^32 - 2. -/
def State.countsOk (s : State) : Bool :=
  decide (s.phase ≠ .faRead) || (decide (s.freqSum 256 = s.total.toNat) && decide (s.total.toNat ≤ 2 ^ 32 - 2))

/-- R126, R144: the walkers stay in the tree: the nodes HDR_WRITE still has to visit are entries of it; DECODE's current node is an
internal node in DE_BIT and a leaf other than the end-marker in DE_EMIT, and its root is internal. -/
def State.walkersOk (s : State) : Bool :=
  match s.phase with
  | .hwWalk => s.ts.all fun n => decide (n < s.ncount)
  | .hwSym => (s.ts.all fun n => decide (n < s.ncount)) && decide (s.hwN < s.ncount)
  | .deBit => !(s.nodeAt s.root).leaf && decide (s.cur < s.ncount) && !(s.nodeAt s.cur).leaf
  | .deEmit =>
    !(s.nodeAt s.root).leaf && decide (s.cur < s.ncount) && (s.nodeAt s.cur).leaf &&
      decide ((s.nodeAt s.cur).sym ≠ Config.eom)
  | _ => true

/-- R27, R28, R131: while TREE_VALID = 1 the node store holds a full binary tree; while HDR_READ parses, what it has so far. -/
def State.treeInv (s : State) : Bool :=
  (!s.treeValid || treeOk s.treeSrc s.node s.root.toNat s.ncount.toNat) &&
    match s.phase with
    | .hrBit => !s.treeValid && decide (s.root = 0#10) && parseOk s.node s.ncount.toNat s.pend
    | .hrSym =>
      !s.treeValid && decide (s.root = 0#10) && parseOk s.node s.ncount.toNat s.pend &&
        decide (s.hleaf < s.ncount) && (s.nodeAt s.hleaf).leaf
    | _ => true

/-- The invariant of the block. -/
def State.inv (s : State) : Bool :=
  s.memoryOk && s.sequencerOk && s.preconditionsOk && s.inputOk && s.statusOk && s.countsOk && s.treeInv && s.walkersOk

/-! ### Resets, register writes and transactions, as the rules name them -/

/-- The values that R173 gives after a hardware or soft reset (the unspecified memories and temporaries have none). -/
def State.HasResetValues (s : State) : Prop :=
  s.ie = false ∧ s.activeCmd = 0x00#8 ∧ s.statusWord = 0x00000000#32 ∧ s.phase = .idle ∧ s.seq = 0#3 ∧
    s.errcode = 0#32 ∧ s.errinfo = 0#32 ∧ (∀ k, k < 256 → s.freqAt k = 0#32) ∧ s.freqAt 256 = 1#32 ∧ s.total = 0#32 ∧
    s.freqIdx = 0#9 ∧ s.nodeIdx = 0#10 ∧ s.codeIdx = 0#9 ∧ s.codeWsel = 0#3 ∧ s.root = 0#10 ∧ s.ncount = 0#10 ∧
    s.inBits = 0#32 ∧ s.outBits = 0#32 ∧ s.irq = false

/-- R51, R171, R172: the turn is a reset event: the reset input asserted, or a CTRL write with bit 0 = 1. -/
def Turn.isReset : Turn → Bool
  | .resetLine asserted => asserted
  | .host (.write off _ v) => decide (off = 0x00#8) && v.getLsbD 0
  | .host (.read _ _) => false
  | .core => false
  | .wait => false
  | .ports _ _ => false
  | .loadInput _ => false
  | .rewindInput => false
  | .freshOutput => false

/-- The turn is a host write to the register at `off`, of a word that satisfies `p`. -/
def Turn.isWrite (off : BitVec 8) (p : Word → Bool) : Turn → Bool
  | .host (.write o _ v) => decide (o = off) && p v
  | .host (.read _ _) => false
  | .resetLine _ => false
  | .core => false
  | .wait => false
  | .ports _ _ => false
  | .loadInput _ => false
  | .rewindInput => false
  | .freshOutput => false

/-- The next turn of the schedule satisfies `p`. -/
def State.nextTurnIs (s : State) (p : Turn → Bool) : Bool := s.turns.head?.any p

/-- R62: the transactions of each engine, and no others. -/
def engineMayIssue : Engine → Transaction → Bool
  | .freqAccum, .rd n => decide (n = 8)
  | .hdrWrite, .wr bits => decide (bits.length = 32) || decide (bits.length = 1) || decide (bits.length = 9)
  | .encode, .rewind => true
  | .encode, .rd n => decide (n = 8)
  | .encode, .wr bits => decide (bits.length = 1)
  | .encode, .close => true
  | .hdrRead, .rd n => decide (n = 32) || decide (n = 1) || decide (n = 9)
  | .decode, .rd n => decide (n = 1)
  | .decode, .wr bits => decide (bits.length = 8)
  | .decode, .close => true
  | _, _ => false

end Sys2Proof.Machine
end

