-- ==== Sys2Proof/Certificates/Slice0/Obligations.lean ====
section
/-! DEFINITION. The statements about HUFFCORE for the provers.

A frame (what a step leaves as it was) covers the hidden state too. That the engine temporaries keep their values between commands,
and the NODE entries theirs after a failed command, is the model's choice (log entries 26 and 27) and part of no cited rule. -/

open Sys2Proof Sys2Proof.Machine

/-! ### Encodings -/

/-- R73, with the opcode map of R76 and R77: CMD[7:0] alone selects the command; 0x0B..0xFF select none. -/
def Obligations.CommandWordsDecodeByOpcode : Prop :=
  ∀ v : Word,
    (∀ row ∈ ([(0x00#8, .nop), (0x01#8, .freqClear), (0x02#8, .freqAccum), (0x03#8, .treeBuild), (0x04#8, .codeGen),
        (0x05#8, .hdrWrite), (0x06#8, .encode), (0x07#8, .hdrRead), (0x08#8, .decode), (0x09#8, .compress),
        (0x0A#8, .decompress)] : List (BitVec 8 × Instr)),
      v.extractLsb' 0 8 = row.1 → decode (.busWrite 0x04#8 v) = .ok row.2) ∧
    (0x0B#8 ≤ v.extractLsb' 0 8 → decode (.busWrite 0x04#8 v) = .error (.illegalOpcode (v.extractLsb' 0 8)))

/-- Words and token bits written out from the encodings of 30_encoding.md. -/
def Obligations.WrittenOutWordsDecode : Prop :=
  decode (.busWrite 0x04#8 0x00000000#32) = .ok .nop ∧
    decode (.busWrite 0x04#8 0xFFFFFF03#32) = .ok .treeBuild ∧
    decode (.busWrite 0x04#8 0x00000009#32) = .ok .compress ∧
    decode (.busWrite 0x00#8 0x00000003#32) = .ok .sreset ∧
    decode (.stream [false, true, true]) = .ok .hdrInternal ∧
    decode (.stream [true, false, false, true, false, false, false, false, false, true]) = .ok (.hdrLeaf 0x41) ∧
    decode (.stream [true, true, false, false, false, false, false, false, false, false]) = .ok (.hdrLeaf 256)

/-- R83 to R85, R88: a header token followed by anything is decoded back with what follows it, and whatever decodes to a token
starts with that token's bits: no bit is dropped and none is read twice. -/
def Obligations.HeaderTokensDecodeExactly : Prop :=
  (∀ (i : Instr) (rest : List Bool), i.wellFormed = true → (i = .hdrInternal ∨ ∃ sym, i = .hdrLeaf sym) →
      decodeToken (tokenBits i ++ rest) = .ok (i, rest)) ∧
    ∀ (bits rest : List Bool) (i : Instr), decodeToken bits = .ok (i, rest) →
      i.wellFormed = true ∧ (i = .hdrInternal ∨ ∃ sym, i = .hdrLeaf sym) ∧ bits = tokenBits i ++ rest

/-- R73, R76, R79, R83 to R85: every well-formed instruction is decoded back from its encoding, a LEAF token with every symbol its
field can hold (R85), and nothing decodes to an ill-formed instruction. -/
def Obligations.EncodedInstructionsDecodeBack : Prop :=
  (∀ i : Instr, i.wellFormed = true → decode (encode i) = .ok i) ∧
    ∀ (f : Fetched) (i : Instr), decode f = .ok i → i.wellFormed = true

/-! ### The step -/

/-- A host write that decodes to an instruction is run as that instruction, its turn used up. -/
def Obligations.StepRunsDecodedWrite : Prop :=
  ∀ (s : State) (off : BitVec 8) (v : Word) (i : Instr) (rest : List Turn),
    s.turns = .host (.write off .word v) :: rest → s.resetLine = false → off.toNat % 4 = 0 →
      decode (.busWrite off v) = .ok i → step s = exec i { s with turns := rest }

/-- In the core's turn a header token that HDR_READ is at is run as that instruction. -/
def Obligations.StepRunsHeaderToken : Prop :=
  ∀ (s : State) (i : Instr), s.resetLine = false → s.inputAnswers = true → s.headerToken = some i →
    (s.turns = [] → step s = exec i s) ∧
      ∀ rest : List Turn, s.turns = .core :: rest → step s = exec i { s with turns := rest }

/-- R94, R68, R170: the core's turn is the action of the phase; while idle, under reset, or while the port it addresses does not
answer, nothing happens. -/
def Obligations.CoreTurnIsThePhaseOrNothing : Prop :=
  ∀ (s : State) (rest : List Turn),
    (s.resetLine = false → s.phase ≠ .idle → s.blocked = false →
      (s.turns = [] → step s = .next (phaseStep s)) ∧
        (s.turns = .core :: rest → step s = .next (phaseStep { s with turns := rest }))) ∧
      (s.resetLine = true ∨ s.phase = .idle ∨ s.blocked = true →
        (s.turns = [] → step s = .next s) ∧ (s.turns = .core :: rest → step s = .next { s with turns := rest }))

/-! ### Dispatch and completion -/

/-- R95, R97, R99: from idle a legal command whose precondition holds starts its first engine; the dispatch clears DONE, ERR, ERRCODE,
ERRINFO, IN_BITS and OUT_BITS, and nothing else changes. -/
def Obligations.DispatchStartsTheFirstEngine : Prop :=
  ∀ s : State, s.busy = false →
    ∀ row ∈ ([(.nop, 0x00#8, true, .nopRun), (.freqClear, 0x01#8, true, .fcClear), (.freqAccum, 0x02#8, true, .faInit),
        (.treeBuild, 0x03#8, true, .tbBuild), (.codeGen, 0x04#8, s.treeValid, .cgGen),
        (.hdrWrite, 0x05#8, s.treeValid, .hwMagic), (.encode, 0x06#8, s.codesValid, .enRewind),
        (.hdrRead, 0x07#8, true, .hrMagic), (.decode, 0x08#8, s.treeValid, .deStart), (.compress, 0x09#8, true, .faInit),
        (.decompress, 0x0A#8, true, .hrMagic)] : List (Instr × BitVec 8 × Bool × Phase)),
      row.2.2.1 = true →
        exec row.1 s = .next { s with
          done := false, err := false, errcode := 0#32, errinfo := 0#32, inBits := 0#32, outBits := 0#32
          activeCmd := row.2.1, seq := 0#3, phase := row.2.2.2 }

/-- R97, R98: a command whose precondition fails raises NOT_READY at dispatch: the block stays idle and no engine starts. -/
def Obligations.UnreadyCommandsRaiseNotReady : Prop :=
  ∀ s : State, s.busy = false →
    ∀ row ∈ ([(.codeGen, 0x04#8, s.treeValid), (.hdrWrite, 0x05#8, s.treeValid), (.encode, 0x06#8, s.codesValid),
        (.decode, 0x08#8, s.treeValid)] : List (Instr × BitVec 8 × Bool)),
      row.2.2 = false →
        exec row.1 s = .next { s with
          done := false, err := true, errcode := 0x00000202#32, errinfo := row.2.1.zeroExtend 32
          inBits := 0#32, outBits := 0#32, activeCmd := row.2.1 }

/-- R77 with R95, R98: opcodes 0x0B..0xFF raise ILLEGAL_CMD at dispatch, with the opcode in ERRINFO, and the core does no work. -/
def Obligations.IllegalOpcodesRaiseIllegalCmd : Prop :=
  ∀ (s : State) (v : Word), s.busy = false → 0x0B#8 ≤ v.extractLsb' 0 8 →
    WriteGives s 0x04#8 v { s with
      done := false, err := true, errcode := 0x00000201#32, errinfo := (v.extractLsb' 0 8).zeroExtend 32
      inBits := 0#32, outBits := 0#32, activeCmd := v.extractLsb' 0 8 }

/-- R96: a write to CMD while BUSY = 1 sets DROP and changes nothing else, whatever the opcode. -/
def Obligations.CommandsWhileBusyAreDropped : Prop :=
  ∀ s : State, s.busy = true →
    (∀ v : Word, WriteGives s 0x04#8 v { s with drop := true }) ∧
      ∀ i : Instr, i.opcode? ≠ none → exec i s = .next { s with drop := true }

/-- R100, R149: the end of an engine starts the next engine of the command's list, or completes the command. -/
def Obligations.FinishFollowsTheEngineList : Prop :=
  ∀ s : State,
    (∀ row ∈ ([(0x09#8, 0#3, .tbBuild), (0x09#8, 1#3, .cgGen), (0x09#8, 2#3, .hwMagic), (0x09#8, 3#3, .enRewind),
        (0x0A#8, 0#3, .deStart)] : List (BitVec 8 × BitVec 3 × Phase)),
      s.activeCmd = row.1 → s.seq = row.2.1 → s.finish = { s with seq := s.seq + 1#3, phase := row.2.2 }) ∧
    (s.activeCmd ≤ 0x08#8 ∨ (s.activeCmd = 0x09#8 ∧ s.seq = 4#3) ∨ (s.activeCmd = 0x0A#8 ∧ s.seq = 1#3) →
      s.finish = { s with phase := .idle, done := true })

/-! ### The commands, from dispatch to completion -/

/-- R101: NOP: one core step, and nothing of 10_state.md R30 or of the memories changes. -/
def Obligations.NopCompletes : Prop :=
  ∀ s : State, s.quietIdle = true →
    ∃ t, exec .nop s = .next t ∧ t.phase = .nopRun ∧ After 1 t (s.completed 0x00#8 0#3 0 0)

/-- R102: FREQ_CLEAR: one core step clears FREQ[0..255], TOTAL, TREE_VALID and CODES_VALID; FREQ[256] stays 1. -/
def Obligations.FreqClearCompletes : Prop :=
  ∀ s : State, s.quietIdle = true →
    ∃ t u, exec .freqClear s = .next t ∧ After 1 t u ∧
      (∀ k, k < 256 → u.freqAt k = 0#32) ∧ u.freqAt 256 = 1#32 ∧
      u = { s.completed 0x01#8 0#3 0 0 with freq := u.freq, total := 0#32, treeValid := false, codesValid := false }

/-- R107, R103, R183: FREQ_ACCUM on the n whole bytes from POS on: after n + 2 core steps FREQ holds their counts, TOTAL = n,
IN_BITS = 8n, POS has moved by 8n; the trailing 0..7 bits stay unread and nothing is output. -/
def Obligations.FreqAccumCountsTheInput : Prop :=
  ∀ (s : State) (xs : List Byte) (tail : List Bool), s.quietIdle = true →
    s.input.drop s.pos = bitsOfBytes xs ++ tail → tail.length < 8 → xs.length ≤ 2 ^ 32 - 2 →
      ∃ t u, exec .freqAccum s = .next t ∧ After (xs.length + 2) t u ∧
        (∀ b : Byte, u.freqAt b.toNat = BitVec.ofNat 32 (xs.count b)) ∧ u.freqAt 256 = 1#32 ∧
        u = { s.completed 0x02#8 0#3 (8 * xs.length) 0 with
          freq := u.freq, total := BitVec.ofNat 32 xs.length, treeValid := false, codesValid := false
          pos := s.pos + 8 * xs.length }

/-- R110 to R114, R116, R117: TREE_BUILD of a table whose counts sum to at most 2^32 - 1: leaves in ascending symbol order; every later
node merges the two least live (weight, index) pairs, the least as LEFT; 2L - 1 nodes, the root last, its weight the sum of
all counts; and the nodes form a full binary tree. -/
def Obligations.TreeBuildBuildsTheHuffmanTree : Prop :=
  ∀ s : State, s.quietIdle = true → s.memoryOk = true → s.freqSum 257 ≤ 2 ^ 32 - 1 →
    let live := (List.range 257).filter fun k => decide (s.freqAt k ≠ 0#32)
    ∃ t u, exec .treeBuild s = .next t ∧ After 1 t u ∧
      u = { s.completed 0x03#8 0#3 0 0 with
        treeValid := true, treeSrc := .built, codesValid := false, node := u.node, root := u.root, ncount := u.ncount } ∧
      u.ncount.toNat = 2 * live.length - 1 ∧ u.root.toNat = 2 * live.length - 2 ∧
      (∀ (j : Nat) (hj : j < live.length),
        u.nodeAt (BitVec.ofNat 10 j) = ⟨true, BitVec.ofNat 9 live[j], s.freqAt live[j], 0#10, 0#10⟩) ∧
      (∀ k : NodeIdx, live.length ≤ k.toNat → k.toNat < 2 * live.length - 1 →
        (u.nodeAt k).leaf = false ∧ (u.nodeAt k).sym = 0#9 ∧
        weightAt u.node k.toNat = weightAt u.node (u.nodeAt k).left.toNat + weightAt u.node (u.nodeAt k).right.toNat ∧
        before u.node (u.nodeAt k).left.toNat (u.nodeAt k).right.toNat = true ∧
        ∀ j : NodeIdx, j < k → j ≠ (u.nodeAt k).left → j ≠ (u.nodeAt k).right →
          (∀ i : NodeIdx, live.length ≤ i.toNat → i < k → (u.nodeAt i).left ≠ j ∧ (u.nodeAt i).right ≠ j) →
            before u.node (u.nodeAt k).right.toNat j.toNat = true) ∧
      weightAt u.node u.root.toNat = s.freqSum 257 ∧
      treeOk .built u.node u.root.toNat u.ncount.toNat = true

/-- R115: TREE_BUILD of a table whose counts sum to more than 2^32 - 1 raises WEIGHT_OVERFLOW with ERRINFO = NCOUNT = k, the index
the new node would have had, and ROOT = 0, TREE_VALID = 0. -/
def Obligations.TreeBuildRaisesWeightOverflow : Prop :=
  ∀ s : State, s.quietIdle = true → s.memoryOk = true → 2 ^ 32 - 1 < s.freqSum 257 →
    let live := (List.range 257).filter fun k => decide (s.freqAt k ≠ 0#32)
    ∃ t u k, exec .treeBuild s = .next t ∧ After 1 t u ∧ live.length ≤ k ∧ k < 2 * live.length - 1 ∧
      u = { s.completed 0x03#8 0#3 0 0 with
        done := false, err := true, errcode := 0x00002004#32, errinfo := BitVec.ofNat 32 k
        treeValid := false, codesValid := false, node := u.node, root := 0#10, ncount := BitVec.ofNat 10 k }

/-- R119 to R122: CODE_GEN: the entry of a symbol is the path of its leaf, of the last one in pre-order where several carry it; a
symbol without a leaf has no code; leaves of 257..511 are ignored. -/
def Obligations.CodeGenRecordsLeafPaths : Prop :=
  ∀ (s : State) (tree : Tree), s.quietIdle = true → s.treeValid = true → Spells s.node s.root tree → tree.leaves ≤ 257 →
    ∃ t u, exec .codeGen s = .next t ∧ After 1 t u ∧
      u = { s.completed 0x04#8 0#3 0 0 with codesValid := true, code := u.code } ∧
      ∀ sym : Symbol, sym.toNat ≤ 256 →
        match (tree.codes.filter fun c => decide (c.1 = sym)).getLast? with
        | some c =>
          (u.codeAt sym.toNat).valid = true ∧ (u.codeAt sym.toNat).len.toNat = c.2.length ∧
            ∀ k, k < 256 → (u.codeAt sym.toNat).bits.getLsbD k = c.2.getD k false
        | none =>
          (u.codeAt sym.toNat).valid = false ∧ (u.codeAt sym.toNat).len = 0#9 ∧ (u.codeAt sym.toNat).bits = 0#256

/-- R123: the codes CODE_GEN derives from a tree with distinct leaf symbols are a prefix code. -/
def Obligations.CodesAreAPrefixCode : Prop :=
  ∀ (s : State) (tree : Tree), s.quietIdle = true → s.treeValid = true → Spells s.node s.root tree → tree.leaves ≤ 257 →
    (tree.codes.map Prod.fst).Nodup →
      ∃ t u, exec .codeGen s = .next t ∧ After 1 t u ∧
        ∀ a b : Symbol, a.toNat ≤ 256 → b.toNat ≤ 256 → a ≠ b →
          (u.codeAt a.toNat).valid = true → (u.codeAt b.toNat).valid = true →
            ¬ (u.codeAt a.toNat).bitList <+: (u.codeAt b.toNat).bitList

/-- R124, R128, R183: HDR_WRITE of a tree of L leaves appends the 32 bits of MAGIC and ser(ROOT), 32 + 11L - 1 bits, in
1 + (2L - 1) + L + 1 core steps, and no CLOSE. That TS stays empty after the command is the model's choice (log entry 27). -/
def Obligations.HdrWriteSerializesTheTree : Prop :=
  ∀ (s : State) (tree : Tree), s.quietIdle = true → s.treeValid = true → Spells s.node s.root tree →
    ∃ t u, exec .hdrWrite s = .next t ∧ After (1 + (2 * tree.leaves - 1) + tree.leaves + 1) t u ∧
      tree.ser.length = 11 * tree.leaves - 1 ∧
      u = { s.completed 0x05#8 0#3 0 (32 + 11 * tree.leaves - 1) with
        ts := [], hwN := u.hwN, output := s.output ++ bitsOf (0xFACE8201#32) ++ tree.ser }

/-- R129, R133, R183: HDR_READ of MAGIC and the serialization of a tree of at most 257 leaves rebuilds that tree with its nodes numbered
in pre-order from 0, weights 0, and reads nothing after it; entries above it stay as they were.
PEND and HLEAF after the command are the model's choice (log entry 27). -/
def Obligations.HdrReadRebuildsTheTree : Prop :=
  ∀ (s : State) (tree : Tree) (rest : List Bool), s.quietIdle = true → s.memoryOk = true → tree.leaves ≤ 257 →
    s.input.drop s.pos = bitsOf (0xFACE8201#32) ++ tree.ser ++ rest →
      ∃ t u, exec .hdrRead s = .next t ∧ After (1 + (2 * tree.leaves - 1) + tree.leaves + 1) t u ∧
        u = { s.completed 0x07#8 0#3 (32 + 11 * tree.leaves - 1) 0 with
          treeValid := true, treeSrc := .parsed, codesValid := false
          node := u.node, root := 0#10, ncount := BitVec.ofNat 10 (2 * tree.leaves - 1)
          pend := [], hleaf := u.hleaf, pos := s.pos + (32 + 11 * tree.leaves - 1) } ∧
        (∀ (j : Nat) (hj : j < (tree.layout 0).length), u.nodeAt (BitVec.ofNat 10 j) = (tree.layout 0)[j]) ∧
        (∀ j : NodeIdx, 2 * tree.leaves - 1 ≤ j.toNat → u.nodeAt j = s.nodeAt j) ∧
        Spells u.node u.root tree

/-- R135, R140, R141, R183: ENCODE of an input of n whole bytes that all have a code: the output gains their codes, the end-marker's
code and the pad of a CLOSE; IN_BITS = 8n; OUT_BITS counts the codes, not the pad.
ESYM, EJ and EOMF after the command are the model's choice (log entry 27). -/
def Obligations.EncodeWritesTheCodes : Prop :=
  ∀ (s : State) (xs : List Byte) (tail : List Bool), s.quietIdle = true → s.codesValid = true →
    s.input = bitsOfBytes xs ++ tail → tail.length < 8 →
    (∀ x ∈ xs, (s.codeAt x.toNat).valid = true) → (s.codeAt 256).valid = true →
      let body := (xs.flatMap fun x => (s.codeAt x.toNat).bitList) ++ (s.codeAt 256).bitList
      ∃ t u pad, exec .encode s = .next t ∧
        After (1 + (xs.length + 1) + (body.length + (xs.length + 1)) + 1) t u ∧
        pad.length = (8 - (s.output ++ body).length % 8) % 8 ∧
        u = { s.completed 0x06#8 0#3 (8 * xs.length) body.length with
          esym := 256#9, ej := (s.codeAt 256).len, eomf := true, pos := 8 * xs.length
          output := s.output ++ body ++ pad, draws := s.draws + 1 }

/-- R142 to R148, R183: DECODE of a body: for codes of leaves other than the end-marker followed by the code of the end-marker, the
output gains the low 8 bits of each symbol and the pad of a CLOSE, and no bit after the end-marker's code is read. A tree that is
the end-marker's leaf reads nothing. -/
def Obligations.DecodeEmitsTheSymbols : Prop :=
  ∀ (s : State) (tree : Tree) (ws : List (List Bool × Symbol)) (last rest : List Bool),
    s.quietIdle = true → s.treeValid = true → Spells s.node s.root tree →
    (∀ w ∈ ws, tree.IsPath w.1 w.2 ∧ w.2 ≠ 256#9) → tree.IsPath last 256#9 →
    s.input.drop s.pos = (ws.flatMap Prod.fst) ++ last ++ rest → s.pos ≤ s.input.length →
      let bytes := ws.flatMap fun w => bitsOf (w.2.extractLsb' 0 8)
      let read := ((ws.flatMap Prod.fst) ++ last).length
      ∃ t u pad, exec .decode s = .next t ∧ After (2 + read + ws.length) t u ∧
        pad.length = (8 - (s.output ++ bytes).length % 8) % 8 ∧
        u = { s.completed 0x08#8 0#3 read (8 * ws.length) with
          cur := u.cur, pos := s.pos + read, output := s.output ++ bytes ++ pad, draws := s.draws + 1 }

/-- R150 with R80, R87: COMPRESS of n whole bytes from position 0 writes MAGIC, the header of the tree it built, the path of each byte's
leaf, the path of the end-marker's leaf, and the pad; nothing but the tables, the flags, the counters and the ports' state changes.
The temporaries after the command are the model's choice (log entry 27). -/
def Obligations.CompressWritesTheStream : Prop :=
  ∀ (s : State) (xs : List Byte) (tail : List Bool), s.quietIdle = true → s.memoryOk = true → s.pos = 0 →
    s.input = bitsOfBytes xs ++ tail → tail.length < 8 → xs.length ≤ 2 ^ 32 - 2 →
      ∃ (t : State) (k : Nat) (u : State) (tree : Tree) (code : Symbol → List Bool) (pad : List Bool),
        exec .compress s = .next t ∧ After k t u ∧
        (∀ b : Byte, u.freqAt b.toNat = BitVec.ofNat 32 (xs.count b)) ∧
        treeOk .built u.node u.root.toNat u.ncount.toNat = true ∧ Spells u.node u.root tree ∧
        (tree.codes.map Prod.fst).Nodup ∧
        (∀ x ∈ xs, tree.IsPath (code (x.zeroExtend 9)) (x.zeroExtend 9)) ∧ tree.IsPath (code 256#9) 256#9 ∧
        (let body := (xs.flatMap fun x => code (x.zeroExtend 9)) ++ code 256#9
          let stream := bitsOf (0xFACE8201#32) ++ tree.ser ++ body
          pad.length = (8 - (s.output ++ stream).length % 8) % 8 ∧
          u = { s.completed 0x09#8 4#3 (8 * xs.length) stream.length with
            treeValid := true, treeSrc := .built, codesValid := true
            freq := u.freq, total := BitVec.ofNat 32 xs.length, node := u.node, root := u.root, ncount := u.ncount
            code := u.code, ts := [], hwN := u.hwN, esym := 256#9, ej := u.ej, eomf := true
            pos := 8 * xs.length, output := s.output ++ stream ++ pad, draws := s.draws + 1 })

/-- R151: DECOMPRESS of MAGIC, the header of a tree of at most 257 leaves, and a body of codes ending with the end-marker's: it emits
the symbols' low 8 bits, leaves TREE_VALID = 1, TREE_SRC = 1, CODES_VALID = 0, and reads nothing after the end-marker's code.
The temporaries after the command are the model's choice (log entry 27). -/
def Obligations.DecompressReadsTheStream : Prop :=
  ∀ (s : State) (tree : Tree) (ws : List (List Bool × Symbol)) (last rest : List Bool),
    s.quietIdle = true → s.memoryOk = true → tree.leaves ≤ 257 →
    (∀ w ∈ ws, tree.IsPath w.1 w.2 ∧ w.2 ≠ 256#9) → tree.IsPath last 256#9 →
    s.input.drop s.pos = bitsOf (0xFACE8201#32) ++ tree.ser ++ (ws.flatMap Prod.fst) ++ last ++ rest →
      let bytes := ws.flatMap fun w => bitsOf (w.2.extractLsb' 0 8)
      let read := 32 + (11 * tree.leaves - 1) + ((ws.flatMap Prod.fst) ++ last).length
      ∃ t k u pad, exec .decompress s = .next t ∧ After k t u ∧
        pad.length = (8 - (s.output ++ bytes).length % 8) % 8 ∧ Spells u.node u.root tree ∧
        u = { s.completed 0x0A#8 1#3 read (8 * ws.length) with
          treeValid := true, treeSrc := .parsed, codesValid := false
          node := u.node, root := 0#10, ncount := BitVec.ofNat 10 (2 * tree.leaves - 1)
          pend := [], hleaf := u.hleaf, cur := u.cur, pos := s.pos + read
          output := s.output ++ bytes ++ pad, draws := s.draws + 1 }

/-- R152: the round trip: for every byte sequence (of at most TOTAL_MAX bytes, R11), DECOMPRESS of what COMPRESS wrote gives it back,
whatever the pad bits are. -/
def Obligations.CompressThenDecompressRoundTrips : Prop :=
  ∀ (s : State) (xs : List Byte), s.quietIdle = true → s.memoryOk = true → s.input = bitsOfBytes xs → s.pos = 0 →
    s.output = [] → xs.length ≤ 2 ^ 32 - 2 →
      ∃ t k u, exec .compress s = .next t ∧ After k t u ∧ u.endedWell = true ∧
        ∀ s2 : State, s2.quietIdle = true → s2.memoryOk = true → s2.input = u.output → s2.pos = 0 → s2.output = [] →
          ∃ t2 k2 v, exec .decompress s2 = .next t2 ∧ After k2 t2 v ∧ v.endedWell = true ∧ v.output = bitsOfBytes xs

/-! ### Reset -/

/-- R172, R174: the soft reset, by a CTRL write with bit 0 = 1 whatever the other bits, in one host step and in every state: every
register and memory takes its R173 value, IE included; no transaction is issued: the ports stay as they are. -/
def Obligations.SoftResetGivesTheResetValues : Prop :=
  ∀ (s : State) (v : Word), v.getLsbD 0 = true →
    decode (.busWrite 0x00#8 v) = .ok .sreset ∧
      ∃ t, exec .sreset s = .next t ∧ WriteGives s 0x00#8 v t ∧ t.HasResetValues ∧
        t.input = s.input ∧ t.pos = s.pos ∧ t.output = s.output ∧ t.inputAnswers = s.inputAnswers ∧
        t.outputAnswers = s.outputAnswers ∧ t.resetLine = s.resetLine ∧ t.turns = s.turns ∧ t.answers = s.answers

/-- R171, R174: asserting the reset input gives the reset values at once and leaves the ports; while it is asserted the core does no
step and no host access is answered (the model's fault busNoAnswer, log entry 10). -/
def Obligations.HardwareResetHoldsTheBlock : Prop :=
  ∀ (s : State) (rest : List Turn),
    (s.turns = .resetLine true :: rest →
      ∃ t, step s = .next t ∧ t.HasResetValues ∧ t.resetLine = true ∧ t.turns = rest ∧ t.input = s.input ∧ t.pos = s.pos ∧
        t.output = s.output ∧ t.answers = s.answers) ∧
    (s.turns = .resetLine false :: rest → step s = .next { s with turns := rest, resetLine := false }) ∧
    (s.resetLine = true → s.turns = [] → step s = .next s) ∧
    (s.resetLine = true → ∀ a : Access, s.turns = .host a :: rest → step s = .fault .busNoAnswer)

/-- R173, R175: the machine after reset: the values R173 gives, an input port at POS = 0, an empty output, and the core has no step. -/
def Obligations.ResetStateHasTheResetValues : Prop :=
  State.reset.HasResetValues ∧ State.reset.pos = 0 ∧ State.reset.output = [] ∧ step State.reset = .next State.reset

/-! ### The header tokens -/

/-- R83 with R131: HDR_READ takes an INTERNAL token in one core step: node NCOUNT is internal, its two child positions are pending, the
left one first, and the pending position on top of PEND is filled with it; one bit is read. -/
def Obligations.InternalTokenStartsAnInternalNode : Prop :=
  ∀ (s : State) (slot : Slot) (pend : List Slot) (tail : List Bool), s.memoryOk = true → s.phase = .hrBit →
    s.pend = slot :: pend → s.ncount.toNat < 513 → (slot ≠ .root → slot.parent < s.ncount.toNat) →
    s.pos ≤ s.input.length → s.input.drop s.pos = false :: tail →
      ∃ t, exec .hdrInternal s = .next t ∧
        t.nodeAt s.ncount = ⟨false, 0#9, 0#32, 0#10, 0#10⟩ ∧
        (∀ j : NodeIdx, j ≠ s.ncount →
          t.nodeAt j =
            if slot = .left j then { s.nodeAt j with left := s.ncount }
            else if slot = .right j then { s.nodeAt j with right := s.ncount }
            else s.nodeAt j) ∧
        t = { s with
          node := t.node, ncount := s.ncount + 1#10, pend := .left s.ncount :: .right s.ncount :: pend
          pos := s.pos + 1, inBits := s.inBits + 1#32 }

/-- R84 with R131, R132: HDR_READ takes a LEAF token in two core steps: the "1" starts leaf NCOUNT in the position on top of PEND, the
9-bit field is its symbol; ten bits are read. -/
def Obligations.LeafTokenPlacesALeaf : Prop :=
  ∀ (s : State) (slot : Slot) (pend : List Slot) (sym : Symbol) (tail : List Bool), s.memoryOk = true → s.phase = .hrBit →
    s.pend = slot :: pend → s.ncount.toNat < 513 → (slot ≠ .root → slot.parent < s.ncount.toNat) →
    s.pos ≤ s.input.length → s.input.drop s.pos = true :: (bitsOf sym ++ tail) →
      ∃ t u, exec (.hdrLeaf sym.toNat) s = .next t ∧ t.phase = .hrSym ∧ exec (.hdrLeaf sym.toNat) t = .next u ∧
        u.nodeAt s.ncount = ⟨true, sym, 0#32, 0#10, 0#10⟩ ∧
        (∀ j : NodeIdx, j ≠ s.ncount →
          u.nodeAt j =
            if slot = .left j then { s.nodeAt j with left := s.ncount }
            else if slot = .right j then { s.nodeAt j with right := s.ncount }
            else s.nodeAt j) ∧
        u = { s with
          node := u.node, ncount := s.ncount + 1#10, pend := pend, hleaf := s.ncount
          pos := s.pos + 10, inBits := s.inBits + 10#32 }

/-! ### The host's registers -/

/-- R32: CTRL: SRESET reads 0, IE is bit 1; a write with bit 0 = 0 sets IE and nothing else; one with bit 0 = 1 resets the block, IE
included; IE is 0 at reset. -/
def Obligations.CtrlHoldsTheInterruptEnable : Prop :=
  ∀ (s : State) (v : Word),
    ReadAnswers s 0x00#8 (if s.ie then 0x00000002#32 else 0x00000000#32) ∧
      (v.getLsbD 0 = false → WriteGives s 0x00#8 v { s with ie := v.getLsbD 1 }) ∧
      (v.getLsbD 0 = true → ∃ t, WriteGives s 0x00#8 v t ∧ t.ie = false ∧ t.HasResetValues) ∧ State.reset.ie = false

/-- R34, R52: STATUS: the fields it shows, and the write that clears exactly the sticky bits written as 1. -/
def Obligations.StatusShowsAndClearsFlags : Prop :=
  ∀ s : State,
    (∃ w : Word, ReadAnswers s 0x08#8 w ∧ (w.getLsbD 0 = true ↔ s.phase ≠ .idle) ∧ w.getLsbD 1 = s.done ∧
      w.getLsbD 2 = s.err ∧ w.getLsbD 3 = s.drop ∧ w.getLsbD 4 = s.treeValid ∧ w.getLsbD 5 = s.codesValid ∧
      (w.getLsbD 6 = true ↔ s.treeSrc = .parsed) ∧ w.getLsbD 7 = (s.ie && (s.done || s.err)) ∧
      w.extractLsb' 8 8 = s.phase.code ∧ w.extractLsb' 16 16 = 0#16) ∧
    ∀ v : Word, WriteGives s 0x08#8 v { s with
      done := s.done && !v.getLsbD 1, err := s.err && !v.getLsbD 2, drop := s.drop && !v.getLsbD 3 }

/-- R38: FREQ_DATA: any value while busy; else the entry, 1 at index 256 and 0 above it. A write is taken only when idle and at an index
up to 255; it clears TREE_VALID and CODES_VALID and leaves TOTAL. -/
def Obligations.FreqDataWindow : Prop :=
  ∀ s : State, s.memoryOk = true →
    (s.busy = true → ReadIsAnyValue s 0x18#8 ∧ ∀ v, WriteGives s 0x18#8 v s) ∧
    (s.busy = false →
      (s.freqIdx.toNat < 256 → ReadAnswers s 0x18#8 (s.freqAt s.freqIdx.toNat)) ∧
      (s.freqIdx.toNat = 256 → ReadAnswers s 0x18#8 1#32) ∧
      (257 ≤ s.freqIdx.toNat → ReadAnswers s 0x18#8 0#32) ∧
      (256 ≤ s.freqIdx.toNat → ∀ v, WriteGives s 0x18#8 v s) ∧
      (s.freqIdx.toNat < 256 → ∀ v, ∃ t, WriteGives s 0x18#8 v t ∧
        (∀ k, t.freqAt k = if k = s.freqIdx.toNat then v else s.freqAt k) ∧
        t = { s with freq := t.freq, treeValid := false, codesValid := false }))

/-- R43, R44: NODE_WEIGHT and NODE_LINK: any value while busy or without a tree; 0 from NCOUNT on; else the fields of the entry; writes
are ignored. -/
def Obligations.NodeWindows : Prop :=
  ∀ s : State,
    (s.busy = true ∨ s.treeValid = false → ReadIsAnyValue s 0x24#8 ∧ ReadIsAnyValue s 0x28#8) ∧
    (s.busy = false → s.treeValid = true → s.ncount ≤ s.nodeIdx →
      ReadAnswers s 0x24#8 0#32 ∧ ReadAnswers s 0x28#8 0#32) ∧
    (s.busy = false → s.treeValid = true → s.nodeIdx < s.ncount →
      ReadAnswers s 0x24#8 (s.nodeAt s.nodeIdx).weight ∧
      ∃ w : Word, ReadAnswers s 0x28#8 w ∧ w.extractLsb' 0 10 = (s.nodeAt s.nodeIdx).left ∧
        w.extractLsb' 10 10 = (s.nodeAt s.nodeIdx).right ∧ w.extractLsb' 20 9 = (s.nodeAt s.nodeIdx).sym ∧
        w.extractLsb' 29 2 = 0#2 ∧ w.getLsbD 31 = (s.nodeAt s.nodeIdx).leaf) ∧
    ∀ v : Word, WriteGives s 0x24#8 v s ∧ WriteGives s 0x28#8 v s

/-- R47: CODE_LEN and CODE_DATA: any value while busy or without codes; 0 from symbol 257 on; else the entry, the code shown
left-aligned. -/
def Obligations.CodeWindows : Prop :=
  ∀ s : State,
    (s.busy = true ∨ s.codesValid = false → ReadIsAnyValue s 0x38#8 ∧ ReadIsAnyValue s 0x3C#8) ∧
    (s.busy = false → s.codesValid = true →
      (257 ≤ s.codeIdx.toNat → ReadAnswers s 0x38#8 0#32 ∧ ReadAnswers s 0x3C#8 0#32) ∧
      (s.codeIdx.toNat ≤ 256 →
        ∃ len data : Word, ReadAnswers s 0x38#8 len ∧ ReadAnswers s 0x3C#8 data ∧
          len.getLsbD 31 = (s.codeAt s.codeIdx.toNat).valid ∧ len.extractLsb' 9 22 = 0#22 ∧
          len.extractLsb' 0 9 = (s.codeAt s.codeIdx.toNat).len ∧
          ∀ j, j < 32 →
            data.getLsbD (31 - j) = (s.codeAt s.codeIdx.toNat).bits.getLsbD (32 * s.codeWsel.toNat + j)))

/-- R33, R35, R36, R39, R45, R48, R49: what the command, error, total, tree and counter registers read as; TOTAL, TREE_INFO, IN_BITS
and OUT_BITS are any value while busy, and exact otherwise (TREE_INFO with or without a tree, R45); writes to TOTAL and TREE_INFO are
ignored. That TREE_INFO is exact without a tree is the model's choice (DEDUCED, log entry 6): it follows R45, where U2 calls that read
any value. -/
def Obligations.ResultRegistersRead : Prop :=
  ∀ s : State,
    ReadAnswers s 0x04#8 (s.activeCmd.zeroExtend 32) ∧ ReadAnswers s 0x0C#8 s.errcode ∧ ReadAnswers s 0x10#8 s.errinfo ∧
    (s.busy = true →
      ReadIsAnyValue s 0x1C#8 ∧ ReadIsAnyValue s 0x2C#8 ∧ ReadIsAnyValue s 0x40#8 ∧ ReadIsAnyValue s 0x44#8) ∧
    (s.busy = false →
      ReadAnswers s 0x1C#8 s.total ∧ ReadAnswers s 0x40#8 s.inBits ∧ ReadAnswers s 0x44#8 s.outBits ∧
      ∃ w : Word, ReadAnswers s 0x2C#8 w ∧ w.extractLsb' 0 10 = s.root ∧ w.extractLsb' 10 6 = 0#6 ∧
        w.extractLsb' 16 10 = s.ncount ∧ w.extractLsb' 26 6 = 0#6) ∧
    ∀ v : Word, WriteGives s 0x1C#8 v s ∧ WriteGives s 0x2C#8 v s

/-- R37, R40, R46: the index registers: 0 at reset, they read back zero-extended and take the low bits of a write, busy or not. -/
def Obligations.IndexRegistersReadAndWrite : Prop :=
  ∀ (s : State) (v : Word),
    ReadAnswers s 0x14#8 (s.freqIdx.zeroExtend 32) ∧ WriteGives s 0x14#8 v { s with freqIdx := v.extractLsb' 0 9 } ∧
    ReadAnswers s 0x20#8 (s.nodeIdx.zeroExtend 32) ∧ WriteGives s 0x20#8 v { s with nodeIdx := v.extractLsb' 0 10 } ∧
    ReadAnswers s 0x30#8 (s.codeIdx.zeroExtend 32) ∧ WriteGives s 0x30#8 v { s with codeIdx := v.extractLsb' 0 9 } ∧
    ReadAnswers s 0x34#8 (s.codeWsel.zeroExtend 32) ∧ WriteGives s 0x34#8 v { s with codeWsel := v.extractLsb' 0 3 } ∧
    State.reset.freqIdx = 0#9 ∧ State.reset.nodeIdx = 0#10 ∧ State.reset.codeIdx = 0#9 ∧ State.reset.codeWsel = 0#3

/-- R31, R163: unmapped offsets read 0 and ignore writes; read-only registers ignore writes. -/
def Obligations.UnmappedAndReadOnlyIgnoreWrites : Prop :=
  ∀ (s : State) (off : BitVec 8) (v : Word), off.toNat % 4 = 0 →
    (0x48#8 ≤ off → ReadAnswers s off 0#32 ∧ WriteGives s off v s) ∧
    (off ∈ [0x0C#8, 0x10#8, 0x1C#8, 0x24#8, 0x28#8, 0x2C#8, 0x38#8, 0x3C#8, 0x40#8, 0x44#8] → WriteGives s off v s)

/-- R63: an access that is not 32 bits wide, or not at a multiple of 4, is refused; every other access gives a next state. -/
def Obligations.OnlyAlignedWordAccessesAreDefined : Prop :=
  ∀ (s : State) (a : Access) (rest : List Turn), s.turns = .host a :: rest → s.resetLine = false →
    ((∃ off size, (size ≠ .word ∨ off.toNat % 4 ≠ 0) ∧ (a = .read off size ∨ ∃ v, a = .write off size v)) →
      step s = .refused .accessUndefined) ∧
    ((∃ off, off.toNat % 4 = 0 ∧ (a = .read off .word ∨ ∃ v, a = .write off .word v)) → ∃ t, step s = .next t)

/-! ### The phases -/

/-- R104, R105: FA_INIT and FA_READ. -/
def Obligations.FrequencyPhases : Prop :=
  ∀ s : State, s.quiet = true → s.memoryOk = true →
    (s.phase = .faInit →
      ∃ t, step s = .next t ∧ (∀ k, k < 256 → t.freqAt k = 0#32) ∧
        t = { s with freq := t.freq, total := 0#32, treeValid := false, codesValid := false, phase := .faRead }) ∧
    (s.phase = .faRead → s.input.length < s.pos + 8 → step s = .next s.finish) ∧
    (s.phase = .faRead → s.pos + 8 ≤ s.input.length → ∀ r : Byte, (s.input.drop s.pos).take 8 = bitsOf r →
      (s.total = 0xFFFFFFFE#32 →
        step s = .next { s with
          pos := s.pos + 8, inBits := s.inBits + 8#32, errcode := 0x00001203#32, errinfo := r.zeroExtend 32
          err := true, phase := .idle }) ∧
      (s.total ≠ 0xFFFFFFFE#32 →
        ∃ t, step s = .next t ∧ (∀ k, t.freqAt k = if k = r.toNat then s.freqAt k + 1#32 else s.freqAt k) ∧
          t = { s with freq := t.freq, total := s.total + 1#32, pos := s.pos + 8, inBits := s.inBits + 8#32 }))

/-- R125, R126, R127: HW_MAGIC, HW_WALK and HW_SYM. -/
def Obligations.HeaderWritePhases : Prop :=
  ∀ s : State, s.quiet = true →
    (s.phase = .hwMagic →
      step s = .next { s with
        output := s.output ++ bitsOf (0xFACE8201#32), outBits := s.outBits + 32#32, ts := [s.root], phase := .hwWalk }) ∧
    (s.phase = .hwWalk → s.ts = [] → step s = .next s.finish) ∧
    (s.phase = .hwWalk → ∀ n rest, s.ts = n :: rest →
      ((s.nodeAt n).leaf = false →
        step s = .next { s with
          output := s.output ++ [false], outBits := s.outBits + 1#32
          ts := (s.nodeAt n).left :: (s.nodeAt n).right :: rest }) ∧
      ((s.nodeAt n).leaf = true →
        step s = .next { s with
          output := s.output ++ [true], outBits := s.outBits + 1#32, ts := rest, hwN := n, phase := .hwSym })) ∧
    (s.phase = .hwSym →
      step s = .next { s with
        output := s.output ++ bitsOf (s.nodeAt s.hwN).sym, outBits := s.outBits + 9#32, phase := .hwWalk })

/-- R130, R132 and the ends of R131: HR_MAGIC with a good magic, a wrong one and an EOF; HR_BIT with no position pending, with 513 nodes
(checked before the read) and at EOF; HR_SYM with a field and at EOF. That NCOUNT is 0 after BAD_MAGIC (R28, R134)
although R130's pseudocode has not written it there, and that the NODE entries stay on every error, is the model's choice (log entries
25 and 26). -/
def Obligations.HeaderReadPhases : Prop :=
  ∀ s : State, s.quiet = true → s.memoryOk = true →
    (s.phase = .hrMagic →
      (s.input.length < s.pos + 32 →
        step s = .next { s with
          treeValid := false, codesValid := false, ncount := 0#10
          errcode := 0x00016006#32, errinfo := 0#32, err := true, phase := .idle }) ∧
      (s.pos + 32 ≤ s.input.length → ∀ r : Word, (s.input.drop s.pos).take 32 = bitsOf r →
        (r ≠ 0xFACE8201#32 →
          step s = .next { s with
            treeValid := false, codesValid := false, ncount := 0#10, pos := s.pos + 32, inBits := s.inBits + 32#32
            errcode := 0x00006006#32, errinfo := r, err := true, phase := .idle }) ∧
        (r = 0xFACE8201#32 →
          step s = .next { s with
            treeValid := false, codesValid := false, pos := s.pos + 32, inBits := s.inBits + 32#32
            ncount := 0#10, root := 0#10, pend := [.root], phase := .hrBit }))) ∧
    (s.phase = .hrBit →
      (s.pend = [] → step s = .next (State.finish { s with treeValid := true, treeSrc := .parsed })) ∧
      (s.pend ≠ [] → s.ncount = 513#10 →
        step s = .next { s with errcode := 0x00006109#32, errinfo := 513#32, err := true, phase := .idle }) ∧
      (s.pend ≠ [] → s.ncount ≠ 513#10 → s.input.length < s.pos + 1 →
        step s = .next { s with
          errcode := 0x00016107#32, errinfo := s.ncount.zeroExtend 32, err := true, phase := .idle })) ∧
    (s.phase = .hrSym →
      (s.input.length < s.pos + 9 →
        step s = .next { s with
          errcode := 0x00016208#32, errinfo := s.ncount.zeroExtend 32, err := true, phase := .idle }) ∧
      (s.pos + 9 ≤ s.input.length → s.hleaf.toNat < 513 →
        ∀ r : Symbol, (s.input.drop s.pos).take 9 = bitsOf r →
          ∃ t, step s = .next t ∧
            (∀ j : NodeIdx, t.nodeAt j = if j = s.hleaf then { s.nodeAt j with sym := r } else s.nodeAt j) ∧
            t = { s with node := t.node, pos := s.pos + 9, inBits := s.inBits + 9#32, phase := .hrBit }))

/-- R136 to R139: EN_REWIND, EN_READ, EN_BITS and EN_CLOSE. That ESYM and EOMF keep their values after NO_CODE has ended the command is
the model's choice (log entry 27). -/
def Obligations.EncoderPhases : Prop :=
  ∀ s : State, s.quiet = true →
    (s.phase = .enRewind → step s = .next { s with pos := 0, inBits := 0#32, eomf := false, phase := .enRead }) ∧
    (s.phase = .enRead → s.input.length < s.pos + 8 →
      ((s.codeAt 256).valid = true →
        step s = .next { s with esym := 256#9, eomf := true, ej := 0#9, phase := .enBits }) ∧
      ((s.codeAt 256).valid = false →
        step s = .next { s with
          esym := 256#9, eomf := true, errcode := 0x00005105#32, errinfo := 256#32, err := true, phase := .idle })) ∧
    (s.phase = .enRead → s.pos + 8 ≤ s.input.length → ∀ r : Byte, (s.input.drop s.pos).take 8 = bitsOf r →
      ((s.codeAt r.toNat).valid = true →
        step s = .next { s with
          pos := s.pos + 8, inBits := s.inBits + 8#32, esym := r.zeroExtend 9, ej := 0#9, phase := .enBits }) ∧
      ((s.codeAt r.toNat).valid = false →
        step s = .next { s with
          pos := s.pos + 8, inBits := s.inBits + 8#32, esym := r.zeroExtend 9
          errcode := 0x00005105#32, errinfo := r.zeroExtend 32, err := true, phase := .idle })) ∧
    (s.phase = .enBits →
      (s.ej < (s.codeAt s.esym.toNat).len →
        step s = .next { s with
          output := s.output ++ [(s.codeAt s.esym.toNat).bits.getLsbD s.ej.toNat], outBits := s.outBits + 1#32
          ej := s.ej + 1#9 }) ∧
      (¬ s.ej < (s.codeAt s.esym.toNat).len → s.eomf = true → step s = .next { s with phase := .enClose }) ∧
      (¬ s.ej < (s.codeAt s.esym.toNat).len → s.eomf = false → step s = .next { s with phase := .enRead })) ∧
    (s.phase = .enClose →
      ∃ pad : List Bool, pad.length = (8 - s.output.length % 8) % 8 ∧
        step s = .next (State.finish { s with output := s.output ++ pad, draws := s.draws + 1 }))

/-- R143 to R146: DE_START, DE_BIT, DE_EMIT and DE_CLOSE. -/
def Obligations.DecoderPhases : Prop :=
  ∀ s : State, s.quiet = true →
    (s.phase = .deStart →
      ((s.nodeAt s.root).leaf = true → (s.nodeAt s.root).sym = 256#9 → step s = .next { s with phase := .deClose }) ∧
      ((s.nodeAt s.root).leaf = true → (s.nodeAt s.root).sym ≠ 256#9 →
        step s = .next { s with
          errcode := 0x0000700A#32, errinfo := (s.nodeAt s.root).sym.zeroExtend 32, err := true, phase := .idle }) ∧
      ((s.nodeAt s.root).leaf = false → step s = .next { s with cur := s.root, phase := .deBit })) ∧
    (s.phase = .deBit → s.input.length < s.pos + 1 →
      step s = .next { s with
        errcode := if s.cur = s.root then 0x0001710B#32 else 0x0003710B#32
        errinfo := s.cur.zeroExtend 32, err := true, phase := .idle }) ∧
    (s.phase = .deBit → ∀ (r : Bool) (tail : List Bool), s.pos ≤ s.input.length → s.input.drop s.pos = r :: tail →
      let c := if r then (s.nodeAt s.cur).right else (s.nodeAt s.cur).left
      step s = .next { s with
        pos := s.pos + 1, inBits := s.inBits + 1#32, cur := c
        phase :=
          if (s.nodeAt c).leaf = false then .deBit else if (s.nodeAt c).sym = 256#9 then .deClose else .deEmit }) ∧
    (s.phase = .deEmit →
      step s = .next { s with
        output := s.output ++ bitsOf ((s.nodeAt s.cur).sym.extractLsb' 0 8), outBits := s.outBits + 8#32
        cur := s.root, phase := .deBit }) ∧
    (s.phase = .deClose →
      ∃ pad : List Bool, pad.length = (8 - s.output.length % 8) % 8 ∧
        step s = .next (State.finish { s with output := s.output ++ pad, draws := s.draws + 1 }))

/-! ### Invariants -/

/-- The machine after reset meets the invariant. -/
def Obligations.ResetMeetsTheInvariant : Prop := State.reset.inv = true

/-- Every step keeps the canonical form of the internal memories (10_state.md R25, R27, R29: no entry beyond the last index). -/
def Obligations.StepKeepsMemoriesCanonical : Prop :=
  ∀ s t : State, s.memoryOk = true → step s = .next t → t.memoryOk = true

/-- R41, R42: every step keeps PHASE a phase of the engine that SEQ selects in the running command's list, and SEQ within 0..4. -/
def Obligations.StepKeepsTheSequencerConsistent : Prop :=
  ∀ s t : State, s.sequencerOk = true → step s = .next t → t.sequencerOk = true

/-- R149: "its dispatch precondition is not checked, because the engines before it establish it": in every step of every command, also
of COMPRESS and DECOMPRESS, an engine that runs has the tree or the codes it needs. -/
def Obligations.StepKeepsEnginePreconditions : Prop :=
  ∀ s t : State, s.sequencerOk = true → s.preconditionsOk = true → step s = .next t → t.preconditionsOk = true

/-- R35, R51, R155, R162: every step keeps: no result is shown while a command runs, DONE and ERR exclude each other, ERRCODE is 0 or a
row of the cause table, ERR comes with a cause and DONE with none. -/
def Obligations.StepKeepsStatusConsistent : Prop :=
  ∀ s t : State, s.statusOk = true → step s = .next t → t.statusOk = true

/-- R106: while FREQ_ACCUM counts, the counts add up to TOTAL <= 2^32 - 2: no counter wraps. -/
def Obligations.StepKeepsCountsExact : Prop :=
  ∀ s t : State, s.memoryOk = true → s.countsOk = true → step s = .next t → t.countsOk = true

/-- R27, R117, R133, with R131 and R144 for what the parser and the walkers hold in between: every step keeps the node store a full
binary tree while TREE_VALID = 1, and the walks of HDR_WRITE and DECODE inside it. -/
def Obligations.StepKeepsTheTreeFullBinary : Prop :=
  ∀ s t : State, s.inv = true → step s = .next t → t.treeInv = true ∧ t.walkersOk = true

/-! ### Whole-machine rules -/

/-- R113: qmin is the least (weight, index) pair of the live set. -/
def Obligations.QminIsTheLeastPair : Prop :=
  ∀ (m : Memory Node) (i : Nat) (q : List Nat),
    qmin m i q ∈ i :: q ∧
      ∀ j ∈ i :: q, weightAt m (qmin m i q) < weightAt m j ∨ (weightAt m (qmin m i q) = weightAt m j ∧ qmin m i q ≤ j)

/-- R55, R56: in the core's turn IN does not change, POS stays within it, and OUT is only appended to. -/
def Obligations.CoreOnlyReadsInputAndAppendsOutput : Prop :=
  ∀ s t : State, (s.turns = [] ∨ ∃ rest, s.turns = .core :: rest) → step s = .next t →
    t.input = s.input ∧ s.output <+: t.output ∧ (s.pos ≤ s.input.length → t.pos ≤ t.input.length)

/-- R62, R18, R57 to R60: a core step issues at most the one transaction of its phase, of the kinds R62 lists for its engine, and the
ports and the two counters change as that transaction says and not otherwise. -/
def Obligations.CoreStepIssuesItsTransactionOnly : Prop :=
  ∀ s t : State, s.quiet = true → s.busy = true → step s = .next t →
    match s.transaction with
    | none => t.pos = s.pos ∧ t.inBits = s.inBits ∧ t.output = s.output ∧ t.outBits = s.outBits
    | some tr =>
      (∃ e, s.phase.engine = some e ∧ engineMayIssue e tr = true) ∧
        match tr with
        | .rd n =>
          t.output = s.output ∧ t.outBits = s.outBits ∧
            ((s.pos + n ≤ s.input.length ∧ t.pos = s.pos + n ∧ t.inBits = s.inBits + BitVec.ofNat 32 n) ∨
              (s.input.length < s.pos + n ∧ t.pos = s.pos ∧ t.inBits = s.inBits))
        | .rewind => t.output = s.output ∧ t.outBits = s.outBits ∧ t.pos = 0 ∧ t.inBits = 0#32
        | .wr bits =>
          t.pos = s.pos ∧ t.inBits = s.inBits ∧ t.output = s.output ++ bits ∧
            t.outBits = s.outBits + BitVec.ofNat 32 bits.length
        | .close =>
          t.pos = s.pos ∧ t.inBits = s.inBits ∧ t.outBits = s.outBits ∧
            ∃ pad : List Bool, pad.length = (8 - s.output.length % 8) % 8 ∧ t.output = s.output ++ pad

/-- R67, R175: the block leaves idle only by a host write to CMD. -/
def Obligations.OnlyACommandWriteMakesTheBlockBusy : Prop :=
  ∀ s t : State, s.busy = false → step s = .next t → t.busy = true →
    ∃ v rest, s.turns = .host (.write 0x04#8 .word v) :: rest

/-- R51: the flags are set and cleared only by the events of its table. -/
def Obligations.FlagsChangeOnlyByTheirEvents : Prop :=
  ∀ s t : State, step s = .next t →
    (s.busy = false → t.busy = true → s.nextTurnIs (Turn.isWrite 0x04#8 fun _ => true) = true) ∧
    (s.busy = true → t.busy = false → t.done = true ∨ t.err = true ∨ s.nextTurnIs Turn.isReset = true) ∧
    (t.treeSrc ≠ s.treeSrc → t.treeValid = true ∧ t.treeSrc = .built ∧ s.phase = .tbBuild ∨
      t.treeValid = true ∧ t.treeSrc = .parsed ∧ s.phase = .hrBit ∨ s.nextTurnIs Turn.isReset = true) ∧
    (s.done = false → t.done = true → s.busy = true ∧ t.busy = false) ∧
    (s.done = true → t.done = false → s.nextTurnIs (fun u =>
      u.isReset || u.isWrite 0x08#8 (fun v => v.getLsbD 1) || u.isWrite 0x04#8 (fun _ => true)) = true) ∧
    (s.err = false → t.err = true → t.busy = false ∧ t.errcode ≠ 0#32) ∧
    (s.err = true → t.err = false → s.nextTurnIs (fun u =>
      u.isReset || u.isWrite 0x08#8 (fun v => v.getLsbD 2) || u.isWrite 0x04#8 (fun _ => true)) = true) ∧
    (s.drop = false → t.drop = true → s.busy = true ∧ s.nextTurnIs (Turn.isWrite 0x04#8 fun _ => true) = true) ∧
    (s.drop = true → t.drop = false → s.nextTurnIs (fun u =>
      u.isReset || u.isWrite 0x08#8 (fun v => v.getLsbD 3)) = true) ∧
    (s.treeValid = false → t.treeValid = true →
      (s.phase = .tbBuild ∧ t.treeSrc = .built) ∨ (s.phase = .hrBit ∧ t.treeSrc = .parsed)) ∧
    (s.treeValid = true → t.treeValid = false →
      s.phase ∈ [.fcClear, .faInit, .tbBuild, .hrMagic] ∨
        s.nextTurnIs (fun u => u.isReset || u.isWrite 0x18#8 (fun _ => true)) = true) ∧
    (s.codesValid = false → t.codesValid = true → s.phase = .cgGen) ∧
    (s.codesValid = true → t.codesValid = false →
      s.phase ∈ [.fcClear, .faInit, .tbBuild, .hrMagic] ∨
        s.nextTurnIs (fun u => u.isReset || u.isWrite 0x18#8 (fun _ => true)) = true)

/-- R69: while a command runs no host access but a soft reset changes the tables, the streams, the sequencer or an engine's temporaries;
it can change only IE, the sticky flags, the index registers and what the host has read. -/
def Obligations.HostCannotDisturbARunningCommand : Prop :=
  ∀ (s t : State) (a : Access) (rest : List Turn), s.busy = true → s.turns = .host a :: rest →
    Turn.isReset (.host a) = false → step s = .next t →
      t = { s with
        turns := rest, ie := t.ie, done := t.done, err := t.err, drop := t.drop, freqIdx := t.freqIdx, nodeIdx := t.nodeIdx
        codeIdx := t.codeIdx, codeWsel := t.codeWsel, answers := t.answers, draws := t.draws }

/-- R156, R157: a core step that raises an error ends the command in that step: ERRCODE carries the phase of the step, DONE stays, the
output is as before the step, and no further core step changes anything. -/
def Obligations.AnErrorEndsTheCommand : Prop :=
  ∀ s t : State, s.quiet = true → s.busy = true → s.err = false → step s = .next t → t.err = true →
    t.phase = .idle ∧ t.done = s.done ∧ t.output = s.output ∧ t.outBits = s.outBits ∧ t.activeCmd = s.activeCmd ∧
      t.seq = s.seq ∧ (∃ (c : Cause) (atEof midcode : Bool), t.errcode = errcodeWord midcode atEof s.phase.code c.code) ∧
      ∀ k u, After k t u → u = t

/-- R182: with ports that answer, every command ends, with DONE or ERR. -/
def Obligations.EveryCommandEnds : Prop :=
  ∀ s : State, s.quiet = true → s.inv = true → s.busy = true →
    ∃ k t, After k s t ∧ t.busy = false ∧ (t.endedWell = true ∨ t.failed = true)
end

