-- ==== Sys2Proof/Laws/Bits.lean ====
section
/-! SUPPORT. Bit strings: a field and its bits determine each other, and lengths. -/

namespace Sys2Proof.Machine

theorem foldl_bits (l : List Bool) (a : Nat) :
    l.foldl (fun acc b => 2 * acc + b.toNat) a = a * 2 ^ l.length + natOfBits l := by
  induction l generalizing a with
  | nil => simp [natOfBits]
  | cons b l ih =>
    simp only [natOfBits, List.foldl_cons, List.length_cons]
    rw [ih, ih (2 * 0 + b.toNat)]
    ring

@[simp] theorem natOfBits_nil : natOfBits [] = 0 := rfl

theorem natOfBits_cons (b : Bool) (l : List Bool) : natOfBits (b :: l) = b.toNat * 2 ^ l.length + natOfBits l := by
  rw [natOfBits, List.foldl_cons, foldl_bits]; simp

theorem natOfBits_append (l m : List Bool) : natOfBits (l ++ m) = natOfBits l * 2 ^ m.length + natOfBits m := by
  rw [natOfBits, List.foldl_append, foldl_bits]; rfl

theorem natOfBits_lt (l : List Bool) : natOfBits l < 2 ^ l.length := by
  induction l with
  | nil => simp
  | cons b l ih =>
    rw [natOfBits_cons, List.length_cons, pow_succ]
    have hb : b.toNat ≤ 1 := Bool.toNat_le b
    nlinarith [Nat.mul_le_mul_right (2 ^ l.length) hb]

theorem natOfBits_inj : ∀ {l m : List Bool}, l.length = m.length → natOfBits l = natOfBits m → l = m
  | [], [], _, _ => rfl
  | a :: l, b :: m, hl, h => by
    have hl' : l.length = m.length := by simpa using hl
    rw [natOfBits_cons, natOfBits_cons, hl'] at h
    have h1 := natOfBits_lt l
    have h2 := natOfBits_lt m
    rw [hl'] at h1
    have hab : a = b := by
      cases a <;> cases b <;> simp at h ⊢ <;> omega
    subst hab
    have : natOfBits l = natOfBits m := by omega
    rw [natOfBits_inj hl' this]

@[simp] theorem length_bitsOf {n : Nat} (v : BitVec n) : (bitsOf v).length = n := by simp [bitsOf]

@[simp] theorem length_bitsOfBytes (bs : List Byte) : (bitsOfBytes bs).length = 8 * bs.length := by
  induction bs with
  | nil => rfl
  | cons b bs ih =>
    have : bitsOfBytes (b :: bs) = bitsOf b ++ bitsOfBytes bs := rfl
    rw [this, List.length_append, ih, length_bitsOf, List.length_cons]; ring

@[simp] theorem bitsOfBytes_nil : bitsOfBytes [] = [] := rfl

theorem bitsOfBytes_cons (b : Byte) (bs : List Byte) : bitsOfBytes (b :: bs) = bitsOf b ++ bitsOfBytes bs := rfl

theorem natOfBits_testBits (x n : Nat) : natOfBits ((List.range n).map fun i => x.testBit (n - 1 - i)) = x % 2 ^ n := by
  induction n with
  | zero => simp [Nat.mod_one]
  | succ n ih =>
    rw [List.range_succ_eq_map, List.map_cons, natOfBits_cons, List.map_map, Nat.mod_pow_succ]
    have hf : ((fun i => x.testBit (n + 1 - 1 - i)) ∘ Nat.succ) = fun i => x.testBit (n - 1 - i) := by
      funext i; simp only [Function.comp]; congr 1; omega
    rw [hf, ih, Nat.toNat_testBit]; simp; ring

@[simp] theorem natOfBits_bitsOf {n : Nat} (v : BitVec n) : natOfBits (bitsOf v) = v.toNat := by
  have := natOfBits_testBits v.toNat n
  rw [Nat.mod_eq_of_lt v.isLt] at this
  rw [← this]; rfl

/-- R57 after R59: a field is read back as it was written. -/
@[simp] theorem fieldOfBits_bitsOf {n : Nat} (v : BitVec n) : fieldOfBits n (bitsOf v) = v := by
  simp [fieldOfBits]

theorem toNat_fieldOfBits {n : Nat} {l : List Bool} (h : l.length = n) : (fieldOfBits n l).toNat = natOfBits l := by
  subst h
  simp [fieldOfBits, Nat.mod_eq_of_lt (natOfBits_lt l)]

/-- R59 after R57: the bits of a field read from the stream are the stream's bits. -/
theorem bitsOf_fieldOfBits {n : Nat} {l : List Bool} (h : l.length = n) : bitsOf (fieldOfBits n l) = l :=
  natOfBits_inj (by simp [h]) (by rw [natOfBits_bitsOf, toNat_fieldOfBits h])

theorem bitsOf_injective {n : Nat} {v w : BitVec n} (h : bitsOf v = bitsOf w) : v = w := by
  rw [← fieldOfBits_bitsOf v, h, fieldOfBits_bitsOf]

@[simp] theorem bitsOf_one (b : BitVec 1) : bitsOf b = [b.getLsbD 0] := rfl

/-- R29: bit k of a stored path is p_k, and 0 beyond it. -/
theorem getLsbD_bitsOfPath (p : List Bool) (k : Nat) :
    (bitsOfPath p).getLsbD k = (decide (k < 256) && p.getD k false) := by
  simp [bitsOfPath, BitVec.getLsbD_setWidth, BitVec.getLsbD_ofBoolListLE]

theorem testBit_natOfBits : ∀ (l : List Bool) (i : Nat), i < l.length → (natOfBits l).testBit (l.length - 1 - i) = l.getD i false := by
  intro l i hi
  have h : bitsOf (fieldOfBits l.length l) = l := bitsOf_fieldOfBits rfl
  have h2 : (bitsOf (fieldOfBits l.length l)).getD i false = l.getD i false := by rw [h]
  rw [← h2]
  simp [bitsOf, BitVec.getLsbD, toNat_fieldOfBits rfl, hi]

/-- R47: bit (31 - j) of a shown code word is code bit 32*w + j. -/
theorem getLsbD_leftAligned (bits : BitVec 256) (w j : Nat) (hj : j < 32) :
    (leftAligned bits w).getLsbD (31 - j) = bits.getLsbD (32 * w + j) := by
  have hl : ((List.range 32).map fun j => bits.getLsbD (32 * w + j)).length = 32 := by simp
  have h := testBit_natOfBits ((List.range 32).map fun j => bits.getLsbD (32 * w + j)) j (by simpa using hj)
  rw [hl] at h
  rw [leftAligned, ← BitVec.testBit_toNat, toNat_fieldOfBits hl, h]
  simp [hj]

end Sys2Proof.Machine
end

