-- ==== Sys2Proof/Laws/Memory.lean ====
section
/-! SUPPORT. The internal memories: reading after writing, the canonical form, and that equal reads mean equal memories. -/

namespace Sys2Proof.Machine

variable {α : Type}

@[simp] theorem Memory.read_nil (d : α) (i : Nat) : Memory.read d [] i = d := rfl

variable [DecidableEq α]

theorem Memory.wfFrom_mono {d : α} {b lo lo' : Nat} {m : Memory α} (h : Memory.wfFrom d b lo' m = true) (hle : lo ≤ lo') :
    Memory.wfFrom d b lo m = true := by
  cases m with
  | nil => rfl
  | cons e rest =>
    obtain ⟨k, v⟩ := e
    simp only [Memory.wfFrom, Bool.and_eq_true, decide_eq_true_eq] at h ⊢
    exact ⟨⟨⟨hle.trans h.1.1.1, h.1.1.2⟩, h.1.2⟩, h.2⟩

/-- Below its first index a canonical memory lists nothing. -/
theorem Memory.read_below {d : α} {b : Nat} : ∀ {m : Memory α} {lo i : Nat}, Memory.wfFrom d b lo m = true → i < lo →
    Memory.read d m i = d
  | [], _, _, _, _ => rfl
  | (k, v) :: rest, lo, i, h, hi => by
    simp only [Memory.wfFrom, Bool.and_eq_true, decide_eq_true_eq] at h
    have hk : k ≠ i := by omega
    rw [Memory.read, if_neg hk]
    exact Memory.read_below h.2 (by omega)

/-- At and above the bound a canonical memory lists nothing. -/
theorem Memory.read_above {d : α} {b : Nat} : ∀ {m : Memory α} {lo i : Nat}, Memory.wfFrom d b lo m = true → b ≤ i →
    Memory.read d m i = d
  | [], _, _, _, _ => rfl
  | (k, v) :: rest, lo, i, h, hi => by
    simp only [Memory.wfFrom, Bool.and_eq_true, decide_eq_true_eq] at h
    have hk : k ≠ i := by omega
    rw [Memory.read, if_neg hk]
    exact Memory.read_above h.2 hi

/-- An entry reads as written, every other entry as before. -/
theorem Memory.read_write {d : α} {b : Nat} : ∀ {m : Memory α} {lo : Nat}, Memory.wfFrom d b lo m = true →
    ∀ (i : Nat) (v : α) (j : Nat), Memory.read d (Memory.write d m i v) j = if j = i then v else Memory.read d m j
  | [], _, _, i, v, j => by
    by_cases hv : v = d <;> by_cases hj : j = i
    · simp [Memory.write, hv]
    · simp [Memory.write, hv]
    · simp [Memory.write, Memory.read, hv, hj]
    · simp [Memory.write, Memory.read, hv, hj, Ne.symm hj]
  | (k, x) :: rest, lo, h, i, v, j => by
    simp only [Memory.wfFrom, Bool.and_eq_true, decide_eq_true_eq] at h
    have ih := Memory.read_write h.2 i v j
    have below : ∀ n, n ≤ k → Memory.read d rest n = d := fun n hn => Memory.read_below h.2 (by omega)
    unfold Memory.write
    by_cases hki : k = i
    · subst hki
      by_cases hv : v = d <;> by_cases hj : j = k
      · subst hj; simp [hv, below]
      · simp [Memory.read, hv, hj, Ne.symm hj]
      · subst hj; simp [Memory.read, hv]
      · simp [Memory.read, hv, hj, Ne.symm hj]
    · by_cases hik : i < k
      · by_cases hv : v = d
        · by_cases hj : j = i
          · subst hj; simp [Memory.read, hv, hki, hik, below j (by omega)]
          · simp [Memory.read, hv, hki, hik, hj]
        · by_cases hj : j = i
          · subst hj; simp [Memory.read, hv, hki, hik]
          · simp [Memory.read, hv, hki, hik, hj, Ne.symm hj]
      · rw [if_neg hki, if_neg hik, Memory.read, ih, Memory.read]
        by_cases hkj : k = j
        · subst hkj; simp [hki]
        · simp [hkj]

/-- Every write keeps the canonical form. -/
theorem Memory.wfFrom_write {d : α} {b : Nat} : ∀ {m : Memory α} {lo : Nat}, Memory.wfFrom d b lo m = true →
    ∀ (i : Nat) (v : α), lo ≤ i → i < b → Memory.wfFrom d b lo (Memory.write d m i v) = true
  | [], lo, _, i, v, hlo, hb => by
    by_cases hv : v = d <;> simp [Memory.write, Memory.wfFrom, hv, hlo, hb]
  | (k, x) :: rest, lo, h, i, v, hlo, hb => by
    have h0 := h
    simp only [Memory.wfFrom, Bool.and_eq_true, decide_eq_true_eq] at h
    unfold Memory.write
    by_cases hki : k = i
    · subst hki
      by_cases hv : v = d
      · simp only [hv, if_true]; exact Memory.wfFrom_mono h.2 (by omega)
      · simp [Memory.wfFrom, hv, h.2, hlo, hb]
    · by_cases hik : i < k
      · by_cases hv : v = d
        · simp only [hki, hik, hv, if_true, if_false]; exact h0
        · have : i + 1 ≤ k := hik
          simp [Memory.wfFrom, hki, hik, hv, hlo, hb, h.1.1.2, h.1.2, h.2, this]
      · have ih := Memory.wfFrom_write h.2 i v (by omega) hb
        simp [Memory.wfFrom, hki, hik, h.1.1.1, h.1.1.2, h.1.2, ih]

theorem Memory.read_write_wf {d : α} {b : Nat} {m : Memory α} (h : Memory.wf d b m = true) (i : Nat) (v : α) (j : Nat) :
    Memory.read d (Memory.write d m i v) j = if j = i then v else Memory.read d m j :=
  Memory.read_write h i v j

theorem Memory.wf_write {d : α} {b : Nat} {m : Memory α} (h : Memory.wf d b m = true) {i : Nat} (v : α) (hi : i < b) :
    Memory.wf d b (Memory.write d m i v) = true :=
  Memory.wfFrom_write h i v (Nat.zero_le i) hi

/-- Two canonical memories that read the same everywhere are equal. -/
theorem Memory.ext_of_read {d : α} {b : Nat} : ∀ {m m' : Memory α} {lo lo' : Nat}, Memory.wfFrom d b lo m = true →
    Memory.wfFrom d b lo' m' = true → (∀ i, Memory.read d m i = Memory.read d m' i) → m = m'
  | [], [], _, _, _, _, _ => rfl
  | [], (k, v) :: rest, _, _, _, h', hr => by
    simp only [Memory.wfFrom, Bool.and_eq_true, decide_eq_true_eq] at h'
    have := hr k
    simp only [Memory.read, if_true] at this
    exact absurd this.symm h'.1.2
  | (k, v) :: rest, [], _, _, h, _, hr => by
    simp only [Memory.wfFrom, Bool.and_eq_true, decide_eq_true_eq] at h
    have := hr k
    simp only [Memory.read, if_true] at this
    exact absurd this h.1.2
  | (k, v) :: rest, (k', v') :: rest', lo, lo', h, h', hr => by
    simp only [Memory.wfFrom, Bool.and_eq_true, decide_eq_true_eq] at h h'
    have hkk : k = k' := by
      rcases Nat.lt_trichotomy k k' with hlt | heq | hgt
      · have e := hr k
        rw [Memory.read, if_pos rfl, Memory.read, if_neg (by omega), Memory.read_below h'.2 (by omega)] at e
        exact absurd e h.1.2
      · exact heq
      · have e := hr k'
        rw [Memory.read, if_neg (by omega), Memory.read_below h.2 (by omega), Memory.read, if_pos rfl] at e
        exact absurd e.symm h'.1.2
    subst hkk
    have hv : v = v' := by simpa [Memory.read] using hr k
    subst hv
    have hrest : rest = rest' := Memory.ext_of_read h.2 h'.2 fun i => by
      by_cases hi : k = i
      · subst hi
        rw [Memory.read_below h.2 (Nat.lt_succ_self k), Memory.read_below h'.2 (Nat.lt_succ_self k)]
      · have e := hr i
        simpa [Memory.read, hi] using e
    rw [hrest]

end Sys2Proof.Machine
end

