-- ==== Sys2Proof/Laws/State.lean ====
section
/-! SUPPORT. For each shared update of the state and each field, what the field holds afterwards. -/

namespace Sys2Proof.Machine

/-! ### goto -/

@[simp] theorem State.goto_ie (s : State) (p : Phase) : (s.goto p).ie = s.ie := rfl
@[simp] theorem State.goto_activeCmd (s : State) (p : Phase) : (s.goto p).activeCmd = s.activeCmd := rfl
@[simp] theorem State.goto_done (s : State) (p : Phase) : (s.goto p).done = s.done := rfl
@[simp] theorem State.goto_err (s : State) (p : Phase) : (s.goto p).err = s.err := rfl
@[simp] theorem State.goto_drop (s : State) (p : Phase) : (s.goto p).drop = s.drop := rfl
@[simp] theorem State.goto_treeValid (s : State) (p : Phase) : (s.goto p).treeValid = s.treeValid := rfl
@[simp] theorem State.goto_codesValid (s : State) (p : Phase) : (s.goto p).codesValid = s.codesValid := rfl
@[simp] theorem State.goto_treeSrc (s : State) (p : Phase) : (s.goto p).treeSrc = s.treeSrc := rfl
@[simp] theorem State.goto_errcode (s : State) (p : Phase) : (s.goto p).errcode = s.errcode := rfl
@[simp] theorem State.goto_errinfo (s : State) (p : Phase) : (s.goto p).errinfo = s.errinfo := rfl
@[simp] theorem State.goto_freqIdx (s : State) (p : Phase) : (s.goto p).freqIdx = s.freqIdx := rfl
@[simp] theorem State.goto_nodeIdx (s : State) (p : Phase) : (s.goto p).nodeIdx = s.nodeIdx := rfl
@[simp] theorem State.goto_codeIdx (s : State) (p : Phase) : (s.goto p).codeIdx = s.codeIdx := rfl
@[simp] theorem State.goto_codeWsel (s : State) (p : Phase) : (s.goto p).codeWsel = s.codeWsel := rfl
@[simp] theorem State.goto_inBits (s : State) (p : Phase) : (s.goto p).inBits = s.inBits := rfl
@[simp] theorem State.goto_outBits (s : State) (p : Phase) : (s.goto p).outBits = s.outBits := rfl
@[simp] theorem State.goto_freq (s : State) (p : Phase) : (s.goto p).freq = s.freq := rfl
@[simp] theorem State.goto_total (s : State) (p : Phase) : (s.goto p).total = s.total := rfl
@[simp] theorem State.goto_node (s : State) (p : Phase) : (s.goto p).node = s.node := rfl
@[simp] theorem State.goto_root (s : State) (p : Phase) : (s.goto p).root = s.root := rfl
@[simp] theorem State.goto_ncount (s : State) (p : Phase) : (s.goto p).ncount = s.ncount := rfl
@[simp] theorem State.goto_code (s : State) (p : Phase) : (s.goto p).code = s.code := rfl
@[simp] theorem State.goto_phase (s : State) (p : Phase) : (s.goto p).phase = p := rfl
@[simp] theorem State.goto_seq (s : State) (p : Phase) : (s.goto p).seq = s.seq := rfl
@[simp] theorem State.goto_ts (s : State) (p : Phase) : (s.goto p).ts = s.ts := rfl
@[simp] theorem State.goto_hwN (s : State) (p : Phase) : (s.goto p).hwN = s.hwN := rfl
@[simp] theorem State.goto_esym (s : State) (p : Phase) : (s.goto p).esym = s.esym := rfl
@[simp] theorem State.goto_ej (s : State) (p : Phase) : (s.goto p).ej = s.ej := rfl
@[simp] theorem State.goto_eomf (s : State) (p : Phase) : (s.goto p).eomf = s.eomf := rfl
@[simp] theorem State.goto_pend (s : State) (p : Phase) : (s.goto p).pend = s.pend := rfl
@[simp] theorem State.goto_hleaf (s : State) (p : Phase) : (s.goto p).hleaf = s.hleaf := rfl
@[simp] theorem State.goto_cur (s : State) (p : Phase) : (s.goto p).cur = s.cur := rfl
@[simp] theorem State.goto_input (s : State) (p : Phase) : (s.goto p).input = s.input := rfl
@[simp] theorem State.goto_pos (s : State) (p : Phase) : (s.goto p).pos = s.pos := rfl
@[simp] theorem State.goto_output (s : State) (p : Phase) : (s.goto p).output = s.output := rfl
@[simp] theorem State.goto_inputAnswers (s : State) (p : Phase) : (s.goto p).inputAnswers = s.inputAnswers := rfl
@[simp] theorem State.goto_outputAnswers (s : State) (p : Phase) : (s.goto p).outputAnswers = s.outputAnswers := rfl
@[simp] theorem State.goto_resetLine (s : State) (p : Phase) : (s.goto p).resetLine = s.resetLine := rfl
@[simp] theorem State.goto_turns (s : State) (p : Phase) : (s.goto p).turns = s.turns := rfl
@[simp] theorem State.goto_answers (s : State) (p : Phase) : (s.goto p).answers = s.answers := rfl
@[simp] theorem State.goto_draws (s : State) (p : Phase) : (s.goto p).draws = s.draws := rfl

/-! ### invalidate -/

@[simp] theorem State.invalidate_ie (s : State) : (s.invalidate).ie = s.ie := rfl
@[simp] theorem State.invalidate_activeCmd (s : State) : (s.invalidate).activeCmd = s.activeCmd := rfl
@[simp] theorem State.invalidate_done (s : State) : (s.invalidate).done = s.done := rfl
@[simp] theorem State.invalidate_err (s : State) : (s.invalidate).err = s.err := rfl
@[simp] theorem State.invalidate_drop (s : State) : (s.invalidate).drop = s.drop := rfl
@[simp] theorem State.invalidate_treeValid (s : State) : (s.invalidate).treeValid = false := rfl
@[simp] theorem State.invalidate_codesValid (s : State) : (s.invalidate).codesValid = false := rfl
@[simp] theorem State.invalidate_treeSrc (s : State) : (s.invalidate).treeSrc = s.treeSrc := rfl
@[simp] theorem State.invalidate_errcode (s : State) : (s.invalidate).errcode = s.errcode := rfl
@[simp] theorem State.invalidate_errinfo (s : State) : (s.invalidate).errinfo = s.errinfo := rfl
@[simp] theorem State.invalidate_freqIdx (s : State) : (s.invalidate).freqIdx = s.freqIdx := rfl
@[simp] theorem State.invalidate_nodeIdx (s : State) : (s.invalidate).nodeIdx = s.nodeIdx := rfl
@[simp] theorem State.invalidate_codeIdx (s : State) : (s.invalidate).codeIdx = s.codeIdx := rfl
@[simp] theorem State.invalidate_codeWsel (s : State) : (s.invalidate).codeWsel = s.codeWsel := rfl
@[simp] theorem State.invalidate_inBits (s : State) : (s.invalidate).inBits = s.inBits := rfl
@[simp] theorem State.invalidate_outBits (s : State) : (s.invalidate).outBits = s.outBits := rfl
@[simp] theorem State.invalidate_freq (s : State) : (s.invalidate).freq = s.freq := rfl
@[simp] theorem State.invalidate_total (s : State) : (s.invalidate).total = s.total := rfl
@[simp] theorem State.invalidate_node (s : State) : (s.invalidate).node = s.node := rfl
@[simp] theorem State.invalidate_root (s : State) : (s.invalidate).root = s.root := rfl
@[simp] theorem State.invalidate_ncount (s : State) : (s.invalidate).ncount = s.ncount := rfl
@[simp] theorem State.invalidate_code (s : State) : (s.invalidate).code = s.code := rfl
@[simp] theorem State.invalidate_phase (s : State) : (s.invalidate).phase = s.phase := rfl
@[simp] theorem State.invalidate_seq (s : State) : (s.invalidate).seq = s.seq := rfl
@[simp] theorem State.invalidate_ts (s : State) : (s.invalidate).ts = s.ts := rfl
@[simp] theorem State.invalidate_hwN (s : State) : (s.invalidate).hwN = s.hwN := rfl
@[simp] theorem State.invalidate_esym (s : State) : (s.invalidate).esym = s.esym := rfl
@[simp] theorem State.invalidate_ej (s : State) : (s.invalidate).ej = s.ej := rfl
@[simp] theorem State.invalidate_eomf (s : State) : (s.invalidate).eomf = s.eomf := rfl
@[simp] theorem State.invalidate_pend (s : State) : (s.invalidate).pend = s.pend := rfl
@[simp] theorem State.invalidate_hleaf (s : State) : (s.invalidate).hleaf = s.hleaf := rfl
@[simp] theorem State.invalidate_cur (s : State) : (s.invalidate).cur = s.cur := rfl
@[simp] theorem State.invalidate_input (s : State) : (s.invalidate).input = s.input := rfl
@[simp] theorem State.invalidate_pos (s : State) : (s.invalidate).pos = s.pos := rfl
@[simp] theorem State.invalidate_output (s : State) : (s.invalidate).output = s.output := rfl
@[simp] theorem State.invalidate_inputAnswers (s : State) : (s.invalidate).inputAnswers = s.inputAnswers := rfl
@[simp] theorem State.invalidate_outputAnswers (s : State) : (s.invalidate).outputAnswers = s.outputAnswers := rfl
@[simp] theorem State.invalidate_resetLine (s : State) : (s.invalidate).resetLine = s.resetLine := rfl
@[simp] theorem State.invalidate_turns (s : State) : (s.invalidate).turns = s.turns := rfl
@[simp] theorem State.invalidate_answers (s : State) : (s.invalidate).answers = s.answers := rfl
@[simp] theorem State.invalidate_draws (s : State) : (s.invalidate).draws = s.draws := rfl

/-! ### clearTable -/

@[simp] theorem State.clearTable_ie (s : State) : (s.clearTable).ie = s.ie := rfl
@[simp] theorem State.clearTable_activeCmd (s : State) : (s.clearTable).activeCmd = s.activeCmd := rfl
@[simp] theorem State.clearTable_done (s : State) : (s.clearTable).done = s.done := rfl
@[simp] theorem State.clearTable_err (s : State) : (s.clearTable).err = s.err := rfl
@[simp] theorem State.clearTable_drop (s : State) : (s.clearTable).drop = s.drop := rfl
@[simp] theorem State.clearTable_treeValid (s : State) : (s.clearTable).treeValid = false := rfl
@[simp] theorem State.clearTable_codesValid (s : State) : (s.clearTable).codesValid = false := rfl
@[simp] theorem State.clearTable_treeSrc (s : State) : (s.clearTable).treeSrc = s.treeSrc := rfl
@[simp] theorem State.clearTable_errcode (s : State) : (s.clearTable).errcode = s.errcode := rfl
@[simp] theorem State.clearTable_errinfo (s : State) : (s.clearTable).errinfo = s.errinfo := rfl
@[simp] theorem State.clearTable_freqIdx (s : State) : (s.clearTable).freqIdx = s.freqIdx := rfl
@[simp] theorem State.clearTable_nodeIdx (s : State) : (s.clearTable).nodeIdx = s.nodeIdx := rfl
@[simp] theorem State.clearTable_codeIdx (s : State) : (s.clearTable).codeIdx = s.codeIdx := rfl
@[simp] theorem State.clearTable_codeWsel (s : State) : (s.clearTable).codeWsel = s.codeWsel := rfl
@[simp] theorem State.clearTable_inBits (s : State) : (s.clearTable).inBits = s.inBits := rfl
@[simp] theorem State.clearTable_outBits (s : State) : (s.clearTable).outBits = s.outBits := rfl
@[simp] theorem State.clearTable_freq (s : State) : (s.clearTable).freq = [] := rfl
@[simp] theorem State.clearTable_total (s : State) : (s.clearTable).total = 0#32 := rfl
@[simp] theorem State.clearTable_node (s : State) : (s.clearTable).node = s.node := rfl
@[simp] theorem State.clearTable_root (s : State) : (s.clearTable).root = s.root := rfl
@[simp] theorem State.clearTable_ncount (s : State) : (s.clearTable).ncount = s.ncount := rfl
@[simp] theorem State.clearTable_code (s : State) : (s.clearTable).code = s.code := rfl
@[simp] theorem State.clearTable_phase (s : State) : (s.clearTable).phase = s.phase := rfl
@[simp] theorem State.clearTable_seq (s : State) : (s.clearTable).seq = s.seq := rfl
@[simp] theorem State.clearTable_ts (s : State) : (s.clearTable).ts = s.ts := rfl
@[simp] theorem State.clearTable_hwN (s : State) : (s.clearTable).hwN = s.hwN := rfl
@[simp] theorem State.clearTable_esym (s : State) : (s.clearTable).esym = s.esym := rfl
@[simp] theorem State.clearTable_ej (s : State) : (s.clearTable).ej = s.ej := rfl
@[simp] theorem State.clearTable_eomf (s : State) : (s.clearTable).eomf = s.eomf := rfl
@[simp] theorem State.clearTable_pend (s : State) : (s.clearTable).pend = s.pend := rfl
@[simp] theorem State.clearTable_hleaf (s : State) : (s.clearTable).hleaf = s.hleaf := rfl
@[simp] theorem State.clearTable_cur (s : State) : (s.clearTable).cur = s.cur := rfl
@[simp] theorem State.clearTable_input (s : State) : (s.clearTable).input = s.input := rfl
@[simp] theorem State.clearTable_pos (s : State) : (s.clearTable).pos = s.pos := rfl
@[simp] theorem State.clearTable_output (s : State) : (s.clearTable).output = s.output := rfl
@[simp] theorem State.clearTable_inputAnswers (s : State) : (s.clearTable).inputAnswers = s.inputAnswers := rfl
@[simp] theorem State.clearTable_outputAnswers (s : State) : (s.clearTable).outputAnswers = s.outputAnswers := rfl
@[simp] theorem State.clearTable_resetLine (s : State) : (s.clearTable).resetLine = s.resetLine := rfl
@[simp] theorem State.clearTable_turns (s : State) : (s.clearTable).turns = s.turns := rfl
@[simp] theorem State.clearTable_answers (s : State) : (s.clearTable).answers = s.answers := rfl
@[simp] theorem State.clearTable_draws (s : State) : (s.clearTable).draws = s.draws := rfl

/-! ### acknowledge -/

@[simp] theorem State.acknowledge_ie (s : State) (v : Word) : (s.acknowledge v).ie = s.ie := rfl
@[simp] theorem State.acknowledge_activeCmd (s : State) (v : Word) : (s.acknowledge v).activeCmd = s.activeCmd := rfl
@[simp] theorem State.acknowledge_done (s : State) (v : Word) : (s.acknowledge v).done = (s.done && !v.getLsbD 1) :=
  rfl
@[simp] theorem State.acknowledge_err (s : State) (v : Word) : (s.acknowledge v).err = (s.err && !v.getLsbD 2) := rfl
@[simp] theorem State.acknowledge_drop (s : State) (v : Word) : (s.acknowledge v).drop = (s.drop && !v.getLsbD 3) :=
  rfl
@[simp] theorem State.acknowledge_treeValid (s : State) (v : Word) : (s.acknowledge v).treeValid = s.treeValid := rfl
@[simp] theorem State.acknowledge_codesValid (s : State) (v : Word) : (s.acknowledge v).codesValid = s.codesValid :=
  rfl
@[simp] theorem State.acknowledge_treeSrc (s : State) (v : Word) : (s.acknowledge v).treeSrc = s.treeSrc := rfl
@[simp] theorem State.acknowledge_errcode (s : State) (v : Word) : (s.acknowledge v).errcode = s.errcode := rfl
@[simp] theorem State.acknowledge_errinfo (s : State) (v : Word) : (s.acknowledge v).errinfo = s.errinfo := rfl
@[simp] theorem State.acknowledge_freqIdx (s : State) (v : Word) : (s.acknowledge v).freqIdx = s.freqIdx := rfl
@[simp] theorem State.acknowledge_nodeIdx (s : State) (v : Word) : (s.acknowledge v).nodeIdx = s.nodeIdx := rfl
@[simp] theorem State.acknowledge_codeIdx (s : State) (v : Word) : (s.acknowledge v).codeIdx = s.codeIdx := rfl
@[simp] theorem State.acknowledge_codeWsel (s : State) (v : Word) : (s.acknowledge v).codeWsel = s.codeWsel := rfl
@[simp] theorem State.acknowledge_inBits (s : State) (v : Word) : (s.acknowledge v).inBits = s.inBits := rfl
@[simp] theorem State.acknowledge_outBits (s : State) (v : Word) : (s.acknowledge v).outBits = s.outBits := rfl
@[simp] theorem State.acknowledge_freq (s : State) (v : Word) : (s.acknowledge v).freq = s.freq := rfl
@[simp] theorem State.acknowledge_total (s : State) (v : Word) : (s.acknowledge v).total = s.total := rfl
@[simp] theorem State.acknowledge_node (s : State) (v : Word) : (s.acknowledge v).node = s.node := rfl
@[simp] theorem State.acknowledge_root (s : State) (v : Word) : (s.acknowledge v).root = s.root := rfl
@[simp] theorem State.acknowledge_ncount (s : State) (v : Word) : (s.acknowledge v).ncount = s.ncount := rfl
@[simp] theorem State.acknowledge_code (s : State) (v : Word) : (s.acknowledge v).code = s.code := rfl
@[simp] theorem State.acknowledge_phase (s : State) (v : Word) : (s.acknowledge v).phase = s.phase := rfl
@[simp] theorem State.acknowledge_seq (s : State) (v : Word) : (s.acknowledge v).seq = s.seq := rfl
@[simp] theorem State.acknowledge_ts (s : State) (v : Word) : (s.acknowledge v).ts = s.ts := rfl
@[simp] theorem State.acknowledge_hwN (s : State) (v : Word) : (s.acknowledge v).hwN = s.hwN := rfl
@[simp] theorem State.acknowledge_esym (s : State) (v : Word) : (s.acknowledge v).esym = s.esym := rfl
@[simp] theorem State.acknowledge_ej (s : State) (v : Word) : (s.acknowledge v).ej = s.ej := rfl
@[simp] theorem State.acknowledge_eomf (s : State) (v : Word) : (s.acknowledge v).eomf = s.eomf := rfl
@[simp] theorem State.acknowledge_pend (s : State) (v : Word) : (s.acknowledge v).pend = s.pend := rfl
@[simp] theorem State.acknowledge_hleaf (s : State) (v : Word) : (s.acknowledge v).hleaf = s.hleaf := rfl
@[simp] theorem State.acknowledge_cur (s : State) (v : Word) : (s.acknowledge v).cur = s.cur := rfl
@[simp] theorem State.acknowledge_input (s : State) (v : Word) : (s.acknowledge v).input = s.input := rfl
@[simp] theorem State.acknowledge_pos (s : State) (v : Word) : (s.acknowledge v).pos = s.pos := rfl
@[simp] theorem State.acknowledge_output (s : State) (v : Word) : (s.acknowledge v).output = s.output := rfl
@[simp] theorem State.acknowledge_inputAnswers (s : State) (v : Word) : (s.acknowledge v).inputAnswers = s.inputAnswers :=
  rfl
@[simp] theorem State.acknowledge_outputAnswers (s : State) (v : Word) : (s.acknowledge v).outputAnswers = s.outputAnswers :=
  rfl
@[simp] theorem State.acknowledge_resetLine (s : State) (v : Word) : (s.acknowledge v).resetLine = s.resetLine := rfl
@[simp] theorem State.acknowledge_turns (s : State) (v : Word) : (s.acknowledge v).turns = s.turns := rfl
@[simp] theorem State.acknowledge_answers (s : State) (v : Word) : (s.acknowledge v).answers = s.answers := rfl
@[simp] theorem State.acknowledge_draws (s : State) (v : Word) : (s.acknowledge v).draws = s.draws := rfl

/-! ### advance -/

@[simp] theorem State.advance_ie (s : State) (n : Nat) : (s.advance n).ie = s.ie := rfl
@[simp] theorem State.advance_activeCmd (s : State) (n : Nat) : (s.advance n).activeCmd = s.activeCmd := rfl
@[simp] theorem State.advance_done (s : State) (n : Nat) : (s.advance n).done = s.done := rfl
@[simp] theorem State.advance_err (s : State) (n : Nat) : (s.advance n).err = s.err := rfl
@[simp] theorem State.advance_drop (s : State) (n : Nat) : (s.advance n).drop = s.drop := rfl
@[simp] theorem State.advance_treeValid (s : State) (n : Nat) : (s.advance n).treeValid = s.treeValid := rfl
@[simp] theorem State.advance_codesValid (s : State) (n : Nat) : (s.advance n).codesValid = s.codesValid := rfl
@[simp] theorem State.advance_treeSrc (s : State) (n : Nat) : (s.advance n).treeSrc = s.treeSrc := rfl
@[simp] theorem State.advance_errcode (s : State) (n : Nat) : (s.advance n).errcode = s.errcode := rfl
@[simp] theorem State.advance_errinfo (s : State) (n : Nat) : (s.advance n).errinfo = s.errinfo := rfl
@[simp] theorem State.advance_freqIdx (s : State) (n : Nat) : (s.advance n).freqIdx = s.freqIdx := rfl
@[simp] theorem State.advance_nodeIdx (s : State) (n : Nat) : (s.advance n).nodeIdx = s.nodeIdx := rfl
@[simp] theorem State.advance_codeIdx (s : State) (n : Nat) : (s.advance n).codeIdx = s.codeIdx := rfl
@[simp] theorem State.advance_codeWsel (s : State) (n : Nat) : (s.advance n).codeWsel = s.codeWsel := rfl
@[simp] theorem State.advance_inBits (s : State) (n : Nat) : (s.advance n).inBits = s.inBits + BitVec.ofNat 32 n := rfl
@[simp] theorem State.advance_outBits (s : State) (n : Nat) : (s.advance n).outBits = s.outBits := rfl
@[simp] theorem State.advance_freq (s : State) (n : Nat) : (s.advance n).freq = s.freq := rfl
@[simp] theorem State.advance_total (s : State) (n : Nat) : (s.advance n).total = s.total := rfl
@[simp] theorem State.advance_node (s : State) (n : Nat) : (s.advance n).node = s.node := rfl
@[simp] theorem State.advance_root (s : State) (n : Nat) : (s.advance n).root = s.root := rfl
@[simp] theorem State.advance_ncount (s : State) (n : Nat) : (s.advance n).ncount = s.ncount := rfl
@[simp] theorem State.advance_code (s : State) (n : Nat) : (s.advance n).code = s.code := rfl
@[simp] theorem State.advance_phase (s : State) (n : Nat) : (s.advance n).phase = s.phase := rfl
@[simp] theorem State.advance_seq (s : State) (n : Nat) : (s.advance n).seq = s.seq := rfl
@[simp] theorem State.advance_ts (s : State) (n : Nat) : (s.advance n).ts = s.ts := rfl
@[simp] theorem State.advance_hwN (s : State) (n : Nat) : (s.advance n).hwN = s.hwN := rfl
@[simp] theorem State.advance_esym (s : State) (n : Nat) : (s.advance n).esym = s.esym := rfl
@[simp] theorem State.advance_ej (s : State) (n : Nat) : (s.advance n).ej = s.ej := rfl
@[simp] theorem State.advance_eomf (s : State) (n : Nat) : (s.advance n).eomf = s.eomf := rfl
@[simp] theorem State.advance_pend (s : State) (n : Nat) : (s.advance n).pend = s.pend := rfl
@[simp] theorem State.advance_hleaf (s : State) (n : Nat) : (s.advance n).hleaf = s.hleaf := rfl
@[simp] theorem State.advance_cur (s : State) (n : Nat) : (s.advance n).cur = s.cur := rfl
@[simp] theorem State.advance_input (s : State) (n : Nat) : (s.advance n).input = s.input := rfl
@[simp] theorem State.advance_pos (s : State) (n : Nat) : (s.advance n).pos = s.pos + n := rfl
@[simp] theorem State.advance_output (s : State) (n : Nat) : (s.advance n).output = s.output := rfl
@[simp] theorem State.advance_inputAnswers (s : State) (n : Nat) : (s.advance n).inputAnswers = s.inputAnswers := rfl
@[simp] theorem State.advance_outputAnswers (s : State) (n : Nat) : (s.advance n).outputAnswers = s.outputAnswers :=
  rfl
@[simp] theorem State.advance_resetLine (s : State) (n : Nat) : (s.advance n).resetLine = s.resetLine := rfl
@[simp] theorem State.advance_turns (s : State) (n : Nat) : (s.advance n).turns = s.turns := rfl
@[simp] theorem State.advance_answers (s : State) (n : Nat) : (s.advance n).answers = s.answers := rfl
@[simp] theorem State.advance_draws (s : State) (n : Nat) : (s.advance n).draws = s.draws := rfl

/-! ### wr -/

@[simp] theorem State.wr_ie (s : State) {n : Nat} (v : BitVec n) : (s.wr v).ie = s.ie := rfl
@[simp] theorem State.wr_activeCmd (s : State) {n : Nat} (v : BitVec n) : (s.wr v).activeCmd = s.activeCmd := rfl
@[simp] theorem State.wr_done (s : State) {n : Nat} (v : BitVec n) : (s.wr v).done = s.done := rfl
@[simp] theorem State.wr_err (s : State) {n : Nat} (v : BitVec n) : (s.wr v).err = s.err := rfl
@[simp] theorem State.wr_drop (s : State) {n : Nat} (v : BitVec n) : (s.wr v).drop = s.drop := rfl
@[simp] theorem State.wr_treeValid (s : State) {n : Nat} (v : BitVec n) : (s.wr v).treeValid = s.treeValid := rfl
@[simp] theorem State.wr_codesValid (s : State) {n : Nat} (v : BitVec n) : (s.wr v).codesValid = s.codesValid := rfl
@[simp] theorem State.wr_treeSrc (s : State) {n : Nat} (v : BitVec n) : (s.wr v).treeSrc = s.treeSrc := rfl
@[simp] theorem State.wr_errcode (s : State) {n : Nat} (v : BitVec n) : (s.wr v).errcode = s.errcode := rfl
@[simp] theorem State.wr_errinfo (s : State) {n : Nat} (v : BitVec n) : (s.wr v).errinfo = s.errinfo := rfl
@[simp] theorem State.wr_freqIdx (s : State) {n : Nat} (v : BitVec n) : (s.wr v).freqIdx = s.freqIdx := rfl
@[simp] theorem State.wr_nodeIdx (s : State) {n : Nat} (v : BitVec n) : (s.wr v).nodeIdx = s.nodeIdx := rfl
@[simp] theorem State.wr_codeIdx (s : State) {n : Nat} (v : BitVec n) : (s.wr v).codeIdx = s.codeIdx := rfl
@[simp] theorem State.wr_codeWsel (s : State) {n : Nat} (v : BitVec n) : (s.wr v).codeWsel = s.codeWsel := rfl
@[simp] theorem State.wr_inBits (s : State) {n : Nat} (v : BitVec n) : (s.wr v).inBits = s.inBits := rfl
@[simp] theorem State.wr_outBits (s : State) {n : Nat} (v : BitVec n) : (s.wr v).outBits = s.outBits + BitVec.ofNat 32 n :=
  rfl
@[simp] theorem State.wr_freq (s : State) {n : Nat} (v : BitVec n) : (s.wr v).freq = s.freq := rfl
@[simp] theorem State.wr_total (s : State) {n : Nat} (v : BitVec n) : (s.wr v).total = s.total := rfl
@[simp] theorem State.wr_node (s : State) {n : Nat} (v : BitVec n) : (s.wr v).node = s.node := rfl
@[simp] theorem State.wr_root (s : State) {n : Nat} (v : BitVec n) : (s.wr v).root = s.root := rfl
@[simp] theorem State.wr_ncount (s : State) {n : Nat} (v : BitVec n) : (s.wr v).ncount = s.ncount := rfl
@[simp] theorem State.wr_code (s : State) {n : Nat} (v : BitVec n) : (s.wr v).code = s.code := rfl
@[simp] theorem State.wr_phase (s : State) {n : Nat} (v : BitVec n) : (s.wr v).phase = s.phase := rfl
@[simp] theorem State.wr_seq (s : State) {n : Nat} (v : BitVec n) : (s.wr v).seq = s.seq := rfl
@[simp] theorem State.wr_ts (s : State) {n : Nat} (v : BitVec n) : (s.wr v).ts = s.ts := rfl
@[simp] theorem State.wr_hwN (s : State) {n : Nat} (v : BitVec n) : (s.wr v).hwN = s.hwN := rfl
@[simp] theorem State.wr_esym (s : State) {n : Nat} (v : BitVec n) : (s.wr v).esym = s.esym := rfl
@[simp] theorem State.wr_ej (s : State) {n : Nat} (v : BitVec n) : (s.wr v).ej = s.ej := rfl
@[simp] theorem State.wr_eomf (s : State) {n : Nat} (v : BitVec n) : (s.wr v).eomf = s.eomf := rfl
@[simp] theorem State.wr_pend (s : State) {n : Nat} (v : BitVec n) : (s.wr v).pend = s.pend := rfl
@[simp] theorem State.wr_hleaf (s : State) {n : Nat} (v : BitVec n) : (s.wr v).hleaf = s.hleaf := rfl
@[simp] theorem State.wr_cur (s : State) {n : Nat} (v : BitVec n) : (s.wr v).cur = s.cur := rfl
@[simp] theorem State.wr_input (s : State) {n : Nat} (v : BitVec n) : (s.wr v).input = s.input := rfl
@[simp] theorem State.wr_pos (s : State) {n : Nat} (v : BitVec n) : (s.wr v).pos = s.pos := rfl
@[simp] theorem State.wr_output (s : State) {n : Nat} (v : BitVec n) : (s.wr v).output = s.output ++ bitsOf v := rfl
@[simp] theorem State.wr_inputAnswers (s : State) {n : Nat} (v : BitVec n) : (s.wr v).inputAnswers = s.inputAnswers :=
  rfl
@[simp] theorem State.wr_outputAnswers (s : State) {n : Nat} (v : BitVec n) : (s.wr v).outputAnswers = s.outputAnswers :=
  rfl
@[simp] theorem State.wr_resetLine (s : State) {n : Nat} (v : BitVec n) : (s.wr v).resetLine = s.resetLine := rfl
@[simp] theorem State.wr_turns (s : State) {n : Nat} (v : BitVec n) : (s.wr v).turns = s.turns := rfl
@[simp] theorem State.wr_answers (s : State) {n : Nat} (v : BitVec n) : (s.wr v).answers = s.answers := rfl
@[simp] theorem State.wr_draws (s : State) {n : Nat} (v : BitVec n) : (s.wr v).draws = s.draws := rfl

/-! ### rewind -/

@[simp] theorem State.rewind_ie (s : State) : (s.rewind).ie = s.ie := rfl
@[simp] theorem State.rewind_activeCmd (s : State) : (s.rewind).activeCmd = s.activeCmd := rfl
@[simp] theorem State.rewind_done (s : State) : (s.rewind).done = s.done := rfl
@[simp] theorem State.rewind_err (s : State) : (s.rewind).err = s.err := rfl
@[simp] theorem State.rewind_drop (s : State) : (s.rewind).drop = s.drop := rfl
@[simp] theorem State.rewind_treeValid (s : State) : (s.rewind).treeValid = s.treeValid := rfl
@[simp] theorem State.rewind_codesValid (s : State) : (s.rewind).codesValid = s.codesValid := rfl
@[simp] theorem State.rewind_treeSrc (s : State) : (s.rewind).treeSrc = s.treeSrc := rfl
@[simp] theorem State.rewind_errcode (s : State) : (s.rewind).errcode = s.errcode := rfl
@[simp] theorem State.rewind_errinfo (s : State) : (s.rewind).errinfo = s.errinfo := rfl
@[simp] theorem State.rewind_freqIdx (s : State) : (s.rewind).freqIdx = s.freqIdx := rfl
@[simp] theorem State.rewind_nodeIdx (s : State) : (s.rewind).nodeIdx = s.nodeIdx := rfl
@[simp] theorem State.rewind_codeIdx (s : State) : (s.rewind).codeIdx = s.codeIdx := rfl
@[simp] theorem State.rewind_codeWsel (s : State) : (s.rewind).codeWsel = s.codeWsel := rfl
@[simp] theorem State.rewind_inBits (s : State) : (s.rewind).inBits = s.inBits := rfl
@[simp] theorem State.rewind_outBits (s : State) : (s.rewind).outBits = s.outBits := rfl
@[simp] theorem State.rewind_freq (s : State) : (s.rewind).freq = s.freq := rfl
@[simp] theorem State.rewind_total (s : State) : (s.rewind).total = s.total := rfl
@[simp] theorem State.rewind_node (s : State) : (s.rewind).node = s.node := rfl
@[simp] theorem State.rewind_root (s : State) : (s.rewind).root = s.root := rfl
@[simp] theorem State.rewind_ncount (s : State) : (s.rewind).ncount = s.ncount := rfl
@[simp] theorem State.rewind_code (s : State) : (s.rewind).code = s.code := rfl
@[simp] theorem State.rewind_phase (s : State) : (s.rewind).phase = s.phase := rfl
@[simp] theorem State.rewind_seq (s : State) : (s.rewind).seq = s.seq := rfl
@[simp] theorem State.rewind_ts (s : State) : (s.rewind).ts = s.ts := rfl
@[simp] theorem State.rewind_hwN (s : State) : (s.rewind).hwN = s.hwN := rfl
@[simp] theorem State.rewind_esym (s : State) : (s.rewind).esym = s.esym := rfl
@[simp] theorem State.rewind_ej (s : State) : (s.rewind).ej = s.ej := rfl
@[simp] theorem State.rewind_eomf (s : State) : (s.rewind).eomf = s.eomf := rfl
@[simp] theorem State.rewind_pend (s : State) : (s.rewind).pend = s.pend := rfl
@[simp] theorem State.rewind_hleaf (s : State) : (s.rewind).hleaf = s.hleaf := rfl
@[simp] theorem State.rewind_cur (s : State) : (s.rewind).cur = s.cur := rfl
@[simp] theorem State.rewind_input (s : State) : (s.rewind).input = s.input := rfl
@[simp] theorem State.rewind_pos (s : State) : (s.rewind).pos = 0 := rfl
@[simp] theorem State.rewind_output (s : State) : (s.rewind).output = s.output := rfl
@[simp] theorem State.rewind_inputAnswers (s : State) : (s.rewind).inputAnswers = s.inputAnswers := rfl
@[simp] theorem State.rewind_outputAnswers (s : State) : (s.rewind).outputAnswers = s.outputAnswers := rfl
@[simp] theorem State.rewind_resetLine (s : State) : (s.rewind).resetLine = s.resetLine := rfl
@[simp] theorem State.rewind_turns (s : State) : (s.rewind).turns = s.turns := rfl
@[simp] theorem State.rewind_answers (s : State) : (s.rewind).answers = s.answers := rfl
@[simp] theorem State.rewind_draws (s : State) : (s.rewind).draws = s.draws := rfl

/-! ### close -/

@[simp] theorem State.close_ie (s : State) : (s.close).ie = s.ie := rfl
@[simp] theorem State.close_activeCmd (s : State) : (s.close).activeCmd = s.activeCmd := rfl
@[simp] theorem State.close_done (s : State) : (s.close).done = s.done := rfl
@[simp] theorem State.close_err (s : State) : (s.close).err = s.err := rfl
@[simp] theorem State.close_drop (s : State) : (s.close).drop = s.drop := rfl
@[simp] theorem State.close_treeValid (s : State) : (s.close).treeValid = s.treeValid := rfl
@[simp] theorem State.close_codesValid (s : State) : (s.close).codesValid = s.codesValid := rfl
@[simp] theorem State.close_treeSrc (s : State) : (s.close).treeSrc = s.treeSrc := rfl
@[simp] theorem State.close_errcode (s : State) : (s.close).errcode = s.errcode := rfl
@[simp] theorem State.close_errinfo (s : State) : (s.close).errinfo = s.errinfo := rfl
@[simp] theorem State.close_freqIdx (s : State) : (s.close).freqIdx = s.freqIdx := rfl
@[simp] theorem State.close_nodeIdx (s : State) : (s.close).nodeIdx = s.nodeIdx := rfl
@[simp] theorem State.close_codeIdx (s : State) : (s.close).codeIdx = s.codeIdx := rfl
@[simp] theorem State.close_codeWsel (s : State) : (s.close).codeWsel = s.codeWsel := rfl
@[simp] theorem State.close_inBits (s : State) : (s.close).inBits = s.inBits := rfl
@[simp] theorem State.close_outBits (s : State) : (s.close).outBits = s.outBits := rfl
@[simp] theorem State.close_freq (s : State) : (s.close).freq = s.freq := rfl
@[simp] theorem State.close_total (s : State) : (s.close).total = s.total := rfl
@[simp] theorem State.close_node (s : State) : (s.close).node = s.node := rfl
@[simp] theorem State.close_root (s : State) : (s.close).root = s.root := rfl
@[simp] theorem State.close_ncount (s : State) : (s.close).ncount = s.ncount := rfl
@[simp] theorem State.close_code (s : State) : (s.close).code = s.code := rfl
@[simp] theorem State.close_phase (s : State) : (s.close).phase = s.phase := rfl
@[simp] theorem State.close_seq (s : State) : (s.close).seq = s.seq := rfl
@[simp] theorem State.close_ts (s : State) : (s.close).ts = s.ts := rfl
@[simp] theorem State.close_hwN (s : State) : (s.close).hwN = s.hwN := rfl
@[simp] theorem State.close_esym (s : State) : (s.close).esym = s.esym := rfl
@[simp] theorem State.close_ej (s : State) : (s.close).ej = s.ej := rfl
@[simp] theorem State.close_eomf (s : State) : (s.close).eomf = s.eomf := rfl
@[simp] theorem State.close_pend (s : State) : (s.close).pend = s.pend := rfl
@[simp] theorem State.close_hleaf (s : State) : (s.close).hleaf = s.hleaf := rfl
@[simp] theorem State.close_cur (s : State) : (s.close).cur = s.cur := rfl
@[simp] theorem State.close_input (s : State) : (s.close).input = s.input := rfl
@[simp] theorem State.close_pos (s : State) : (s.close).pos = s.pos := rfl
@[simp] theorem State.close_inputAnswers (s : State) : (s.close).inputAnswers = s.inputAnswers := rfl
@[simp] theorem State.close_outputAnswers (s : State) : (s.close).outputAnswers = s.outputAnswers := rfl
@[simp] theorem State.close_resetLine (s : State) : (s.close).resetLine = s.resetLine := rfl
@[simp] theorem State.close_turns (s : State) : (s.close).turns = s.turns := rfl
@[simp] theorem State.close_answers (s : State) : (s.close).answers = s.answers := rfl
@[simp] theorem State.close_draws (s : State) : (s.close).draws = s.draws + 1 := rfl

/-! ### takeError -/

@[simp] theorem State.takeError_ie (s : State) (c : Cause) (info : Word) (ph : BitVec 8) (a m : Bool) : (s.takeError c info ph a m).ie = s.ie :=
  rfl
@[simp] theorem State.takeError_activeCmd (s : State) (c : Cause) (info : Word) (ph : BitVec 8) (a m : Bool) : (s.takeError c info ph a m).activeCmd = s.activeCmd :=
  rfl
@[simp] theorem State.takeError_done (s : State) (c : Cause) (info : Word) (ph : BitVec 8) (a m : Bool) : (s.takeError c info ph a m).done = s.done :=
  rfl
@[simp] theorem State.takeError_err (s : State) (c : Cause) (info : Word) (ph : BitVec 8) (a m : Bool) : (s.takeError c info ph a m).err = true :=
  rfl
@[simp] theorem State.takeError_drop (s : State) (c : Cause) (info : Word) (ph : BitVec 8) (a m : Bool) : (s.takeError c info ph a m).drop = s.drop :=
  rfl
@[simp] theorem State.takeError_treeValid (s : State) (c : Cause) (info : Word) (ph : BitVec 8) (a m : Bool) : (s.takeError c info ph a m).treeValid = s.treeValid :=
  rfl
@[simp] theorem State.takeError_codesValid (s : State) (c : Cause) (info : Word) (ph : BitVec 8) (a m : Bool) : (s.takeError c info ph a m).codesValid = s.codesValid :=
  rfl
@[simp] theorem State.takeError_treeSrc (s : State) (c : Cause) (info : Word) (ph : BitVec 8) (a m : Bool) : (s.takeError c info ph a m).treeSrc = s.treeSrc :=
  rfl
@[simp] theorem State.takeError_errcode (s : State) (c : Cause) (info : Word) (ph : BitVec 8) (a m : Bool) : (s.takeError c info ph a m).errcode = errcodeWord m a ph c.code :=
  rfl
@[simp] theorem State.takeError_errinfo (s : State) (c : Cause) (info : Word) (ph : BitVec 8) (a m : Bool) : (s.takeError c info ph a m).errinfo = info :=
  rfl
@[simp] theorem State.takeError_freqIdx (s : State) (c : Cause) (info : Word) (ph : BitVec 8) (a m : Bool) : (s.takeError c info ph a m).freqIdx = s.freqIdx :=
  rfl
@[simp] theorem State.takeError_nodeIdx (s : State) (c : Cause) (info : Word) (ph : BitVec 8) (a m : Bool) : (s.takeError c info ph a m).nodeIdx = s.nodeIdx :=
  rfl
@[simp] theorem State.takeError_codeIdx (s : State) (c : Cause) (info : Word) (ph : BitVec 8) (a m : Bool) : (s.takeError c info ph a m).codeIdx = s.codeIdx :=
  rfl
@[simp] theorem State.takeError_codeWsel (s : State) (c : Cause) (info : Word) (ph : BitVec 8) (a m : Bool) : (s.takeError c info ph a m).codeWsel = s.codeWsel :=
  rfl
@[simp] theorem State.takeError_inBits (s : State) (c : Cause) (info : Word) (ph : BitVec 8) (a m : Bool) : (s.takeError c info ph a m).inBits = s.inBits :=
  rfl
@[simp] theorem State.takeError_outBits (s : State) (c : Cause) (info : Word) (ph : BitVec 8) (a m : Bool) : (s.takeError c info ph a m).outBits = s.outBits :=
  rfl
@[simp] theorem State.takeError_freq (s : State) (c : Cause) (info : Word) (ph : BitVec 8) (a m : Bool) : (s.takeError c info ph a m).freq = s.freq :=
  rfl
@[simp] theorem State.takeError_total (s : State) (c : Cause) (info : Word) (ph : BitVec 8) (a m : Bool) : (s.takeError c info ph a m).total = s.total :=
  rfl
@[simp] theorem State.takeError_node (s : State) (c : Cause) (info : Word) (ph : BitVec 8) (a m : Bool) : (s.takeError c info ph a m).node = s.node :=
  rfl
@[simp] theorem State.takeError_root (s : State) (c : Cause) (info : Word) (ph : BitVec 8) (a m : Bool) : (s.takeError c info ph a m).root = s.root :=
  rfl
@[simp] theorem State.takeError_ncount (s : State) (c : Cause) (info : Word) (ph : BitVec 8) (a m : Bool) : (s.takeError c info ph a m).ncount = s.ncount :=
  rfl
@[simp] theorem State.takeError_code (s : State) (c : Cause) (info : Word) (ph : BitVec 8) (a m : Bool) : (s.takeError c info ph a m).code = s.code :=
  rfl
@[simp] theorem State.takeError_phase (s : State) (c : Cause) (info : Word) (ph : BitVec 8) (a m : Bool) : (s.takeError c info ph a m).phase = .idle :=
  rfl
@[simp] theorem State.takeError_seq (s : State) (c : Cause) (info : Word) (ph : BitVec 8) (a m : Bool) : (s.takeError c info ph a m).seq = s.seq :=
  rfl
@[simp] theorem State.takeError_ts (s : State) (c : Cause) (info : Word) (ph : BitVec 8) (a m : Bool) : (s.takeError c info ph a m).ts = s.ts :=
  rfl
@[simp] theorem State.takeError_hwN (s : State) (c : Cause) (info : Word) (ph : BitVec 8) (a m : Bool) : (s.takeError c info ph a m).hwN = s.hwN :=
  rfl
@[simp] theorem State.takeError_esym (s : State) (c : Cause) (info : Word) (ph : BitVec 8) (a m : Bool) : (s.takeError c info ph a m).esym = s.esym :=
  rfl
@[simp] theorem State.takeError_ej (s : State) (c : Cause) (info : Word) (ph : BitVec 8) (a m : Bool) : (s.takeError c info ph a m).ej = s.ej :=
  rfl
@[simp] theorem State.takeError_eomf (s : State) (c : Cause) (info : Word) (ph : BitVec 8) (a m : Bool) : (s.takeError c info ph a m).eomf = s.eomf :=
  rfl
@[simp] theorem State.takeError_pend (s : State) (c : Cause) (info : Word) (ph : BitVec 8) (a m : Bool) : (s.takeError c info ph a m).pend = s.pend :=
  rfl
@[simp] theorem State.takeError_hleaf (s : State) (c : Cause) (info : Word) (ph : BitVec 8) (a m : Bool) : (s.takeError c info ph a m).hleaf = s.hleaf :=
  rfl
@[simp] theorem State.takeError_cur (s : State) (c : Cause) (info : Word) (ph : BitVec 8) (a m : Bool) : (s.takeError c info ph a m).cur = s.cur :=
  rfl
@[simp] theorem State.takeError_input (s : State) (c : Cause) (info : Word) (ph : BitVec 8) (a m : Bool) : (s.takeError c info ph a m).input = s.input :=
  rfl
@[simp] theorem State.takeError_pos (s : State) (c : Cause) (info : Word) (ph : BitVec 8) (a m : Bool) : (s.takeError c info ph a m).pos = s.pos :=
  rfl
@[simp] theorem State.takeError_output (s : State) (c : Cause) (info : Word) (ph : BitVec 8) (a m : Bool) : (s.takeError c info ph a m).output = s.output :=
  rfl
@[simp] theorem State.takeError_inputAnswers (s : State) (c : Cause) (info : Word) (ph : BitVec 8) (a m : Bool) : (s.takeError c info ph a m).inputAnswers = s.inputAnswers :=
  rfl
@[simp] theorem State.takeError_outputAnswers (s : State) (c : Cause) (info : Word) (ph : BitVec 8) (a m : Bool) : (s.takeError c info ph a m).outputAnswers = s.outputAnswers :=
  rfl
@[simp] theorem State.takeError_resetLine (s : State) (c : Cause) (info : Word) (ph : BitVec 8) (a m : Bool) : (s.takeError c info ph a m).resetLine = s.resetLine :=
  rfl
@[simp] theorem State.takeError_turns (s : State) (c : Cause) (info : Word) (ph : BitVec 8) (a m : Bool) : (s.takeError c info ph a m).turns = s.turns :=
  rfl
@[simp] theorem State.takeError_answers (s : State) (c : Cause) (info : Word) (ph : BitVec 8) (a m : Bool) : (s.takeError c info ph a m).answers = s.answers :=
  rfl
@[simp] theorem State.takeError_draws (s : State) (c : Cause) (info : Word) (ph : BitVec 8) (a m : Bool) : (s.takeError c info ph a m).draws = s.draws :=
  rfl

/-! ### raise -/

@[simp] theorem State.raise_ie (s : State) (c : Cause) (info : Word) (a m : Bool) : (s.raise c info a m).ie = s.ie :=
  rfl
@[simp] theorem State.raise_activeCmd (s : State) (c : Cause) (info : Word) (a m : Bool) : (s.raise c info a m).activeCmd = s.activeCmd :=
  rfl
@[simp] theorem State.raise_done (s : State) (c : Cause) (info : Word) (a m : Bool) : (s.raise c info a m).done = s.done :=
  rfl
@[simp] theorem State.raise_err (s : State) (c : Cause) (info : Word) (a m : Bool) : (s.raise c info a m).err = true :=
  rfl
@[simp] theorem State.raise_drop (s : State) (c : Cause) (info : Word) (a m : Bool) : (s.raise c info a m).drop = s.drop :=
  rfl
@[simp] theorem State.raise_treeValid (s : State) (c : Cause) (info : Word) (a m : Bool) : (s.raise c info a m).treeValid = s.treeValid :=
  rfl
@[simp] theorem State.raise_codesValid (s : State) (c : Cause) (info : Word) (a m : Bool) : (s.raise c info a m).codesValid = s.codesValid :=
  rfl
@[simp] theorem State.raise_treeSrc (s : State) (c : Cause) (info : Word) (a m : Bool) : (s.raise c info a m).treeSrc = s.treeSrc :=
  rfl
@[simp] theorem State.raise_errcode (s : State) (c : Cause) (info : Word) (a m : Bool) : (s.raise c info a m).errcode = errcodeWord m a s.phase.code c.code :=
  rfl
@[simp] theorem State.raise_errinfo (s : State) (c : Cause) (info : Word) (a m : Bool) : (s.raise c info a m).errinfo = info :=
  rfl
@[simp] theorem State.raise_freqIdx (s : State) (c : Cause) (info : Word) (a m : Bool) : (s.raise c info a m).freqIdx = s.freqIdx :=
  rfl
@[simp] theorem State.raise_nodeIdx (s : State) (c : Cause) (info : Word) (a m : Bool) : (s.raise c info a m).nodeIdx = s.nodeIdx :=
  rfl
@[simp] theorem State.raise_codeIdx (s : State) (c : Cause) (info : Word) (a m : Bool) : (s.raise c info a m).codeIdx = s.codeIdx :=
  rfl
@[simp] theorem State.raise_codeWsel (s : State) (c : Cause) (info : Word) (a m : Bool) : (s.raise c info a m).codeWsel = s.codeWsel :=
  rfl
@[simp] theorem State.raise_inBits (s : State) (c : Cause) (info : Word) (a m : Bool) : (s.raise c info a m).inBits = s.inBits :=
  rfl
@[simp] theorem State.raise_outBits (s : State) (c : Cause) (info : Word) (a m : Bool) : (s.raise c info a m).outBits = s.outBits :=
  rfl
@[simp] theorem State.raise_freq (s : State) (c : Cause) (info : Word) (a m : Bool) : (s.raise c info a m).freq = s.freq :=
  rfl
@[simp] theorem State.raise_total (s : State) (c : Cause) (info : Word) (a m : Bool) : (s.raise c info a m).total = s.total :=
  rfl
@[simp] theorem State.raise_node (s : State) (c : Cause) (info : Word) (a m : Bool) : (s.raise c info a m).node = s.node :=
  rfl
@[simp] theorem State.raise_root (s : State) (c : Cause) (info : Word) (a m : Bool) : (s.raise c info a m).root = s.root :=
  rfl
@[simp] theorem State.raise_ncount (s : State) (c : Cause) (info : Word) (a m : Bool) : (s.raise c info a m).ncount = s.ncount :=
  rfl
@[simp] theorem State.raise_code (s : State) (c : Cause) (info : Word) (a m : Bool) : (s.raise c info a m).code = s.code :=
  rfl
@[simp] theorem State.raise_phase (s : State) (c : Cause) (info : Word) (a m : Bool) : (s.raise c info a m).phase = .idle :=
  rfl
@[simp] theorem State.raise_seq (s : State) (c : Cause) (info : Word) (a m : Bool) : (s.raise c info a m).seq = s.seq :=
  rfl
@[simp] theorem State.raise_ts (s : State) (c : Cause) (info : Word) (a m : Bool) : (s.raise c info a m).ts = s.ts :=
  rfl
@[simp] theorem State.raise_hwN (s : State) (c : Cause) (info : Word) (a m : Bool) : (s.raise c info a m).hwN = s.hwN :=
  rfl
@[simp] theorem State.raise_esym (s : State) (c : Cause) (info : Word) (a m : Bool) : (s.raise c info a m).esym = s.esym :=
  rfl
@[simp] theorem State.raise_ej (s : State) (c : Cause) (info : Word) (a m : Bool) : (s.raise c info a m).ej = s.ej :=
  rfl
@[simp] theorem State.raise_eomf (s : State) (c : Cause) (info : Word) (a m : Bool) : (s.raise c info a m).eomf = s.eomf :=
  rfl
@[simp] theorem State.raise_pend (s : State) (c : Cause) (info : Word) (a m : Bool) : (s.raise c info a m).pend = s.pend :=
  rfl
@[simp] theorem State.raise_hleaf (s : State) (c : Cause) (info : Word) (a m : Bool) : (s.raise c info a m).hleaf = s.hleaf :=
  rfl
@[simp] theorem State.raise_cur (s : State) (c : Cause) (info : Word) (a m : Bool) : (s.raise c info a m).cur = s.cur :=
  rfl
@[simp] theorem State.raise_input (s : State) (c : Cause) (info : Word) (a m : Bool) : (s.raise c info a m).input = s.input :=
  rfl
@[simp] theorem State.raise_pos (s : State) (c : Cause) (info : Word) (a m : Bool) : (s.raise c info a m).pos = s.pos :=
  rfl
@[simp] theorem State.raise_output (s : State) (c : Cause) (info : Word) (a m : Bool) : (s.raise c info a m).output = s.output :=
  rfl
@[simp] theorem State.raise_inputAnswers (s : State) (c : Cause) (info : Word) (a m : Bool) : (s.raise c info a m).inputAnswers = s.inputAnswers :=
  rfl
@[simp] theorem State.raise_outputAnswers (s : State) (c : Cause) (info : Word) (a m : Bool) : (s.raise c info a m).outputAnswers = s.outputAnswers :=
  rfl
@[simp] theorem State.raise_resetLine (s : State) (c : Cause) (info : Word) (a m : Bool) : (s.raise c info a m).resetLine = s.resetLine :=
  rfl
@[simp] theorem State.raise_turns (s : State) (c : Cause) (info : Word) (a m : Bool) : (s.raise c info a m).turns = s.turns :=
  rfl
@[simp] theorem State.raise_answers (s : State) (c : Cause) (info : Word) (a m : Bool) : (s.raise c info a m).answers = s.answers :=
  rfl
@[simp] theorem State.raise_draws (s : State) (c : Cause) (info : Word) (a m : Bool) : (s.raise c info a m).draws = s.draws :=
  rfl

/-! ### dispatchError -/

@[simp] theorem State.dispatchError_ie (s : State) (c : Cause) (info : Word) : (s.dispatchError c info).ie = s.ie :=
  rfl
@[simp] theorem State.dispatchError_activeCmd (s : State) (c : Cause) (info : Word) : (s.dispatchError c info).activeCmd = s.activeCmd :=
  rfl
@[simp] theorem State.dispatchError_done (s : State) (c : Cause) (info : Word) : (s.dispatchError c info).done = s.done :=
  rfl
@[simp] theorem State.dispatchError_err (s : State) (c : Cause) (info : Word) : (s.dispatchError c info).err = true :=
  rfl
@[simp] theorem State.dispatchError_drop (s : State) (c : Cause) (info : Word) : (s.dispatchError c info).drop = s.drop :=
  rfl
@[simp] theorem State.dispatchError_treeValid (s : State) (c : Cause) (info : Word) : (s.dispatchError c info).treeValid = s.treeValid :=
  rfl
@[simp] theorem State.dispatchError_codesValid (s : State) (c : Cause) (info : Word) : (s.dispatchError c info).codesValid = s.codesValid :=
  rfl
@[simp] theorem State.dispatchError_treeSrc (s : State) (c : Cause) (info : Word) : (s.dispatchError c info).treeSrc = s.treeSrc :=
  rfl
@[simp] theorem State.dispatchError_errcode (s : State) (c : Cause) (info : Word) : (s.dispatchError c info).errcode = errcodeWord false false dispatchCode c.code :=
  rfl
@[simp] theorem State.dispatchError_errinfo (s : State) (c : Cause) (info : Word) : (s.dispatchError c info).errinfo = info :=
  rfl
@[simp] theorem State.dispatchError_freqIdx (s : State) (c : Cause) (info : Word) : (s.dispatchError c info).freqIdx = s.freqIdx :=
  rfl
@[simp] theorem State.dispatchError_nodeIdx (s : State) (c : Cause) (info : Word) : (s.dispatchError c info).nodeIdx = s.nodeIdx :=
  rfl
@[simp] theorem State.dispatchError_codeIdx (s : State) (c : Cause) (info : Word) : (s.dispatchError c info).codeIdx = s.codeIdx :=
  rfl
@[simp] theorem State.dispatchError_codeWsel (s : State) (c : Cause) (info : Word) : (s.dispatchError c info).codeWsel = s.codeWsel :=
  rfl
@[simp] theorem State.dispatchError_inBits (s : State) (c : Cause) (info : Word) : (s.dispatchError c info).inBits = s.inBits :=
  rfl
@[simp] theorem State.dispatchError_outBits (s : State) (c : Cause) (info : Word) : (s.dispatchError c info).outBits = s.outBits :=
  rfl
@[simp] theorem State.dispatchError_freq (s : State) (c : Cause) (info : Word) : (s.dispatchError c info).freq = s.freq :=
  rfl
@[simp] theorem State.dispatchError_total (s : State) (c : Cause) (info : Word) : (s.dispatchError c info).total = s.total :=
  rfl
@[simp] theorem State.dispatchError_node (s : State) (c : Cause) (info : Word) : (s.dispatchError c info).node = s.node :=
  rfl
@[simp] theorem State.dispatchError_root (s : State) (c : Cause) (info : Word) : (s.dispatchError c info).root = s.root :=
  rfl
@[simp] theorem State.dispatchError_ncount (s : State) (c : Cause) (info : Word) : (s.dispatchError c info).ncount = s.ncount :=
  rfl
@[simp] theorem State.dispatchError_code (s : State) (c : Cause) (info : Word) : (s.dispatchError c info).code = s.code :=
  rfl
@[simp] theorem State.dispatchError_phase (s : State) (c : Cause) (info : Word) : (s.dispatchError c info).phase = .idle :=
  rfl
@[simp] theorem State.dispatchError_seq (s : State) (c : Cause) (info : Word) : (s.dispatchError c info).seq = s.seq :=
  rfl
@[simp] theorem State.dispatchError_ts (s : State) (c : Cause) (info : Word) : (s.dispatchError c info).ts = s.ts :=
  rfl
@[simp] theorem State.dispatchError_hwN (s : State) (c : Cause) (info : Word) : (s.dispatchError c info).hwN = s.hwN :=
  rfl
@[simp] theorem State.dispatchError_esym (s : State) (c : Cause) (info : Word) : (s.dispatchError c info).esym = s.esym :=
  rfl
@[simp] theorem State.dispatchError_ej (s : State) (c : Cause) (info : Word) : (s.dispatchError c info).ej = s.ej :=
  rfl
@[simp] theorem State.dispatchError_eomf (s : State) (c : Cause) (info : Word) : (s.dispatchError c info).eomf = s.eomf :=
  rfl
@[simp] theorem State.dispatchError_pend (s : State) (c : Cause) (info : Word) : (s.dispatchError c info).pend = s.pend :=
  rfl
@[simp] theorem State.dispatchError_hleaf (s : State) (c : Cause) (info : Word) : (s.dispatchError c info).hleaf = s.hleaf :=
  rfl
@[simp] theorem State.dispatchError_cur (s : State) (c : Cause) (info : Word) : (s.dispatchError c info).cur = s.cur :=
  rfl
@[simp] theorem State.dispatchError_input (s : State) (c : Cause) (info : Word) : (s.dispatchError c info).input = s.input :=
  rfl
@[simp] theorem State.dispatchError_pos (s : State) (c : Cause) (info : Word) : (s.dispatchError c info).pos = s.pos :=
  rfl
@[simp] theorem State.dispatchError_output (s : State) (c : Cause) (info : Word) : (s.dispatchError c info).output = s.output :=
  rfl
@[simp] theorem State.dispatchError_inputAnswers (s : State) (c : Cause) (info : Word) : (s.dispatchError c info).inputAnswers = s.inputAnswers :=
  rfl
@[simp] theorem State.dispatchError_outputAnswers (s : State) (c : Cause) (info : Word) : (s.dispatchError c info).outputAnswers = s.outputAnswers :=
  rfl
@[simp] theorem State.dispatchError_resetLine (s : State) (c : Cause) (info : Word) : (s.dispatchError c info).resetLine = s.resetLine :=
  rfl
@[simp] theorem State.dispatchError_turns (s : State) (c : Cause) (info : Word) : (s.dispatchError c info).turns = s.turns :=
  rfl
@[simp] theorem State.dispatchError_answers (s : State) (c : Cause) (info : Word) : (s.dispatchError c info).answers = s.answers :=
  rfl
@[simp] theorem State.dispatchError_draws (s : State) (c : Cause) (info : Word) : (s.dispatchError c info).draws = s.draws :=
  rfl

/-! ### beginDispatch -/

@[simp] theorem State.beginDispatch_ie (s : State) (op : BitVec 8) : (s.beginDispatch op).ie = s.ie := rfl
@[simp] theorem State.beginDispatch_activeCmd (s : State) (op : BitVec 8) : (s.beginDispatch op).activeCmd = op := rfl
@[simp] theorem State.beginDispatch_done (s : State) (op : BitVec 8) : (s.beginDispatch op).done = false := rfl
@[simp] theorem State.beginDispatch_err (s : State) (op : BitVec 8) : (s.beginDispatch op).err = false := rfl
@[simp] theorem State.beginDispatch_drop (s : State) (op : BitVec 8) : (s.beginDispatch op).drop = s.drop := rfl
@[simp] theorem State.beginDispatch_treeValid (s : State) (op : BitVec 8) : (s.beginDispatch op).treeValid = s.treeValid :=
  rfl
@[simp] theorem State.beginDispatch_codesValid (s : State) (op : BitVec 8) : (s.beginDispatch op).codesValid = s.codesValid :=
  rfl
@[simp] theorem State.beginDispatch_treeSrc (s : State) (op : BitVec 8) : (s.beginDispatch op).treeSrc = s.treeSrc :=
  rfl
@[simp] theorem State.beginDispatch_errcode (s : State) (op : BitVec 8) : (s.beginDispatch op).errcode = 0#32 := rfl
@[simp] theorem State.beginDispatch_errinfo (s : State) (op : BitVec 8) : (s.beginDispatch op).errinfo = 0#32 := rfl
@[simp] theorem State.beginDispatch_freqIdx (s : State) (op : BitVec 8) : (s.beginDispatch op).freqIdx = s.freqIdx :=
  rfl
@[simp] theorem State.beginDispatch_nodeIdx (s : State) (op : BitVec 8) : (s.beginDispatch op).nodeIdx = s.nodeIdx :=
  rfl
@[simp] theorem State.beginDispatch_codeIdx (s : State) (op : BitVec 8) : (s.beginDispatch op).codeIdx = s.codeIdx :=
  rfl
@[simp] theorem State.beginDispatch_codeWsel (s : State) (op : BitVec 8) : (s.beginDispatch op).codeWsel = s.codeWsel :=
  rfl
@[simp] theorem State.beginDispatch_inBits (s : State) (op : BitVec 8) : (s.beginDispatch op).inBits = 0#32 := rfl
@[simp] theorem State.beginDispatch_outBits (s : State) (op : BitVec 8) : (s.beginDispatch op).outBits = 0#32 := rfl
@[simp] theorem State.beginDispatch_freq (s : State) (op : BitVec 8) : (s.beginDispatch op).freq = s.freq := rfl
@[simp] theorem State.beginDispatch_total (s : State) (op : BitVec 8) : (s.beginDispatch op).total = s.total := rfl
@[simp] theorem State.beginDispatch_node (s : State) (op : BitVec 8) : (s.beginDispatch op).node = s.node := rfl
@[simp] theorem State.beginDispatch_root (s : State) (op : BitVec 8) : (s.beginDispatch op).root = s.root := rfl
@[simp] theorem State.beginDispatch_ncount (s : State) (op : BitVec 8) : (s.beginDispatch op).ncount = s.ncount := rfl
@[simp] theorem State.beginDispatch_code (s : State) (op : BitVec 8) : (s.beginDispatch op).code = s.code := rfl
@[simp] theorem State.beginDispatch_phase (s : State) (op : BitVec 8) : (s.beginDispatch op).phase = s.phase := rfl
@[simp] theorem State.beginDispatch_seq (s : State) (op : BitVec 8) : (s.beginDispatch op).seq = s.seq := rfl
@[simp] theorem State.beginDispatch_ts (s : State) (op : BitVec 8) : (s.beginDispatch op).ts = s.ts := rfl
@[simp] theorem State.beginDispatch_hwN (s : State) (op : BitVec 8) : (s.beginDispatch op).hwN = s.hwN := rfl
@[simp] theorem State.beginDispatch_esym (s : State) (op : BitVec 8) : (s.beginDispatch op).esym = s.esym := rfl
@[simp] theorem State.beginDispatch_ej (s : State) (op : BitVec 8) : (s.beginDispatch op).ej = s.ej := rfl
@[simp] theorem State.beginDispatch_eomf (s : State) (op : BitVec 8) : (s.beginDispatch op).eomf = s.eomf := rfl
@[simp] theorem State.beginDispatch_pend (s : State) (op : BitVec 8) : (s.beginDispatch op).pend = s.pend := rfl
@[simp] theorem State.beginDispatch_hleaf (s : State) (op : BitVec 8) : (s.beginDispatch op).hleaf = s.hleaf := rfl
@[simp] theorem State.beginDispatch_cur (s : State) (op : BitVec 8) : (s.beginDispatch op).cur = s.cur := rfl
@[simp] theorem State.beginDispatch_input (s : State) (op : BitVec 8) : (s.beginDispatch op).input = s.input := rfl
@[simp] theorem State.beginDispatch_pos (s : State) (op : BitVec 8) : (s.beginDispatch op).pos = s.pos := rfl
@[simp] theorem State.beginDispatch_output (s : State) (op : BitVec 8) : (s.beginDispatch op).output = s.output := rfl
@[simp] theorem State.beginDispatch_inputAnswers (s : State) (op : BitVec 8) : (s.beginDispatch op).inputAnswers = s.inputAnswers :=
  rfl
@[simp] theorem State.beginDispatch_outputAnswers (s : State) (op : BitVec 8) : (s.beginDispatch op).outputAnswers = s.outputAnswers :=
  rfl
@[simp] theorem State.beginDispatch_resetLine (s : State) (op : BitVec 8) : (s.beginDispatch op).resetLine = s.resetLine :=
  rfl
@[simp] theorem State.beginDispatch_turns (s : State) (op : BitVec 8) : (s.beginDispatch op).turns = s.turns := rfl
@[simp] theorem State.beginDispatch_answers (s : State) (op : BitVec 8) : (s.beginDispatch op).answers = s.answers :=
  rfl
@[simp] theorem State.beginDispatch_draws (s : State) (op : BitVec 8) : (s.beginDispatch op).draws = s.draws := rfl

/-! ### setFreq -/

@[simp] theorem State.setFreq_ie (s : State) (k : Nat) (v : Word) : (s.setFreq k v).ie = s.ie := by
  unfold State.setFreq; split <;> rfl
@[simp] theorem State.setFreq_activeCmd (s : State) (k : Nat) (v : Word) : (s.setFreq k v).activeCmd = s.activeCmd := by
  unfold State.setFreq; split <;> rfl
@[simp] theorem State.setFreq_done (s : State) (k : Nat) (v : Word) : (s.setFreq k v).done = s.done := by
  unfold State.setFreq; split <;> rfl
@[simp] theorem State.setFreq_err (s : State) (k : Nat) (v : Word) : (s.setFreq k v).err = s.err := by
  unfold State.setFreq; split <;> rfl
@[simp] theorem State.setFreq_drop (s : State) (k : Nat) (v : Word) : (s.setFreq k v).drop = s.drop := by
  unfold State.setFreq; split <;> rfl
@[simp] theorem State.setFreq_treeValid (s : State) (k : Nat) (v : Word) : (s.setFreq k v).treeValid = s.treeValid := by
  unfold State.setFreq; split <;> rfl
@[simp] theorem State.setFreq_codesValid (s : State) (k : Nat) (v : Word) : (s.setFreq k v).codesValid = s.codesValid := by
  unfold State.setFreq; split <;> rfl
@[simp] theorem State.setFreq_treeSrc (s : State) (k : Nat) (v : Word) : (s.setFreq k v).treeSrc = s.treeSrc := by
  unfold State.setFreq; split <;> rfl
@[simp] theorem State.setFreq_errcode (s : State) (k : Nat) (v : Word) : (s.setFreq k v).errcode = s.errcode := by
  unfold State.setFreq; split <;> rfl
@[simp] theorem State.setFreq_errinfo (s : State) (k : Nat) (v : Word) : (s.setFreq k v).errinfo = s.errinfo := by
  unfold State.setFreq; split <;> rfl
@[simp] theorem State.setFreq_freqIdx (s : State) (k : Nat) (v : Word) : (s.setFreq k v).freqIdx = s.freqIdx := by
  unfold State.setFreq; split <;> rfl
@[simp] theorem State.setFreq_nodeIdx (s : State) (k : Nat) (v : Word) : (s.setFreq k v).nodeIdx = s.nodeIdx := by
  unfold State.setFreq; split <;> rfl
@[simp] theorem State.setFreq_codeIdx (s : State) (k : Nat) (v : Word) : (s.setFreq k v).codeIdx = s.codeIdx := by
  unfold State.setFreq; split <;> rfl
@[simp] theorem State.setFreq_codeWsel (s : State) (k : Nat) (v : Word) : (s.setFreq k v).codeWsel = s.codeWsel := by
  unfold State.setFreq; split <;> rfl
@[simp] theorem State.setFreq_inBits (s : State) (k : Nat) (v : Word) : (s.setFreq k v).inBits = s.inBits := by
  unfold State.setFreq; split <;> rfl
@[simp] theorem State.setFreq_outBits (s : State) (k : Nat) (v : Word) : (s.setFreq k v).outBits = s.outBits := by
  unfold State.setFreq; split <;> rfl
@[simp] theorem State.setFreq_freq (s : State) (k : Nat) (v : Word) : (s.setFreq k v).freq = if k < 256 then Memory.write 0#32 s.freq k v else s.freq := by
  unfold State.setFreq; split <;> rfl
@[simp] theorem State.setFreq_total (s : State) (k : Nat) (v : Word) : (s.setFreq k v).total = s.total := by
  unfold State.setFreq; split <;> rfl
@[simp] theorem State.setFreq_node (s : State) (k : Nat) (v : Word) : (s.setFreq k v).node = s.node := by
  unfold State.setFreq; split <;> rfl
@[simp] theorem State.setFreq_root (s : State) (k : Nat) (v : Word) : (s.setFreq k v).root = s.root := by
  unfold State.setFreq; split <;> rfl
@[simp] theorem State.setFreq_ncount (s : State) (k : Nat) (v : Word) : (s.setFreq k v).ncount = s.ncount := by
  unfold State.setFreq; split <;> rfl
@[simp] theorem State.setFreq_code (s : State) (k : Nat) (v : Word) : (s.setFreq k v).code = s.code := by
  unfold State.setFreq; split <;> rfl
@[simp] theorem State.setFreq_phase (s : State) (k : Nat) (v : Word) : (s.setFreq k v).phase = s.phase := by
  unfold State.setFreq; split <;> rfl
@[simp] theorem State.setFreq_seq (s : State) (k : Nat) (v : Word) : (s.setFreq k v).seq = s.seq := by
  unfold State.setFreq; split <;> rfl
@[simp] theorem State.setFreq_ts (s : State) (k : Nat) (v : Word) : (s.setFreq k v).ts = s.ts := by
  unfold State.setFreq; split <;> rfl
@[simp] theorem State.setFreq_hwN (s : State) (k : Nat) (v : Word) : (s.setFreq k v).hwN = s.hwN := by
  unfold State.setFreq; split <;> rfl
@[simp] theorem State.setFreq_esym (s : State) (k : Nat) (v : Word) : (s.setFreq k v).esym = s.esym := by
  unfold State.setFreq; split <;> rfl
@[simp] theorem State.setFreq_ej (s : State) (k : Nat) (v : Word) : (s.setFreq k v).ej = s.ej := by
  unfold State.setFreq; split <;> rfl
@[simp] theorem State.setFreq_eomf (s : State) (k : Nat) (v : Word) : (s.setFreq k v).eomf = s.eomf := by
  unfold State.setFreq; split <;> rfl
@[simp] theorem State.setFreq_pend (s : State) (k : Nat) (v : Word) : (s.setFreq k v).pend = s.pend := by
  unfold State.setFreq; split <;> rfl
@[simp] theorem State.setFreq_hleaf (s : State) (k : Nat) (v : Word) : (s.setFreq k v).hleaf = s.hleaf := by
  unfold State.setFreq; split <;> rfl
@[simp] theorem State.setFreq_cur (s : State) (k : Nat) (v : Word) : (s.setFreq k v).cur = s.cur := by
  unfold State.setFreq; split <;> rfl
@[simp] theorem State.setFreq_input (s : State) (k : Nat) (v : Word) : (s.setFreq k v).input = s.input := by
  unfold State.setFreq; split <;> rfl
@[simp] theorem State.setFreq_pos (s : State) (k : Nat) (v : Word) : (s.setFreq k v).pos = s.pos := by
  unfold State.setFreq; split <;> rfl
@[simp] theorem State.setFreq_output (s : State) (k : Nat) (v : Word) : (s.setFreq k v).output = s.output := by
  unfold State.setFreq; split <;> rfl
@[simp] theorem State.setFreq_inputAnswers (s : State) (k : Nat) (v : Word) : (s.setFreq k v).inputAnswers = s.inputAnswers := by
  unfold State.setFreq; split <;> rfl
@[simp] theorem State.setFreq_outputAnswers (s : State) (k : Nat) (v : Word) : (s.setFreq k v).outputAnswers = s.outputAnswers := by
  unfold State.setFreq; split <;> rfl
@[simp] theorem State.setFreq_resetLine (s : State) (k : Nat) (v : Word) : (s.setFreq k v).resetLine = s.resetLine := by
  unfold State.setFreq; split <;> rfl
@[simp] theorem State.setFreq_turns (s : State) (k : Nat) (v : Word) : (s.setFreq k v).turns = s.turns := by
  unfold State.setFreq; split <;> rfl
@[simp] theorem State.setFreq_answers (s : State) (k : Nat) (v : Word) : (s.setFreq k v).answers = s.answers := by
  unfold State.setFreq; split <;> rfl
@[simp] theorem State.setFreq_draws (s : State) (k : Nat) (v : Word) : (s.setFreq k v).draws = s.draws := by
  unfold State.setFreq; split <;> rfl

/-! ### setNode -/

@[simp] theorem State.setNode_ie (s : State) (i : NodeIdx) (x : Node) : (s.setNode i x).ie = s.ie := by
  unfold State.setNode; split <;> rfl
@[simp] theorem State.setNode_activeCmd (s : State) (i : NodeIdx) (x : Node) : (s.setNode i x).activeCmd = s.activeCmd := by
  unfold State.setNode; split <;> rfl
@[simp] theorem State.setNode_done (s : State) (i : NodeIdx) (x : Node) : (s.setNode i x).done = s.done := by
  unfold State.setNode; split <;> rfl
@[simp] theorem State.setNode_err (s : State) (i : NodeIdx) (x : Node) : (s.setNode i x).err = s.err := by
  unfold State.setNode; split <;> rfl
@[simp] theorem State.setNode_drop (s : State) (i : NodeIdx) (x : Node) : (s.setNode i x).drop = s.drop := by
  unfold State.setNode; split <;> rfl
@[simp] theorem State.setNode_treeValid (s : State) (i : NodeIdx) (x : Node) : (s.setNode i x).treeValid = s.treeValid := by
  unfold State.setNode; split <;> rfl
@[simp] theorem State.setNode_codesValid (s : State) (i : NodeIdx) (x : Node) : (s.setNode i x).codesValid = s.codesValid := by
  unfold State.setNode; split <;> rfl
@[simp] theorem State.setNode_treeSrc (s : State) (i : NodeIdx) (x : Node) : (s.setNode i x).treeSrc = s.treeSrc := by
  unfold State.setNode; split <;> rfl
@[simp] theorem State.setNode_errcode (s : State) (i : NodeIdx) (x : Node) : (s.setNode i x).errcode = s.errcode := by
  unfold State.setNode; split <;> rfl
@[simp] theorem State.setNode_errinfo (s : State) (i : NodeIdx) (x : Node) : (s.setNode i x).errinfo = s.errinfo := by
  unfold State.setNode; split <;> rfl
@[simp] theorem State.setNode_freqIdx (s : State) (i : NodeIdx) (x : Node) : (s.setNode i x).freqIdx = s.freqIdx := by
  unfold State.setNode; split <;> rfl
@[simp] theorem State.setNode_nodeIdx (s : State) (i : NodeIdx) (x : Node) : (s.setNode i x).nodeIdx = s.nodeIdx := by
  unfold State.setNode; split <;> rfl
@[simp] theorem State.setNode_codeIdx (s : State) (i : NodeIdx) (x : Node) : (s.setNode i x).codeIdx = s.codeIdx := by
  unfold State.setNode; split <;> rfl
@[simp] theorem State.setNode_codeWsel (s : State) (i : NodeIdx) (x : Node) : (s.setNode i x).codeWsel = s.codeWsel := by
  unfold State.setNode; split <;> rfl
@[simp] theorem State.setNode_inBits (s : State) (i : NodeIdx) (x : Node) : (s.setNode i x).inBits = s.inBits := by
  unfold State.setNode; split <;> rfl
@[simp] theorem State.setNode_outBits (s : State) (i : NodeIdx) (x : Node) : (s.setNode i x).outBits = s.outBits := by
  unfold State.setNode; split <;> rfl
@[simp] theorem State.setNode_freq (s : State) (i : NodeIdx) (x : Node) : (s.setNode i x).freq = s.freq := by
  unfold State.setNode; split <;> rfl
@[simp] theorem State.setNode_total (s : State) (i : NodeIdx) (x : Node) : (s.setNode i x).total = s.total := by
  unfold State.setNode; split <;> rfl
@[simp] theorem State.setNode_node (s : State) (i : NodeIdx) (x : Node) : (s.setNode i x).node = if i.toNat < Config.maxNodes then Memory.write Node.zero s.node i.toNat x else s.node := by
  unfold State.setNode; split <;> rfl
@[simp] theorem State.setNode_root (s : State) (i : NodeIdx) (x : Node) : (s.setNode i x).root = s.root := by
  unfold State.setNode; split <;> rfl
@[simp] theorem State.setNode_ncount (s : State) (i : NodeIdx) (x : Node) : (s.setNode i x).ncount = s.ncount := by
  unfold State.setNode; split <;> rfl
@[simp] theorem State.setNode_code (s : State) (i : NodeIdx) (x : Node) : (s.setNode i x).code = s.code := by
  unfold State.setNode; split <;> rfl
@[simp] theorem State.setNode_phase (s : State) (i : NodeIdx) (x : Node) : (s.setNode i x).phase = s.phase := by
  unfold State.setNode; split <;> rfl
@[simp] theorem State.setNode_seq (s : State) (i : NodeIdx) (x : Node) : (s.setNode i x).seq = s.seq := by
  unfold State.setNode; split <;> rfl
@[simp] theorem State.setNode_ts (s : State) (i : NodeIdx) (x : Node) : (s.setNode i x).ts = s.ts := by
  unfold State.setNode; split <;> rfl
@[simp] theorem State.setNode_hwN (s : State) (i : NodeIdx) (x : Node) : (s.setNode i x).hwN = s.hwN := by
  unfold State.setNode; split <;> rfl
@[simp] theorem State.setNode_esym (s : State) (i : NodeIdx) (x : Node) : (s.setNode i x).esym = s.esym := by
  unfold State.setNode; split <;> rfl
@[simp] theorem State.setNode_ej (s : State) (i : NodeIdx) (x : Node) : (s.setNode i x).ej = s.ej := by
  unfold State.setNode; split <;> rfl
@[simp] theorem State.setNode_eomf (s : State) (i : NodeIdx) (x : Node) : (s.setNode i x).eomf = s.eomf := by
  unfold State.setNode; split <;> rfl
@[simp] theorem State.setNode_pend (s : State) (i : NodeIdx) (x : Node) : (s.setNode i x).pend = s.pend := by
  unfold State.setNode; split <;> rfl
@[simp] theorem State.setNode_hleaf (s : State) (i : NodeIdx) (x : Node) : (s.setNode i x).hleaf = s.hleaf := by
  unfold State.setNode; split <;> rfl
@[simp] theorem State.setNode_cur (s : State) (i : NodeIdx) (x : Node) : (s.setNode i x).cur = s.cur := by
  unfold State.setNode; split <;> rfl
@[simp] theorem State.setNode_input (s : State) (i : NodeIdx) (x : Node) : (s.setNode i x).input = s.input := by
  unfold State.setNode; split <;> rfl
@[simp] theorem State.setNode_pos (s : State) (i : NodeIdx) (x : Node) : (s.setNode i x).pos = s.pos := by
  unfold State.setNode; split <;> rfl
@[simp] theorem State.setNode_output (s : State) (i : NodeIdx) (x : Node) : (s.setNode i x).output = s.output := by
  unfold State.setNode; split <;> rfl
@[simp] theorem State.setNode_inputAnswers (s : State) (i : NodeIdx) (x : Node) : (s.setNode i x).inputAnswers = s.inputAnswers := by
  unfold State.setNode; split <;> rfl
@[simp] theorem State.setNode_outputAnswers (s : State) (i : NodeIdx) (x : Node) : (s.setNode i x).outputAnswers = s.outputAnswers := by
  unfold State.setNode; split <;> rfl
@[simp] theorem State.setNode_resetLine (s : State) (i : NodeIdx) (x : Node) : (s.setNode i x).resetLine = s.resetLine := by
  unfold State.setNode; split <;> rfl
@[simp] theorem State.setNode_turns (s : State) (i : NodeIdx) (x : Node) : (s.setNode i x).turns = s.turns := by
  unfold State.setNode; split <;> rfl
@[simp] theorem State.setNode_answers (s : State) (i : NodeIdx) (x : Node) : (s.setNode i x).answers = s.answers := by
  unfold State.setNode; split <;> rfl
@[simp] theorem State.setNode_draws (s : State) (i : NodeIdx) (x : Node) : (s.setNode i x).draws = s.draws := by
  unfold State.setNode; split <;> rfl

/-! ### finish -/

@[simp] theorem State.finish_ie (s : State) : (s.finish).ie = s.ie := by
  unfold State.finish; split <;> rfl
@[simp] theorem State.finish_activeCmd (s : State) : (s.finish).activeCmd = s.activeCmd := by
  unfold State.finish; split <;> rfl
@[simp] theorem State.finish_err (s : State) : (s.finish).err = s.err := by
  unfold State.finish; split <;> rfl
@[simp] theorem State.finish_drop (s : State) : (s.finish).drop = s.drop := by
  unfold State.finish; split <;> rfl
@[simp] theorem State.finish_treeValid (s : State) : (s.finish).treeValid = s.treeValid := by
  unfold State.finish; split <;> rfl
@[simp] theorem State.finish_codesValid (s : State) : (s.finish).codesValid = s.codesValid := by
  unfold State.finish; split <;> rfl
@[simp] theorem State.finish_treeSrc (s : State) : (s.finish).treeSrc = s.treeSrc := by
  unfold State.finish; split <;> rfl
@[simp] theorem State.finish_errcode (s : State) : (s.finish).errcode = s.errcode := by
  unfold State.finish; split <;> rfl
@[simp] theorem State.finish_errinfo (s : State) : (s.finish).errinfo = s.errinfo := by
  unfold State.finish; split <;> rfl
@[simp] theorem State.finish_freqIdx (s : State) : (s.finish).freqIdx = s.freqIdx := by
  unfold State.finish; split <;> rfl
@[simp] theorem State.finish_nodeIdx (s : State) : (s.finish).nodeIdx = s.nodeIdx := by
  unfold State.finish; split <;> rfl
@[simp] theorem State.finish_codeIdx (s : State) : (s.finish).codeIdx = s.codeIdx := by
  unfold State.finish; split <;> rfl
@[simp] theorem State.finish_codeWsel (s : State) : (s.finish).codeWsel = s.codeWsel := by
  unfold State.finish; split <;> rfl
@[simp] theorem State.finish_inBits (s : State) : (s.finish).inBits = s.inBits := by
  unfold State.finish; split <;> rfl
@[simp] theorem State.finish_outBits (s : State) : (s.finish).outBits = s.outBits := by
  unfold State.finish; split <;> rfl
@[simp] theorem State.finish_freq (s : State) : (s.finish).freq = s.freq := by
  unfold State.finish; split <;> rfl
@[simp] theorem State.finish_total (s : State) : (s.finish).total = s.total := by
  unfold State.finish; split <;> rfl
@[simp] theorem State.finish_node (s : State) : (s.finish).node = s.node := by
  unfold State.finish; split <;> rfl
@[simp] theorem State.finish_root (s : State) : (s.finish).root = s.root := by
  unfold State.finish; split <;> rfl
@[simp] theorem State.finish_ncount (s : State) : (s.finish).ncount = s.ncount := by
  unfold State.finish; split <;> rfl
@[simp] theorem State.finish_code (s : State) : (s.finish).code = s.code := by
  unfold State.finish; split <;> rfl
@[simp] theorem State.finish_ts (s : State) : (s.finish).ts = s.ts := by
  unfold State.finish; split <;> rfl
@[simp] theorem State.finish_hwN (s : State) : (s.finish).hwN = s.hwN := by
  unfold State.finish; split <;> rfl
@[simp] theorem State.finish_esym (s : State) : (s.finish).esym = s.esym := by
  unfold State.finish; split <;> rfl
@[simp] theorem State.finish_ej (s : State) : (s.finish).ej = s.ej := by
  unfold State.finish; split <;> rfl
@[simp] theorem State.finish_eomf (s : State) : (s.finish).eomf = s.eomf := by
  unfold State.finish; split <;> rfl
@[simp] theorem State.finish_pend (s : State) : (s.finish).pend = s.pend := by
  unfold State.finish; split <;> rfl
@[simp] theorem State.finish_hleaf (s : State) : (s.finish).hleaf = s.hleaf := by
  unfold State.finish; split <;> rfl
@[simp] theorem State.finish_cur (s : State) : (s.finish).cur = s.cur := by
  unfold State.finish; split <;> rfl
@[simp] theorem State.finish_input (s : State) : (s.finish).input = s.input := by
  unfold State.finish; split <;> rfl
@[simp] theorem State.finish_pos (s : State) : (s.finish).pos = s.pos := by
  unfold State.finish; split <;> rfl
@[simp] theorem State.finish_output (s : State) : (s.finish).output = s.output := by
  unfold State.finish; split <;> rfl
@[simp] theorem State.finish_inputAnswers (s : State) : (s.finish).inputAnswers = s.inputAnswers := by
  unfold State.finish; split <;> rfl
@[simp] theorem State.finish_outputAnswers (s : State) : (s.finish).outputAnswers = s.outputAnswers := by
  unfold State.finish; split <;> rfl
@[simp] theorem State.finish_resetLine (s : State) : (s.finish).resetLine = s.resetLine := by
  unfold State.finish; split <;> rfl
@[simp] theorem State.finish_turns (s : State) : (s.finish).turns = s.turns := by
  unfold State.finish; split <;> rfl
@[simp] theorem State.finish_answers (s : State) : (s.finish).answers = s.answers := by
  unfold State.finish; split <;> rfl
@[simp] theorem State.finish_draws (s : State) : (s.finish).draws = s.draws := by
  unfold State.finish; split <;> rfl

/-! ### resetBlock -/

@[simp] theorem State.resetBlock_ie (s : State) : (s.resetBlock).ie = State.reset.ie := rfl
@[simp] theorem State.resetBlock_activeCmd (s : State) : (s.resetBlock).activeCmd = State.reset.activeCmd := rfl
@[simp] theorem State.resetBlock_done (s : State) : (s.resetBlock).done = State.reset.done := rfl
@[simp] theorem State.resetBlock_err (s : State) : (s.resetBlock).err = State.reset.err := rfl
@[simp] theorem State.resetBlock_drop (s : State) : (s.resetBlock).drop = State.reset.drop := rfl
@[simp] theorem State.resetBlock_treeValid (s : State) : (s.resetBlock).treeValid = State.reset.treeValid := rfl
@[simp] theorem State.resetBlock_codesValid (s : State) : (s.resetBlock).codesValid = State.reset.codesValid := rfl
@[simp] theorem State.resetBlock_treeSrc (s : State) : (s.resetBlock).treeSrc = State.reset.treeSrc := rfl
@[simp] theorem State.resetBlock_errcode (s : State) : (s.resetBlock).errcode = State.reset.errcode := rfl
@[simp] theorem State.resetBlock_errinfo (s : State) : (s.resetBlock).errinfo = State.reset.errinfo := rfl
@[simp] theorem State.resetBlock_freqIdx (s : State) : (s.resetBlock).freqIdx = State.reset.freqIdx := rfl
@[simp] theorem State.resetBlock_nodeIdx (s : State) : (s.resetBlock).nodeIdx = State.reset.nodeIdx := rfl
@[simp] theorem State.resetBlock_codeIdx (s : State) : (s.resetBlock).codeIdx = State.reset.codeIdx := rfl
@[simp] theorem State.resetBlock_codeWsel (s : State) : (s.resetBlock).codeWsel = State.reset.codeWsel := rfl
@[simp] theorem State.resetBlock_inBits (s : State) : (s.resetBlock).inBits = State.reset.inBits := rfl
@[simp] theorem State.resetBlock_outBits (s : State) : (s.resetBlock).outBits = State.reset.outBits := rfl
@[simp] theorem State.resetBlock_freq (s : State) : (s.resetBlock).freq = State.reset.freq := rfl
@[simp] theorem State.resetBlock_total (s : State) : (s.resetBlock).total = State.reset.total := rfl
@[simp] theorem State.resetBlock_node (s : State) : (s.resetBlock).node = State.reset.node := rfl
@[simp] theorem State.resetBlock_root (s : State) : (s.resetBlock).root = State.reset.root := rfl
@[simp] theorem State.resetBlock_ncount (s : State) : (s.resetBlock).ncount = State.reset.ncount := rfl
@[simp] theorem State.resetBlock_code (s : State) : (s.resetBlock).code = State.reset.code := rfl
@[simp] theorem State.resetBlock_phase (s : State) : (s.resetBlock).phase = State.reset.phase := rfl
@[simp] theorem State.resetBlock_seq (s : State) : (s.resetBlock).seq = State.reset.seq := rfl
@[simp] theorem State.resetBlock_ts (s : State) : (s.resetBlock).ts = State.reset.ts := rfl
@[simp] theorem State.resetBlock_hwN (s : State) : (s.resetBlock).hwN = State.reset.hwN := rfl
@[simp] theorem State.resetBlock_esym (s : State) : (s.resetBlock).esym = State.reset.esym := rfl
@[simp] theorem State.resetBlock_ej (s : State) : (s.resetBlock).ej = State.reset.ej := rfl
@[simp] theorem State.resetBlock_eomf (s : State) : (s.resetBlock).eomf = State.reset.eomf := rfl
@[simp] theorem State.resetBlock_pend (s : State) : (s.resetBlock).pend = State.reset.pend := rfl
@[simp] theorem State.resetBlock_hleaf (s : State) : (s.resetBlock).hleaf = State.reset.hleaf := rfl
@[simp] theorem State.resetBlock_cur (s : State) : (s.resetBlock).cur = State.reset.cur := rfl
@[simp] theorem State.resetBlock_input (s : State) : (s.resetBlock).input = s.input := rfl
@[simp] theorem State.resetBlock_pos (s : State) : (s.resetBlock).pos = s.pos := rfl
@[simp] theorem State.resetBlock_output (s : State) : (s.resetBlock).output = s.output := rfl
@[simp] theorem State.resetBlock_inputAnswers (s : State) : (s.resetBlock).inputAnswers = s.inputAnswers := rfl
@[simp] theorem State.resetBlock_outputAnswers (s : State) : (s.resetBlock).outputAnswers = s.outputAnswers := rfl
@[simp] theorem State.resetBlock_resetLine (s : State) : (s.resetBlock).resetLine = s.resetLine := rfl
@[simp] theorem State.resetBlock_turns (s : State) : (s.resetBlock).turns = s.turns := rfl
@[simp] theorem State.resetBlock_answers (s : State) : (s.resetBlock).answers = s.answers := rfl
@[simp] theorem State.resetBlock_draws (s : State) : (s.resetBlock).draws = s.draws := rfl

end Sys2Proof.Machine
end

