-- ==== Sys2Proof/Laws/Ops.lean ====
section
/-! SUPPORT. What each shared operation can do, once: RD's answer, the memories' accessors, the sequencer. -/

namespace Sys2Proof.Machine

/-! ### RD -/

/-- R57: RD(n) answers a value exactly when n bits remain, and its bits are the next n of the stream. -/
theorem State.peek_eq_some {s : State} {n : Nat} {v : BitVec n} :
    s.peek n = some v ↔ s.pos + n ≤ s.input.length ∧ (s.input.drop s.pos).take n = bitsOf v := by
  unfold State.peek
  by_cases h : s.pos + n ≤ s.input.length
  · have hl : ((s.input.drop s.pos).take n).length = n := by simp; omega
    simp only [h, if_true, Option.some.injEq, true_and]
    constructor
    · intro e; rw [← e, bitsOf_fieldOfBits hl]
    · intro e; rw [e, fieldOfBits_bitsOf]
  · simp [h]

/-- R57: RD(n) answers EOF exactly when fewer than n bits remain. -/
theorem State.peek_eq_none {s : State} {n : Nat} : s.peek n = none ↔ s.input.length < s.pos + n := by
  unfold State.peek
  by_cases h : s.pos + n ≤ s.input.length
  · simp [h]
  · simp [h]; omega

/-- The field that stands next in the stream is what RD answers. -/
theorem State.peek_of_drop {s : State} {n : Nat} (hn : 0 < n) {v : BitVec n} {rest : List Bool}
    (h : s.input.drop s.pos = bitsOf v ++ rest) : s.peek n = some v := by
  have hl := congrArg List.length h
  simp at hl
  exact State.peek_eq_some.mpr ⟨by omega, by rw [h]; simp⟩

theorem State.drop_advance {s : State} {n : Nat} {v : BitVec n} {rest : List Bool}
    (h : s.input.drop s.pos = bitsOf v ++ rest) : (s.advance n).input.drop (s.advance n).pos = rest := by
  simp only [State.advance_input, State.advance_pos]
  rw [← List.drop_drop, h, List.drop_append_of_le_length (by simp)]
  simp

/-- RD depends on the stream and the position alone. -/
theorem State.peek_congr {s t : State} (hi : t.input = s.input) (hp : t.pos = s.pos) (n : Nat) : t.peek n = s.peek n := by
  unfold State.peek; rw [hi, hp]

/-! ### The memories -/

theorem State.memoryOk_iff {s : State} : s.memoryOk = true ↔
    (Memory.wf 0#32 256 s.freq = true ∧ Memory.wf Node.zero Config.maxNodes s.node = true) ∧
      Memory.wf Code.none Config.nsym s.code = true := by
  simp [State.memoryOk]

/-- The canonical form depends on the three memories alone. -/
theorem State.memoryOk_congr {s t : State} (hf : t.freq = s.freq) (hn : t.node = s.node) (hc : t.code = s.code) :
    t.memoryOk = s.memoryOk := by
  unfold State.memoryOk; rw [hf, hn, hc]

theorem State.memoryOk_reset : State.reset.memoryOk = true := by decide

theorem State.memoryOk_setFreq {s : State} (h : s.memoryOk = true) (k : Nat) (v : Word) : (s.setFreq k v).memoryOk = true := by
  rw [State.memoryOk_iff] at h ⊢
  simp only [State.setFreq_freq, State.setFreq_node, State.setFreq_code]
  refine ⟨⟨?_, h.1.2⟩, h.2⟩
  split
  · exact Memory.wf_write h.1.1 v ‹_›
  · exact h.1.1

theorem State.memoryOk_setNode {s : State} (h : s.memoryOk = true) (i : NodeIdx) (x : Node) :
    (s.setNode i x).memoryOk = true := by
  rw [State.memoryOk_iff] at h ⊢
  simp only [State.setNode_freq, State.setNode_node, State.setNode_code]
  refine ⟨⟨h.1.1, ?_⟩, h.2⟩
  split
  · exact Memory.wf_write h.1.2 x ‹_›
  · exact h.1.2

theorem State.memoryOk_clearTable {s : State} (h : s.memoryOk = true) : s.clearTable.memoryOk = true := by
  rw [State.memoryOk_iff] at h ⊢
  simp only [State.clearTable_freq, State.clearTable_node, State.clearTable_code]
  exact ⟨⟨rfl, h.1.2⟩, h.2⟩

theorem wf_writeCode {t : Memory Code} (h : Memory.wf Code.none Config.nsym t = true) (sym : Symbol) (p : List Bool) :
    Memory.wf Code.none Config.nsym (writeCode t sym p) = true := by
  unfold writeCode
  split
  · exact Memory.wf_write h _ ‹_›
  · exact h

theorem wf_walkCodes (m : Memory Node) : ∀ (levels : Nat) (n : NodeIdx) (p : List Bool) {t : Memory Code},
    Memory.wf Code.none Config.nsym t = true → Memory.wf Code.none Config.nsym (walkCodes m levels n p t) = true
  | 0, _, _, _, h => h
  | levels + 1, n, p, t, h => by
    unfold walkCodes
    dsimp only
    split
    · exact wf_writeCode h _ _
    · exact wf_walkCodes m levels _ _ (wf_walkCodes m levels _ _ h)

/-- R25: FREQ[k] after a write. -/
theorem State.freqAt_setFreq {s : State} (h : s.memoryOk = true) (k : Nat) (v : Word) (j : Nat) :
    (s.setFreq k v).freqAt j = if j = k ∧ k < 256 then v else s.freqAt j := by
  have hw := (State.memoryOk_iff.mp h).1.1
  unfold State.freqAt
  rw [State.setFreq_freq]
  by_cases hk : k < 256
  · rw [if_pos hk, Memory.read_write_wf hw]
    by_cases hj : j = k
    · subst hj; simp [hk]
    · simp [hj]
  · simp [hk]

/-- R25: FREQ[256] is 1 in every state. -/
@[simp] theorem State.freqAt_eom (s : State) : s.freqAt 256 = 1#32 := rfl

/-- R27: NODE[i] after a write. -/
theorem State.nodeAt_setNode {s : State} (h : s.memoryOk = true) (i : NodeIdx) (x : Node) (j : NodeIdx) :
    (s.setNode i x).nodeAt j = if j = i ∧ i.toNat < Config.maxNodes then x else s.nodeAt j := by
  have hw := (State.memoryOk_iff.mp h).1.2
  unfold State.nodeAt
  rw [State.setNode_node]
  by_cases hi : i.toNat < Config.maxNodes
  · rw [if_pos hi, Memory.read_write_wf hw]
    by_cases hj : j = i
    · subst hj; simp [hi]
    · have : ¬ j.toNat = i.toNat := fun e => hj (BitVec.eq_of_toNat_eq e)
      simp [hj, this]
  · simp [hi]

/-! ### The sequencer -/

/-- R100: the two ends of an engine. -/
theorem State.finish_cases (s : State) :
    (∃ e, (engines s.activeCmd)[s.seq.toNat + 1]? = some e ∧ s.finish = { s with seq := s.seq + 1#3, phase := e.first }) ∨
      ((engines s.activeCmd)[s.seq.toNat + 1]? = none ∧ s.finish = { s with phase := .idle, done := true }) := by
  unfold State.finish
  cases h : (engines s.activeCmd)[s.seq.toNat + 1]? with
  | none => exact .inr ⟨rfl, rfl⟩
  | some e => exact .inl ⟨e, rfl, rfl⟩

/-- R95, R96, R160: the four things a write to CMD can do. -/
theorem State.dispatch_cases (s : State) (op : BitVec 8) :
    (s.busy = true ∧ s.dispatch op = { s with drop := true }) ∨
      (s.busy = false ∧ engines op = [] ∧
        s.dispatch op = (s.beginDispatch op).dispatchError .illegalCmd (op.setWidth 32)) ∨
      (s.busy = false ∧ engines op ≠ [] ∧ s.needs op = false ∧
        s.dispatch op = (s.beginDispatch op).dispatchError .notReady (op.setWidth 32)) ∨
      (s.busy = false ∧ s.needs op = true ∧ ∃ e es, engines op = e :: es ∧
        s.dispatch op = { s.beginDispatch op with seq := 0#3, phase := e.first }) := by
  unfold State.dispatch
  cases hb : s.busy with
  | true => exact .inl ⟨rfl, rfl⟩
  | false =>
    cases he : engines op with
    | nil => exact .inr (.inl ⟨rfl, rfl, rfl⟩)
    | cons e es =>
      cases hn : s.needs op with
      | false => exact .inr (.inr (.inl ⟨rfl, by simp, rfl, by simp⟩))
      | true => exact .inr (.inr (.inr ⟨rfl, rfl, e, es, rfl, by simp⟩))

/-- R41: the first phase of an engine is a phase of it. -/
@[simp] theorem Engine.first_engine (e : Engine) : e.first.engine = some e := by cases e <;> rfl

/-- R41: a phase of an engine is not IDLE. -/
theorem Phase.engine_eq_none {p : Phase} : p.engine = none ↔ p = .idle := by cases p <;> simp [Phase.engine]

end Sys2Proof.Machine
end

