-- ==== Sys2Proof/Laws/Step.lean ====
section
/-! SUPPORT. What a step can do, once: a core turn is the action of the phase or nothing; in a quiet state every step is the core's;
a step that answers a next state is one of the turns. -/

namespace Sys2Proof.Machine

/-- A header token that stands at the port runs as the core step of its phase. -/
theorem exec_headerToken {s : State} {i : Instr} (h : s.headerToken = some i) : exec i s = .next (phaseStep s) := by
  have h0 := h
  unfold State.headerToken at h
  cases hp : s.phase <;> simp only [hp] at h <;> try contradiction
  · split at h
    · exact absurd h (by simp)
    · unfold decode at h
      dsimp only at h
      cases hd : decodeToken (s.input.drop s.pos) with
      | error e => rw [hd] at h; exact absurd h (by simp [Except.map, Except.toOption])
      | ok r =>
        rw [hd] at h
        simp only [Except.map, Except.toOption, Option.some.injEq] at h
        unfold decodeToken at hd
        split at hd
        · exact absurd hd (by simp)
        · obtain ⟨rfl⟩ := hd; subst h
          simp [exec, execHdrInternal, h0, phaseStep, hp]
        · split at hd
          · obtain ⟨rfl⟩ := hd; subst h
            simp [exec, execHdrLeaf, h0, phaseStep, hp]
          · exact absurd hd (by simp)
  · cases hk : s.peek 9 with
    | none => rw [hk] at h; exact absurd h (by simp)
    | some v =>
      rw [hk] at h
      simp only [Option.map_some, Option.some.injEq] at h
      subst h
      simp [exec, execHdrLeaf, h0, phaseStep, hp]

/-- R94, R68: the core's turn never stops the machine. -/
theorem coreTurn_eq (s : State) :
    coreTurn s = .next (if s.resetLine || !s.busy || s.blocked then s else phaseStep s) := by
  unfold coreTurn
  split
  · rfl
  · split
    · exact exec_headerToken ‹_›
    · rfl

/-- What no core step changes: the host's registers, the input stream, the ports' readiness, the reset input, the schedule and
the host's answers. -/
structure SameOutside (s t : State) : Prop where
  ie : t.ie = s.ie
  activeCmd : t.activeCmd = s.activeCmd
  drop : t.drop = s.drop
  freqIdx : t.freqIdx = s.freqIdx
  nodeIdx : t.nodeIdx = s.nodeIdx
  codeIdx : t.codeIdx = s.codeIdx
  codeWsel : t.codeWsel = s.codeWsel
  input : t.input = s.input
  inputAnswers : t.inputAnswers = s.inputAnswers
  outputAnswers : t.outputAnswers = s.outputAnswers
  resetLine : t.resetLine = s.resetLine
  turns : t.turns = s.turns
  answers : t.answers = s.answers

theorem State.fillSlot_outside (s : State) (sl : Slot) (i : NodeIdx) : SameOutside s (s.fillSlot sl i) := by
  cases sl <;> constructor <;> simp [State.fillSlot]

theorem phaseStep_outside (s : State) : SameOutside s (phaseStep s) := by
  have hf : ∀ (u : State) (sl : Slot), SameOutside u (u.fillSlot sl u.ncount) := fun u sl => u.fillSlot_outside sl _
  unfold phaseStep
  cases hp : s.phase <;> dsimp only
  case idle => constructor <;> rfl
  case nopRun => unfold nopRun; constructor <;> simp
  case fcClear => unfold fcClear; constructor <;> simp
  case faInit => unfold faInit; constructor <;> simp
  case faRead =>
    unfold faRead
    split
    · constructor <;> simp
    · split <;> constructor <;> simp [countByte]
  case tbBuild => unfold tbBuild; dsimp only; split <;> constructor <;> simp
  case cgGen => unfold cgGen; constructor <;> simp
  case hwMagic => unfold hwMagic; constructor <;> simp
  case hwWalk =>
    unfold hwWalk
    split
    · constructor <;> simp
    · split <;> constructor <;> simp
  case hwSym => unfold hwSym; constructor <;> simp
  case enRewind => unfold enRewind; constructor <;> simp
  case enRead => unfold enRead lookUp; split <;> split <;> constructor <;> simp
  case enBits =>
    unfold enBits
    dsimp only
    split
    · constructor <;> simp
    · split <;> constructor <;> simp
  case enClose => unfold enClose; constructor <;> simp
  case hrMagic =>
    unfold hrMagic
    dsimp only
    split
    · constructor <;> simp
    · split <;> constructor <;> simp
  case hrBit =>
    unfold hrBit
    split
    · constructor <;> simp
    · split
      · constructor <;> simp
      · split
        · constructor <;> simp
        · rename_i slot rest _ _ _ _ _
          have h := hf (s.advance 1) slot
          obtain ⟨h1, h2, h3, h4, h5, h6, h7, h8, h9, h10, h11, h12, h13⟩ := h
          split <;> constructor <;> simp_all [parseInternal, parseLeaf, State.startNode]
  case hrSym => unfold hrSym; split <;> constructor <;> simp
  case deStart =>
    unfold deStart
    split
    · split <;> constructor <;> simp
    · constructor <;> simp
  case deBit =>
    unfold deBit
    split <;> constructor <;> simp
  case deEmit => unfold deEmit; constructor <;> simp
  case deClose => unfold deClose; constructor <;> simp

theorem State.quiet_iff {s : State} : s.quiet = true ↔
    ((s.turns = [] ∧ s.resetLine = false) ∧ s.inputAnswers = true) ∧ s.outputAnswers = true := by
  simp [State.quiet]

theorem phaseStep_quiet {s : State} (h : s.quiet = true) : (phaseStep s).quiet = true := by
  have o := phaseStep_outside s
  rw [State.quiet_iff] at h ⊢
  rw [o.turns, o.resetLine, o.inputAnswers, o.outputAnswers]
  exact h

theorem State.not_blocked {s : State} (h : s.quiet = true) : s.blocked = false := by
  rw [State.quiet_iff] at h
  unfold State.blocked
  split <;> simp [h.1.2, h.2]

/-- In a quiet state the step is the core's (in IDLE: nothing happens). -/
theorem step_quiet {s : State} (h : s.quiet = true) : step s = .next (phaseStep s) := by
  have hq := State.quiet_iff.mp h
  unfold step
  rw [hq.1.1.1]
  simp only [coreTurn_eq, hq.1.1.2, State.not_blocked h, Bool.false_or, Bool.or_false]
  by_cases hi : s.phase = .idle
  · simp [State.busy, hi, phaseStep]
  · simp [State.busy, hi]

theorem after_zero {s t : State} : After 0 s t ↔ t = s :=
  ⟨fun h => by cases h; rfl, fun h => by subst h; rfl⟩

theorem after_succ {k : Nat} {s t u : State} (h : step s = .next u) : After (k + 1) s t ↔ After k u t := by
  have e := Host.Core.run.eq_2 Sys2Proof.core s k
  have h' : Sys2Proof.core.step s = .next u := h
  rw [h'] at e
  unfold After
  rw [show Sys2Proof.core.run (k + 1) s = Sys2Proof.core.run k u from e]

/-- Runs of a quiet machine are iterated core steps. -/
theorem after_iff : ∀ {k : Nat} {s t : State}, s.quiet = true → (After k s t ↔ t = phaseStep^[k] s)
  | 0, _, _, _ => after_zero
  | k + 1, s, t, h => by
    rw [after_succ (step_quiet h), after_iff (phaseStep_quiet h), Function.iterate_succ_apply]

theorem after_iterate {k : Nat} {s : State} (h : s.quiet = true) : After k s (phaseStep^[k] s) := (after_iff h).mpr rfl

/-- Runs compose. -/
theorem after_add {k l : Nat} {s t u : State} (hs : s.quiet = true) (h1 : After k s t) (h2 : After l t u) :
    After (l + k) s u := by
  have e := (after_iff hs).mp h1
  have ht : t.quiet = true := by
    subst e
    clear h1 h2
    induction k generalizing s with
    | zero => exact hs
    | succ k ih => rw [Function.iterate_succ_apply]; exact ih (phaseStep_quiet hs)
  have e2 := (after_iff ht).mp h2
  rw [after_iff hs, Function.iterate_add_apply, ← e, ← e2]

/-- What a step can do: with no turn to come the core's turn, else the turn at the head of the schedule. -/
theorem step_cases {s t : State} (h : step s = .next t) :
    (s.turns = [] ∧ coreTurn s = .next t) ∨
      ∃ u rest, s.turns = u :: rest ∧ takeTurn { s with turns := rest } u = .next t := by
  unfold step at h
  cases ht : s.turns with
  | nil => rw [ht] at h; exact .inl ⟨rfl, h⟩
  | cons u rest => rw [ht] at h; exact .inr ⟨u, rest, rfl, h⟩

/-- A defined bus write and the instruction it decodes to have the same effect: the register's (R31 to R34). -/
theorem runAccess_write (s : State) (off : BitVec 8) (size : AccessSize) (v : Word) :
    runAccess s (.write off size v) = .next (s.busWrite off v) := by
  unfold runAccess
  dsimp only
  unfold decode
  by_cases h4 : off = 0x04#8
  · subst h4
    have hb : s.busWrite 0x04#8 v = s.dispatch (v.setWidth 8) := rfl
    rw [hb]
    simp only [if_true]
    unfold decodeCmd
    have hop : ∀ k : Nat, (v.setWidth 8).toNat = k → v.setWidth 8 = BitVec.ofNat 8 k := fun k hk =>
      BitVec.eq_of_toNat_eq (by rw [← hk]; simp)
    split <;> rename_i heq
    · split at heq
      all_goals (cases heq; try (rename_i hn; rw [hop _ hn]; rfl))
    · rfl
  · by_cases h0 : off = 0x00#8
    · subst h0
      have hb : s.busWrite 0x00#8 v = s.writeCtrl v := rfl
      rw [hb]
      simp only [h4, if_false, if_true]
      unfold decodeCtrl State.writeCtrl
      by_cases hv : v.getLsbD 0 = true
      · simp only [hv, if_true]; rfl
      · rw [if_neg hv, if_neg hv]
    · simp only [h4, h0, if_false]

end Sys2Proof.Machine
end

