-- ==== Sys2Proof/Laws/Operands.lean ====
section
/-! SUPPORT. The fields of the words the host reads, and a host access as the register's read or write. -/

namespace Sys2Proof.Machine

/-! ### Fields of a concatenation -/

theorem extract_append_lo {m n : Nat} (a : BitVec m) (b : BitVec n) (k l : Nat) (h : k + l ≤ n) :
    (a ++ b).extractLsb' k l = b.extractLsb' k l := by
  ext i hi
  simp only [BitVec.getElem_extractLsb', BitVec.getLsbD_append]
  rw [if_pos (by omega)]

theorem extract_append_hi {m n : Nat} (a : BitVec m) (b : BitVec n) (k l : Nat) :
    (a ++ b).extractLsb' (n + k) l = a.extractLsb' k l := by
  ext i hi
  simp only [BitVec.getElem_extractLsb', BitVec.getLsbD_append]
  rw [if_neg (by omega), show n + k + i - n = k + i by omega]

theorem bit_append_lo {m n : Nat} (a : BitVec m) (b : BitVec n) (k : Nat) (h : k < n) :
    (a ++ b).getLsbD k = b.getLsbD k := by
  rw [BitVec.getLsbD_append, if_pos h]

theorem bit_append_hi {m n : Nat} (a : BitVec m) (b : BitVec n) (k : Nat) :
    (a ++ b).getLsbD (n + k) = a.getLsbD k := by
  rw [BitVec.getLsbD_append, if_neg (by omega), Nat.add_sub_cancel_left]

theorem extract_all {n : Nat} (a : BitVec n) : a.extractLsb' 0 n = a := by
  simp

@[simp] theorem bit_ofBool (b : Bool) : (BitVec.ofBool b).getLsbD 0 = b := by cases b <;> rfl

/-! ### NODE_LINK (R44), CODE_LEN (R47), TREE_INFO (R45) -/

theorem Node.linkWord_left (n : Node) : n.linkWord.extractLsb' 0 10 = n.left :=
  (extract_append_lo (BitVec.ofBool n.leaf ++ 0#2 ++ n.sym ++ n.right) n.left 0 10 (by decide)).trans (extract_all _)

theorem Node.linkWord_right (n : Node) : n.linkWord.extractLsb' 10 10 = n.right :=
  (extract_append_hi (BitVec.ofBool n.leaf ++ 0#2 ++ n.sym ++ n.right) n.left 0 10).trans
    ((extract_append_lo (BitVec.ofBool n.leaf ++ 0#2 ++ n.sym) n.right 0 10 (by decide)).trans (extract_all _))

theorem Node.linkWord_sym (n : Node) : n.linkWord.extractLsb' 20 9 = n.sym :=
  (extract_append_hi (BitVec.ofBool n.leaf ++ 0#2 ++ n.sym ++ n.right) n.left 10 9).trans
    ((extract_append_hi (BitVec.ofBool n.leaf ++ 0#2 ++ n.sym) n.right 0 9).trans
      ((extract_append_lo (BitVec.ofBool n.leaf ++ 0#2) n.sym 0 9 (by decide)).trans (extract_all _)))

theorem Node.linkWord_reserved (n : Node) : n.linkWord.extractLsb' 29 2 = 0#2 :=
  (extract_append_hi (BitVec.ofBool n.leaf ++ 0#2 ++ n.sym ++ n.right) n.left 19 2).trans
    ((extract_append_hi (BitVec.ofBool n.leaf ++ 0#2 ++ n.sym) n.right 9 2).trans
      ((extract_append_hi (BitVec.ofBool n.leaf ++ 0#2) n.sym 0 2).trans
        ((extract_append_lo (BitVec.ofBool n.leaf) 0#2 0 2 (by decide)).trans (extract_all _))))

theorem Node.linkWord_leaf (n : Node) : n.linkWord.getLsbD 31 = n.leaf :=
  (bit_append_hi (BitVec.ofBool n.leaf ++ 0#2 ++ n.sym ++ n.right) n.left 21).trans
    ((bit_append_hi (BitVec.ofBool n.leaf ++ 0#2 ++ n.sym) n.right 11).trans
      ((bit_append_hi (BitVec.ofBool n.leaf ++ 0#2) n.sym 2).trans
        ((bit_append_hi (BitVec.ofBool n.leaf) 0#2 0).trans (bit_ofBool _))))

theorem Code.lenWord_len (c : Code) : c.lenWord.extractLsb' 0 9 = c.len :=
  (extract_append_lo (BitVec.ofBool c.valid ++ 0#22) c.len 0 9 (by decide)).trans (extract_all _)

theorem Code.lenWord_reserved (c : Code) : c.lenWord.extractLsb' 9 22 = 0#22 :=
  (extract_append_hi (BitVec.ofBool c.valid ++ 0#22) c.len 0 22).trans
    ((extract_append_lo (BitVec.ofBool c.valid) 0#22 0 22 (by decide)).trans (extract_all _))

theorem Code.lenWord_valid (c : Code) : c.lenWord.getLsbD 31 = c.valid :=
  (bit_append_hi (BitVec.ofBool c.valid ++ 0#22) c.len 22).trans
    ((bit_append_hi (BitVec.ofBool c.valid) 0#22 0).trans (bit_ofBool _))

theorem State.treeInfoWord_root (s : State) : s.treeInfoWord.extractLsb' 0 10 = s.root :=
  (extract_append_lo (0#6 ++ s.ncount ++ 0#6) s.root 0 10 (by decide)).trans (extract_all _)

theorem State.treeInfoWord_low_reserved (s : State) : s.treeInfoWord.extractLsb' 10 6 = 0#6 :=
  (extract_append_hi (0#6 ++ s.ncount ++ 0#6) s.root 0 6).trans
    ((extract_append_lo (0#6 ++ s.ncount) 0#6 0 6 (by decide)).trans (extract_all _))

theorem State.treeInfoWord_ncount (s : State) : s.treeInfoWord.extractLsb' 16 10 = s.ncount :=
  (extract_append_hi (0#6 ++ s.ncount ++ 0#6) s.root 6 10).trans
    ((extract_append_hi (0#6 ++ s.ncount) 0#6 0 10).trans
      ((extract_append_lo 0#6 s.ncount 0 10 (by decide)).trans (extract_all _)))

theorem State.treeInfoWord_high_reserved (s : State) : s.treeInfoWord.extractLsb' 26 6 = 0#6 :=
  (extract_append_hi (0#6 ++ s.ncount ++ 0#6) s.root 16 6).trans
    ((extract_append_hi (0#6 ++ s.ncount) 0#6 10 6).trans
      ((extract_append_hi 0#6 s.ncount 0 6).trans (extract_all _)))

/-! ### STATUS (R34) -/

/-- The eight flags of the STATUS word, from bit 0 up. -/
theorem State.statusWord_flags (s : State) :
    s.statusWord.getLsbD 0 = s.busy ∧ s.statusWord.getLsbD 1 = s.done ∧ s.statusWord.getLsbD 2 = s.err ∧
      s.statusWord.getLsbD 3 = s.drop ∧ s.statusWord.getLsbD 4 = s.treeValid ∧ s.statusWord.getLsbD 5 = s.codesValid ∧
      s.statusWord.getLsbD 6 = s.treeSrc.bit ∧ s.statusWord.getLsbD 7 = s.irq := by
  have hb : ∀ b : Bool, (BitVec.ofBool b).getLsbD 0 = b := bit_ofBool
  unfold State.statusWord
  refine ⟨(bit_append_lo _ _ 0 (by decide)).trans (hb _), ?_, ?_, ?_, ?_, ?_, ?_, ?_⟩
  · exact (bit_append_hi _ _ 0).trans ((bit_append_lo _ _ 0 (by decide)).trans (hb _))
  · exact (bit_append_hi _ _ 1).trans ((bit_append_hi _ _ 0).trans ((bit_append_lo _ _ 0 (by decide)).trans (hb _)))
  · exact (bit_append_hi _ _ 2).trans ((bit_append_hi _ _ 1).trans ((bit_append_hi _ _ 0).trans
      ((bit_append_lo _ _ 0 (by decide)).trans (hb _))))
  · exact (bit_append_hi _ _ 3).trans ((bit_append_hi _ _ 2).trans ((bit_append_hi _ _ 1).trans ((bit_append_hi _ _ 0).trans
      ((bit_append_lo _ _ 0 (by decide)).trans (hb _)))))
  · exact (bit_append_hi _ _ 4).trans ((bit_append_hi _ _ 3).trans ((bit_append_hi _ _ 2).trans ((bit_append_hi _ _ 1).trans
      ((bit_append_hi _ _ 0).trans ((bit_append_lo _ _ 0 (by decide)).trans (hb _))))))
  · exact (bit_append_hi _ _ 5).trans ((bit_append_hi _ _ 4).trans ((bit_append_hi _ _ 3).trans ((bit_append_hi _ _ 2).trans
      ((bit_append_hi _ _ 1).trans ((bit_append_hi _ _ 0).trans ((bit_append_lo _ _ 0 (by decide)).trans (hb _)))))))
  · exact (bit_append_hi _ _ 6).trans ((bit_append_hi _ _ 5).trans ((bit_append_hi _ _ 4).trans ((bit_append_hi _ _ 3).trans
      ((bit_append_hi _ _ 2).trans ((bit_append_hi _ _ 1).trans ((bit_append_hi _ _ 0).trans
        ((bit_append_lo _ _ 0 (by decide)).trans (hb _))))))))

/-- PHASE in bits 15:8, and bits 31:16 read 0. -/
theorem State.statusWord_phase (s : State) :
    s.statusWord.extractLsb' 8 8 = s.phase.code ∧ s.statusWord.extractLsb' 16 16 = 0#16 := by
  unfold State.statusWord
  constructor
  · exact (extract_append_hi _ _ 7 8).trans ((extract_append_hi _ _ 6 8).trans ((extract_append_hi _ _ 5 8).trans
      ((extract_append_hi _ _ 4 8).trans ((extract_append_hi _ _ 3 8).trans ((extract_append_hi _ _ 2 8).trans
        ((extract_append_hi _ _ 1 8).trans ((extract_append_hi _ _ 0 8).trans
          ((extract_append_lo _ _ 0 8 (by decide)).trans (extract_all _)))))))))
  · exact (extract_append_hi _ _ 15 16).trans ((extract_append_hi _ _ 14 16).trans ((extract_append_hi _ _ 13 16).trans
      ((extract_append_hi _ _ 12 16).trans ((extract_append_hi _ _ 11 16).trans ((extract_append_hi _ _ 10 16).trans
        ((extract_append_hi _ _ 9 16).trans ((extract_append_hi _ _ 8 16).trans ((extract_append_hi _ _ 0 16).trans
          (extract_all _)))))))))

/-! ### One host access -/

/-- A defined write answers the register's effect. -/
theorem writeGives_of_busWrite {s t : State} {off : BitVec 8} {v : Word} (h : off.toNat % 4 = 0)
    (ht : ∀ rest, ({ s with turns := rest, resetLine := false } : State).busWrite off v =
      { t with turns := rest, resetLine := false }) : WriteGives s off v t := by
  intro rest
  have := runAccess_write { s with turns := rest, resetLine := false } off .word v
  simp [step, takeTurn, hostTurn, Access.defined, h, this, ht]

/-- A defined read of a register with a value answers that value. -/
theorem readAnswers_of_busValue {s : State} {off : BitVec 8} {w : Word} (h : off.toNat % 4 = 0)
    (ht : s.busValue off = some w) : ReadAnswers s off w := by
  intro rest
  have ht : ({ s with turns := rest, resetLine := false } : State).busValue off = some w := ht
  simp [step, takeTurn, hostTurn, Access.defined, h, runAccess, State.busRead, ht]

/-- A defined read of a register without a value answers a fresh free value. -/
theorem readIsAnyValue_of_busValue {s : State} {off : BitVec 8} (h : off.toNat % 4 = 0)
    (ht : s.busValue off = none) : ReadIsAnyValue s off := by
  intro rest
  have ht : ({ s with turns := rest, resetLine := false } : State).busValue off = none := ht
  simp [step, takeTurn, hostTurn, Access.defined, h, runAccess, State.busRead, ht]

end Sys2Proof.Machine
end

