-- ==== Sys2Proof/Laws/PerInstr.lean ====
section
/-! SUPPORT. Families of statements over all instructions, one lemma per constructor: the encoding round trip. -/

/-- R73, R76, R79, R83 to R85: a well-formed instruction is decoded back from its encoding, with every operand. -/
def Sys2Proof.Laws.Encoding.Statement (i : Sys2Proof.Instr) : Prop :=
  i.wellFormed = true → Sys2Proof.decode (Sys2Proof.encode i) = .ok i

namespace Sys2Proof.Laws

theorem Encoding.nop : Encoding.Statement .nop := fun _ => rfl
theorem Encoding.freqClear : Encoding.Statement .freqClear := fun _ => rfl
theorem Encoding.freqAccum : Encoding.Statement .freqAccum := fun _ => rfl
theorem Encoding.treeBuild : Encoding.Statement .treeBuild := fun _ => rfl
theorem Encoding.codeGen : Encoding.Statement .codeGen := fun _ => rfl
theorem Encoding.hdrWrite : Encoding.Statement .hdrWrite := fun _ => rfl
theorem Encoding.encode : Encoding.Statement .encode := fun _ => rfl
theorem Encoding.hdrRead : Encoding.Statement .hdrRead := fun _ => rfl
theorem Encoding.decode : Encoding.Statement .decode := fun _ => rfl
theorem Encoding.compress : Encoding.Statement .compress := fun _ => rfl
theorem Encoding.decompress : Encoding.Statement .decompress := fun _ => rfl
theorem Encoding.sreset : Encoding.Statement .sreset := fun _ => rfl
theorem Encoding.hdrInternal : Encoding.Statement .hdrInternal := fun _ => rfl

theorem Encoding.hdrLeaf (sym : Nat) : Encoding.Statement (.hdrLeaf sym) := by
  intro h
  have hs : sym < 512 := by simpa [Instr.wellFormed] using h
  have ht : (BitVec.ofNat 9 sym).toNat = sym := by simp [Nat.mod_eq_of_lt hs]
  simp [Sys2Proof.encode, Sys2Proof.decode, tokenBits, decodeToken, Except.map, Machine.natOfBits_bitsOf,
    List.take_of_length_le, ht]

end Sys2Proof.Laws
end

