-- ==== Sys2Proof/Machine/Notation.lean ====
section
/-! DEFINITION. The host program notation (R92, R93), as the turns it stands for. -/

namespace Sys2Proof.Machine

/-- R92: `W <reg>, <value>`. -/
def hostW (r : Reg) (v : Word) : List Turn := [.host (.write r.offset .word v)]

/-- R92: `R <reg>`. -/
def hostR (r : Reg) : List Turn := [.host (.read r.offset .word)]

/-- R92: `CMD <mnemonic>` expands to `W CMD, <opcode>` (R93); an instruction that is no command has no such line. -/
def hostCmd (i : Instr) : List Turn :=
  match i.opcode? with
  | some op => hostW .cmd (op.setWidth 32)
  | none => []

/-- R92: `WAIT`. -/
def hostWait : List Turn := [.wait]

/-- R93: `SRESET` expands to `W CTRL, 0x1`. -/
def hostSreset : List Turn := hostW .ctrl 0x1#32

/-- R93: `LOADF <s>, <v>` expands to `W FREQ_IDX, <s>` then `W FREQ_DATA, <v>`. -/
def hostLoadf (k v : Word) : List Turn := hostW .freqIdx k ++ hostW .freqData v

/-- R93: `ACK` expands to `W STATUS, 0xE`. -/
def hostAck : List Turn := hostW .status 0xE#32

end Sys2Proof.Machine
end

