-- ==== Sys2Proof/Tests/Slice0.lean ====
section
/-! SUPPORT. The model's own tests: ill-formed terms refused, every constructor decoded from bits written out from
30_encoding.md, one step of each instruction against the vectors of 95_test_vectors.md, and the witnesses of the statements. -/

namespace Sys2Proof.Tests

open Sys2Proof.Machine

/-! ### WellFormed: the one check there is (R85) -/

theorem test_illformed_leaf_refused : Instr.wellFormed (.hdrLeaf 512) = false := by decide
theorem test_wellformed_leaf_511 : Instr.wellFormed (.hdrLeaf 511) = true := by decide

/-! ### Decode: every constructor, its word from R73, R76, R79, R83 to R85 -/

theorem test_decode_nop : decode (.busWrite 0x04#8 0xABCDEF00#32) = .ok .nop := by decide
theorem test_decode_freqClear : decode (.busWrite 0x04#8 0x00000001#32) = .ok .freqClear := by decide
theorem test_decode_freqAccum : decode (.busWrite 0x04#8 0x00000102#32) = .ok .freqAccum := by decide
theorem test_decode_treeBuild : decode (.busWrite 0x04#8 0x00000003#32) = .ok .treeBuild := by decide
theorem test_decode_codeGen : decode (.busWrite 0x04#8 0x00000004#32) = .ok .codeGen := by decide
theorem test_decode_hdrWrite : decode (.busWrite 0x04#8 0x00000005#32) = .ok .hdrWrite := by decide
theorem test_decode_encode : decode (.busWrite 0x04#8 0x00000006#32) = .ok .encode := by decide
theorem test_decode_hdrRead : decode (.busWrite 0x04#8 0x00000007#32) = .ok .hdrRead := by decide
theorem test_decode_decode : decode (.busWrite 0x04#8 0x00000008#32) = .ok .decode := by decide
theorem test_decode_compress : decode (.busWrite 0x04#8 0x00000009#32) = .ok .compress := by decide
theorem test_decode_decompress : decode (.busWrite 0x04#8 0x0000000A#32) = .ok .decompress := by decide
theorem test_decode_illegal : decode (.busWrite 0x04#8 0x0000000B#32) = .error (.illegalOpcode 0x0B#8) := by decide
theorem test_decode_sreset : decode (.busWrite 0x00#8 0x00000001#32) = .ok .sreset := by decide
theorem test_decode_ctrl_ie_is_no_reset : decode (.busWrite 0x00#8 0x00000002#32) = .error .noResetRequested := by decide
theorem test_decode_hdrInternal : decode (.stream [false]) = .ok .hdrInternal := by decide

/-- R84, R85: "1" and sym9(0x41) = "001000001". -/
theorem test_decode_hdrLeaf :
    decode (.stream [true, false, false, true, false, false, false, false, false, true]) = .ok (.hdrLeaf 0x41) := by decide

theorem test_decode_truncated_leaf : decode (.stream [true, false, false, true]) = .error .truncatedLeaf := by decide

/-- The table numbers a token in stream order, first bit leftmost: 1 001000001 is 0x241. -/
theorem test_table_leaf : decodeTableWord 16 0x241 = some (.hdrLeaf 0x41) := by decide
theorem test_table_internal : decodeTableWord 8 0 = some .hdrInternal := by decide
theorem test_table_compress : decodeTableWord 32 9 = some .compress := by decide

/-! ### Small states -/

/-- An idle block after reset, with an input stream at POS 0. -/
def withInput (bits : List Bool) : State := { State.reset with input := bits }

/-- A block in a phase, after reset. -/
def inPhase (op : BitVec 8) (seq : BitVec 3) (p : Phase) : State := { State.reset with activeCmd := op, seq := seq, phase := p }

/-- The two-leaf tree of V-H2, parsed: NODE[0] internal, NODE[1] leaf 256, NODE[2] leaf 0x41. -/
def pairNodes : Memory Node :=
  [(0, ⟨false, 0#9, 0#32, 1#10, 2#10⟩), (1, ⟨true, 256#9, 0#32, 0#10, 0#10⟩), (2, ⟨true, 0x41#9, 0#32, 0#10, 0#10⟩)]

/-- The codes of V-C1: 256 -> "0", 0x41 -> "1". -/
def pairCodes : Memory Code := [(0x41, ⟨true, 1#9, 1#256⟩), (256, ⟨true, 1#9, 0#256⟩)]

/-- An idle block that holds the tree of V-H2 and its codes. -/
def pairState : State :=
  { State.reset with
    treeValid := true, treeSrc := .parsed, codesValid := true, node := pairNodes, ncount := 3#10, code := pairCodes }

/-- The block that holds the tree of V-H2, in a phase. -/
def pairIn (op : BitVec 8) (p : Phase) : State := { pairState with activeCmd := op, phase := p }

def pairTree : Tree := .node (.leaf 256#9) (.leaf 0x41#9)

/-- The header of `pairTree` after its magic. -/
def pairStream : List Bool := bitsOf (0xFACE8201#32) ++ pairTree.ser

/-- What a step or an instruction answers, as a state; the reset state where it stops. -/
def stateOf : Host.Outcome State Fault Refusal → State
  | .next t => t
  | .fault _ => State.reset
  | .refused _ => State.reset

/-! ### One step of each instruction -/

/-- R101. -/
theorem test_nop_dispatch : (stateOf (exec .nop State.reset)).phase = .nopRun := by decide
theorem test_nop_done :
    (phaseStep (inPhase 0#8 0#3 .nopRun)).done = true ∧ (phaseStep (inPhase 0#8 0#3 .nopRun)).phase = .idle := by decide

/-- V-F1: the table is cleared, FREQ[256] stays 1. -/
theorem test_freqClear_step :
    let t := phaseStep { inPhase 1#8 0#3 .fcClear with freq := [(0x41, 9#32)], treeValid := true }
    t.freqAt 0x41 = 0#32 ∧ t.freqAt 256 = 1#32 ∧ t.treeValid = false ∧ t.done = true := by decide

/-- V-F2: the byte 0x41 is counted. -/
theorem test_freqAccum_step :
    let t := phaseStep { inPhase 2#8 0#3 .faRead with input := bitsOfBytes [0x41#8, 0x42#8] }
    t.freqAt 0x41 = 1#32 ∧ t.freqAt 0x42 = 0#32 ∧ t.total = 1#32 ∧ t.inBits = 8#32 ∧ t.pos = 8 := by decide

/-- V-F8: FREQ_OVERFLOW consumes the byte and counts it in IN_BITS only. -/
theorem test_freqAccum_overflow :
    let t := phaseStep { inPhase 2#8 0#3 .faRead with input := bitsOfBytes [0x07#8], total := 0xFFFFFFFE#32 }
    t.errcode = 0x00001203#32 ∧ t.errinfo = 7#32 ∧ t.freqAt 7 = 0#32 ∧ t.inBits = 8#32 ∧ t.statusWord = 0x04#32 := by decide

/-- V-T1: the end-marker has the smaller weight and leaves first. -/
theorem test_treeBuild_two_leaves :
    let t := phaseStep { inPhase 3#8 0#3 .tbBuild with freq := [(0x41, 1000#32)] }
    t.treeInfoWord = 0x00030002#32 ∧ (t.nodeAt 2#10).linkWord = 0x00000001#32 ∧ (t.nodeAt 0#10).linkWord = 0x84100000#32 ∧
      t.statusWord = 0x12#32 := by decide +kernel

/-- V-T5: WEIGHT_OVERFLOW. -/
theorem test_treeBuild_overflow :
    let t := phaseStep { inPhase 3#8 0#3 .tbBuild with freq := [(0, 0xFFFFFFFF#32)] }
    t.errcode = 0x00002004#32 ∧ t.errinfo = 2#32 ∧ t.ncount = 2#10 ∧ t.root = 0#10 ∧ t.statusWord = 0x04#32 := by
  decide +kernel

/-- V-C1 (on the tree of V-H2): 256 -> "0", 0x41 -> "1", 0x42 has no code. -/
theorem test_codeGen_step :
    let t := phaseStep { pairIn 4#8 .cgGen with code := [(0x42, ⟨true, 3#9, 5#256⟩)] }
    (t.codeAt 256).lenWord = 0x80000001#32 ∧ leftAligned (t.codeAt 0x41).bits 0 = 0x80000000#32 ∧
      (t.codeAt 0x42).lenWord = 0#32 ∧ t.codesValid = true := by decide +kernel

/-- V-H1: the first symbol field HDR_WRITE sends is sym9(0x100). -/
theorem test_hdrWrite_symbol :
    let t := phaseStep { pairIn 5#8 .hwSym with hwN := 1#10 }
    t.output = [true, false, false, false, false, false, false, false, false] ∧ t.outBits = 9#32 ∧ t.phase = .hwWalk := by
  decide

/-- R126: the left child is visited first. -/
theorem test_hdrWrite_walk : (phaseStep { pairIn 5#8 .hwWalk with ts := [0#10] }).ts = [1#10, 2#10] := by decide

/-- V-X3: BAD_MAGIC with the 32 bits read; by R134 NCOUNT tells that no node was begun. -/
theorem test_hdrRead_bad_magic :
    let t := phaseStep { inPhase 7#8 0#3 .hrMagic with input := bitsOfBytes [0xFA#8, 0xCE#8, 0x82#8, 0x00#8], ncount := 3#10 }
    t.errcode = 0x00006006#32 ∧ t.errinfo = 0xFACE8200#32 ∧ t.inBits = 32#32 ∧ t.ncount = 0#10 := by decide

/-- V-H2: the header is complete, the tree is valid. -/
theorem test_hdrRead_done : (phaseStep { pairIn 7#8 .hrBit with treeValid := false, codesValid := false }).statusWord = 0x52#32 := by
  decide

/-- V-N3: NO_CODE for 0x42. -/
theorem test_encode_no_code :
    let t := phaseStep { pairIn 6#8 .enRead with input := bitsOfBytes [0x42#8] }
    t.errcode = 0x00005105#32 ∧ t.errinfo = 0x42#32 ∧ t.inBits = 8#32 ∧ t.output = [] := by decide

/-- V-N1: the code of 0x41 is the bit 1. -/
theorem test_encode_bit :
    let t := phaseStep { pairIn 6#8 .enBits with esym := 0x41#9 }
    t.output = [true] ∧ t.outBits = 1#32 ∧ t.ej = 1#9 := by decide

/-- V-D1: the bit 1 leads to the leaf 0x41. -/
theorem test_decode_bit :
    let t := phaseStep { pairIn 8#8 .deBit with input := [true, true, false] }
    t.cur = 2#10 ∧ t.phase = .deEmit ∧ t.inBits = 1#32 := by decide

/-- R147: a symbol above 256 emits its low 8 bits (V-D3). -/
theorem test_decode_emit_low_bits :
    let t := phaseStep { pairIn 8#8 .deEmit with node := [(2, ⟨true, 0x141#9, 0#32, 0#10, 0#10⟩)], cur := 2#10 }
    t.output = bitsOf (0x41#8) ∧ t.outBits = 8#32 := by decide

/-- PRG-1 line 1: PHASE = 0x11. -/
theorem test_compress_dispatch : (stateOf (exec .compress State.reset)).statusWord = 0x1101#32 := by decide

/-- R100: after CODE_GEN a COMPRESS goes on with HDR_WRITE. -/
theorem test_compress_next_engine : (phaseStep { pairIn 9#8 .cgGen with seq := 2#3 }).phase = .hwMagic := by decide +kernel

/-- PRG-2 line 2: PHASE = 0x60. -/
theorem test_decompress_dispatch : (stateOf (exec .decompress State.reset)).statusWord = 0x6001#32 := by decide

/-- R100: after HDR_READ a DECOMPRESS goes on with DECODE, DONE still 0. -/
theorem test_decompress_next_engine :
    (phaseStep (pairIn 0x0A#8 .hrBit)).phase = .deStart ∧ (phaseStep (pairIn 0x0A#8 .hrBit)).done = false := by decide

/-- V-X12: a soft reset while ENCODE runs: the reset STATUS; the output and POS stay. -/
theorem test_sreset_running :
    let t := stateOf (exec .sreset { pairIn 9#8 .enBits with output := [true], pos := 3, ie := true })
    t.statusWord = 0#32 ∧ t.output = [true] ∧ t.pos = 3 ∧ t.ie = false ∧ t.errcode = 0#32 := by decide

/-- V-H2: the token "0" starts NODE[0] and leaves its two children pending, the left one first. -/
theorem test_hdrInternal_token :
    let t := stateOf (exec .hdrInternal { inPhase 7#8 0#3 .hrBit with pend := [.root], input := [false, true] })
    t.pend = [.left 0#10, .right 0#10] ∧ t.ncount = 1#10 ∧ t.pos = 1 ∧ t.phase = .hrBit := by decide

/-- R131: a token that fills a RIGHT position links it. -/
theorem test_hdrInternal_links :
    let s := { inPhase 7#8 0#3 .hrBit with
      pend := [.right 0#10], ncount := 2#10, node := [(0, ⟨false, 0#9, 0#32, 1#10, 0#10⟩)], input := [false] }
    (stateOf (exec .hdrInternal s)).nodeAt 0#10 = ⟨false, 0#9, 0#32, 1#10, 2#10⟩ := by decide

/-- The state of a parser that is at the LEAF token "1" sym9(0x100). -/
def atLeaf : State := { inPhase 7#8 0#3 .hrBit with pend := [.root], input := true :: bitsOf (0x100#9) }

/-- V-H3: the LEAF token, its first bit and then its field. -/
theorem test_hdrLeaf_token :
    let t := stateOf (exec (.hdrLeaf 0x100) atLeaf)
    t.phase = .hrSym ∧ t.hleaf = 0#10 ∧ (stateOf (exec (.hdrLeaf 0x100) t)).nodeAt 0#10 = ⟨true, 0x100#9, 0#32, 0#10, 0#10⟩ ∧
      (stateOf (exec (.hdrLeaf 0x100) t)).inBits = 10#32 := by decide

/-- log entry 12: a token that is not at the parser is refused. -/
theorem test_hdrLeaf_refused : ¬ ∃ t, exec (.hdrLeaf 0x41) atLeaf = .next t := by
  have h : exec (.hdrLeaf 0x41) atLeaf = .refused .tokenNotAtPort := by rfl
  simp [h]

/-! ### Fetching and the host's notation -/

/-- The first step after reset runs the word placed. -/
theorem test_fetch_command : (stateOf (step (State.reset.withFetchWord 32 9))).phase = .faInit := by decide
theorem test_fetch_token :
    (stateOf (step (State.reset.withFetchWord 16 0x300))).phase = .hrSym ∧
      (stateOf (step (State.reset.withFetchWord 8 0))).pend = [.left 0#10, .right 0#10] := by decide

/-- V-F5: index 256 ignores the write and reads 1 (R93: LOADF). -/
theorem test_loadf_end_marker :
    (match Host.Core.run core 3 { State.reset with turns := hostLoadf 0x100#32 7#32 ++ hostR .freqData } with
      | .next t => t.answers
      | .fault _ => []
      | .refused _ => []) = [1#32] := by decide

/-- V-X13: ACK clears ERR and keeps ERRCODE. -/
theorem test_ack_keeps_errcode :
    let t := stateOf (step { State.reset with err := true, errcode := 0x6006#32, turns := hostAck })
    t.err = false ∧ t.errcode = 0x6006#32 := by decide

/-- R92, R101: `CMD NOP` then `WAIT`: the last STATUS read shows DONE. -/
theorem test_wait :
    (match Host.Core.run core 4 { State.reset with turns := hostCmd .nop ++ hostWait } with
      | .next t => t.answers
      | .fault _ => []
      | .refused _ => []) = [0x0101#32, 0x02#32] := by decide

/-! ### Witnesses: a state and operands that meet the hypotheses of each statement, clause by clause -/

theorem witness_CommandWordsDecodeByOpcode :
    (0xFFFFFF0A#32 : Word).extractLsb' 0 8 = 0x0A#8 ∧ (0x00000000#32 : Word).extractLsb' 0 8 = 0x00#8 ∧
      0x0B#8 ≤ (0x0000000B#32 : Word).extractLsb' 0 8 ∧ 0x0B#8 ≤ (0x000000FF#32 : Word).extractLsb' 0 8 := by decide

theorem witness_HeaderTokensDecodeExactly :
    Instr.wellFormed (.hdrLeaf 511) = true ∧ Instr.wellFormed .hdrInternal = true ∧
      decodeToken [false, true] = .ok (.hdrInternal, [true]) ∧
      decodeToken [true, true, true, true, true, true, true, true, true, true] = .ok (.hdrLeaf 511, []) := by decide

theorem witness_EncodedInstructionsDecodeBack :
    Instr.wellFormed (.hdrLeaf 0) = true ∧ Instr.wellFormed (.hdrLeaf 511) = true ∧ Instr.wellFormed .sreset = true := by decide

theorem witness_StepRunsDecodedWrite :
    let s := { State.reset with turns := [Turn.host (.write 0x04#8 .word 0x0A#32)] }
    s.turns = .host (.write 0x04#8 .word 0x0A#32) :: [] ∧ s.resetLine = false ∧ (0x04#8 : BitVec 8).toNat % 4 = 0 ∧
      decode (.busWrite 0x04#8 0x0A#32) = .ok .decompress := by decide

theorem witness_StepRunsDecodedWrite_ctrl : decode (.busWrite 0x00#8 0xFFFFFFFF#32) = .ok .sreset := by decide

theorem witness_StepRunsHeaderToken :
    atLeaf.resetLine = false ∧ atLeaf.inputAnswers = true ∧ atLeaf.headerToken = some (.hdrLeaf 0x100) ∧ atLeaf.turns = [] ∧
      { atLeaf with turns := [.core] }.headerToken = some (.hdrLeaf 0x100) ∧
      { atLeaf with phase := .hrSym, pos := 1 }.headerToken = some (.hdrLeaf 0x100) ∧
      { atLeaf with input := [false] }.headerToken = some .hdrInternal := by decide

theorem witness_CoreTurnIsThePhaseOrNothing :
    (atLeaf.resetLine = false ∧ atLeaf.phase ≠ .idle ∧ atLeaf.blocked = false ∧ atLeaf.turns = []) ∧
      (State.reset.phase = .idle ∧ State.reset.turns = []) ∧ { atLeaf with inputAnswers := false }.blocked = true ∧
      { atLeaf with resetLine := true, turns := [.core] }.resetLine = true := by decide

theorem witness_DispatchStartsTheFirstEngine :
    pairState.busy = false ∧ pairState.treeValid = true ∧ pairState.codesValid = true := by decide

theorem witness_UnreadyCommandsRaiseNotReady :
    State.reset.busy = false ∧ State.reset.treeValid = false ∧ State.reset.codesValid = false := by decide

theorem witness_IllegalOpcodesRaiseIllegalCmd :
    State.reset.busy = false ∧ 0x0B#8 ≤ (0x0000000B#32 : Word).extractLsb' 0 8 ∧
      0x0B#8 ≤ (0xFFFFFFFF#32 : Word).extractLsb' 0 8 := by decide

theorem witness_CommandsWhileBusyAreDropped : atLeaf.busy = true ∧ Instr.opcode? .nop ≠ none := by decide

theorem witness_FinishFollowsTheEngineList :
    (let s := inPhase 0x09#8 0#3 .faRead; s.activeCmd = 0x09#8 ∧ s.seq = 0#3) ∧
      (let s := inPhase 0x09#8 3#3 .hwWalk; s.activeCmd = 0x09#8 ∧ s.seq = 3#3) ∧
      (let s := inPhase 0x0A#8 0#3 .hrBit; s.activeCmd = 0x0A#8 ∧ s.seq = 0#3) ∧
      (inPhase 0x08#8 0#3 .deClose).activeCmd ≤ 0x08#8 ∧
      (let s := inPhase 0x09#8 4#3 .enClose; s.activeCmd = 0x09#8 ∧ s.seq = 4#3) ∧
      (let s := inPhase 0x0A#8 1#3 .deClose; s.activeCmd = 0x0A#8 ∧ s.seq = 1#3) := by decide

theorem witness_NopCompletes : State.reset.quietIdle = true := by decide
theorem witness_FreqClearCompletes : pairState.quietIdle = true := by decide

theorem witness_FreqAccumCountsTheInput :
    let s := withInput (bitsOfBytes [0x41#8, 0x41#8] ++ [true, true, true, true, true, true, true])
    s.quietIdle = true ∧
      s.input.drop s.pos = bitsOfBytes [0x41#8, 0x41#8] ++ [true, true, true, true, true, true, true] ∧
      [0x41#8, 0x41#8].length ≤ 2 ^ 32 - 2 := by decide

theorem witness_FreqAccumCountsTheInput_empty :
    (withInput []).quietIdle = true ∧ (withInput []).input.drop (withInput []).pos = bitsOfBytes [] ++ [] := by decide

/-- The largest legal sum (V-T6): FREQ[0] = 2^32 - 2. -/
theorem witness_TreeBuildBuildsTheHuffmanTree :
    let s := { State.reset with freq := [(0, 0xFFFFFFFE#32)] }
    s.quietIdle = true ∧ s.memoryOk = true ∧ s.freqSum 257 = 2 ^ 32 - 1 := by decide +kernel

/-- The least sum that overflows (V-T5): FREQ[0] = 2^32 - 1. -/
theorem witness_TreeBuildRaisesWeightOverflow :
    let s := { State.reset with freq := [(0, 0xFFFFFFFF#32)] }
    s.quietIdle = true ∧ s.memoryOk = true ∧ s.freqSum 257 = 2 ^ 32 := by decide +kernel

theorem pair_spells : Spells pairState.node pairState.root pairTree := ⟨rfl, ⟨rfl, rfl⟩, rfl, rfl⟩

theorem witness_CodeGenRecordsLeafPaths :
    pairState.quietIdle = true ∧ pairState.treeValid = true ∧ Spells pairState.node pairState.root pairTree ∧
      pairTree.leaves ≤ 257 ∧ pairTree.codes = [(256#9, [false]), (0x41#9, [true])] :=
  ⟨by decide, by decide, pair_spells, by decide, by decide⟩

theorem witness_CodesAreAPrefixCode :
    pairState.quietIdle = true ∧ pairState.treeValid = true ∧ Spells pairState.node pairState.root pairTree ∧
      pairTree.leaves ≤ 257 ∧ (pairTree.codes.map Prod.fst).Nodup :=
  ⟨by decide, by decide, pair_spells, by decide, by decide⟩

theorem witness_HdrWriteSerializesTheTree :
    pairState.quietIdle = true ∧ pairState.treeValid = true ∧ Spells pairState.node pairState.root pairTree :=
  ⟨by decide, by decide, pair_spells⟩

theorem witness_HdrReadRebuildsTheTree :
    (withInput pairStream).quietIdle = true ∧ (withInput pairStream).memoryOk = true ∧ pairTree.leaves ≤ 257 ∧
      (withInput pairStream).input.drop (withInput pairStream).pos = bitsOf (0xFACE8201#32) ++ pairTree.ser ++ [] := by decide

theorem witness_EncodeWritesTheCodes :
    let s := { pairState with input := bitsOfBytes [0x41#8] ++ [true] }
    s.quietIdle = true ∧ s.codesValid = true ∧ s.input = bitsOfBytes [0x41#8] ++ [true] ∧
      (∀ x ∈ [0x41#8], (s.codeAt x.toNat).valid = true) ∧ (s.codeAt 256).valid = true := by decide

theorem witness_DecodeEmitsTheSymbols :
    let s := { pairState with input := [true, true, false, true] }
    s.quietIdle = true ∧ s.treeValid = true ∧ Spells s.node s.root pairTree ∧
      (∀ w ∈ ([([true], 0x41#9), ([true], 0x41#9)] : List (List Bool × Symbol)), pairTree.IsPath w.1 w.2 ∧ w.2 ≠ 256#9) ∧
      pairTree.IsPath [false] 256#9 ∧
      s.input.drop s.pos =
        (([([true], 0x41#9), ([true], 0x41#9)] : List (List Bool × Symbol)).flatMap Prod.fst) ++ [false] ++ [true] ∧
      s.pos ≤ s.input.length :=
  ⟨by decide, by decide, pair_spells, by simp [pairTree, Tree.IsPath], rfl, rfl, by decide⟩

theorem witness_CompressWritesTheStream :
    let s := withInput (bitsOfBytes [0x41#8] ++ [true])
    s.quietIdle = true ∧ s.memoryOk = true ∧ s.pos = 0 ∧ s.input = bitsOfBytes [0x41#8] ++ [true] := by decide

theorem witness_DecompressReadsTheStream :
    let s := withInput (pairStream ++ [true, false])
    s.quietIdle = true ∧ s.memoryOk = true ∧ pairTree.leaves ≤ 257 ∧ pairTree.IsPath [true] 0x41#9 ∧
      pairTree.IsPath [false] 256#9 ∧
      s.input.drop s.pos =
        bitsOf (0xFACE8201#32) ++ pairTree.ser ++ (([([true], 0x41#9)] : List (List Bool × Symbol)).flatMap Prod.fst) ++
          [false] ++ [] :=
  ⟨by decide, by decide, by decide, rfl, rfl, by decide⟩

theorem witness_CompressThenDecompressRoundTrips :
    let s := withInput (bitsOfBytes [0x41#8])
    s.quietIdle = true ∧ s.memoryOk = true ∧ s.input = bitsOfBytes [0x41#8] ∧ s.pos = 0 ∧ s.output = [] := by decide

theorem witness_SoftResetGivesTheResetValues : (0x00000003#32 : Word).getLsbD 0 = true := by decide

theorem witness_HardwareResetHoldsTheBlock :
    { atLeaf with turns := [.resetLine true] }.turns = .resetLine true :: [] ∧
      { atLeaf with turns := [.resetLine false] }.turns = .resetLine false :: [] ∧
      { State.reset with resetLine := true, turns := [.host (.read 0x08#8 .word)] }.turns = .host (.read 0x08#8 .word) :: [] := by
  decide

theorem witness_InternalTokenStartsAnInternalNode :
    let s := { inPhase 7#8 0#3 .hrBit with pend := [.right 511#10], ncount := 512#10, input := [false] }
    s.memoryOk = true ∧ s.phase = .hrBit ∧ s.pend = .right 511#10 :: [] ∧ s.ncount.toNat < 513 ∧
      Slot.parent (.right 511#10) < s.ncount.toNat ∧ s.pos ≤ s.input.length ∧ s.input.drop s.pos = false :: [] := by decide

theorem witness_LeafTokenPlacesALeaf :
    atLeaf.memoryOk = true ∧ atLeaf.phase = .hrBit ∧ atLeaf.pend = .root :: [] ∧ atLeaf.ncount.toNat < 513 ∧
      atLeaf.pos ≤ atLeaf.input.length ∧ atLeaf.input.drop atLeaf.pos = true :: (bitsOf (0x100#9) ++ []) := by decide

theorem witness_CtrlHoldsTheInterruptEnable : (0xFFFFFFFE#32 : Word).getLsbD 0 = false := by decide

/-- FREQ_DATA: busy; idle at the indices 255, 256 and 257. -/
theorem witness_FreqDataWindow :
    atLeaf.memoryOk = true ∧ atLeaf.busy = true ∧
      (let s := { State.reset with freqIdx := 255#9 }; s.memoryOk = true ∧ s.busy = false ∧ s.freqIdx.toNat < 256) ∧
      (let s := { State.reset with freqIdx := 256#9 }; s.busy = false ∧ s.freqIdx.toNat = 256 ∧ 256 ≤ s.freqIdx.toNat) ∧
      (let s := { State.reset with freqIdx := 257#9 }; s.busy = false ∧ 257 ≤ s.freqIdx.toNat) := by decide

/-- The node windows: busy; without a tree; at NCOUNT and just below it. -/
theorem witness_NodeWindows :
    atLeaf.busy = true ∧ State.reset.treeValid = false ∧
      (let s := { pairState with nodeIdx := 3#10 }; s.busy = false ∧ s.treeValid = true ∧ s.ncount ≤ s.nodeIdx) ∧
      (let s := { pairState with nodeIdx := 2#10 }; s.busy = false ∧ s.treeValid = true ∧ s.nodeIdx < s.ncount) := by decide

/-- The code windows: busy; without codes; at the symbols 257 and 256. -/
theorem witness_CodeWindows :
    atLeaf.busy = true ∧ State.reset.codesValid = false ∧
      (let s := { pairState with codeIdx := 257#9 }; s.busy = false ∧ s.codesValid = true ∧ 257 ≤ s.codeIdx.toNat) ∧
      (let s := { pairState with codeIdx := 256#9 }; s.busy = false ∧ s.codesValid = true ∧ s.codeIdx.toNat ≤ 256) := by decide

theorem witness_ResultRegistersRead : atLeaf.busy = true ∧ State.reset.busy = false := by decide

theorem witness_UnmappedAndReadOnlyIgnoreWrites :
    (0x48#8 : BitVec 8).toNat % 4 = 0 ∧ (0x48#8 : BitVec 8) ≤ 0x48#8 ∧ (0xFC#8 : BitVec 8).toNat % 4 = 0 ∧
      (0x48#8 : BitVec 8) ≤ 0xFC#8 ∧ (0x44#8 : BitVec 8).toNat % 4 = 0 := by decide

/-- Each way an access is undefined, and a defined one: an even halfword, offset 0x46, and offset 0xFC. -/
theorem witness_OnlyAlignedWordAccessesAreDefined :
    State.reset.resetLine = false ∧ (AccessSize.half ≠ .word ∧ (0x44#8 : BitVec 8).toNat % 4 = 0) ∧
      (0x46#8 : BitVec 8).toNat % 4 ≠ 0 ∧ (0xFC#8 : BitVec 8).toNat % 4 = 0 := by decide

/-- FA_INIT; FA_READ at EOF with seven bits left, at the bound of TOTAL and below it. -/
theorem witness_FrequencyPhases :
    (let s := inPhase 2#8 0#3 .faInit; s.quiet = true ∧ s.memoryOk = true ∧ s.phase = .faInit) ∧
      (let s := { inPhase 2#8 0#3 .faRead with input := [true, true, true, true, true, true, true] };
        s.quiet = true ∧ s.phase = .faRead ∧ s.input.length < s.pos + 8) ∧
      (let s := { inPhase 2#8 0#3 .faRead with input := bitsOf (7#8), total := 0xFFFFFFFE#32 };
        s.quiet = true ∧ s.memoryOk = true ∧ s.pos + 8 ≤ s.input.length ∧ (s.input.drop s.pos).take 8 = bitsOf (7#8) ∧
          s.total = 0xFFFFFFFE#32) ∧
      (let s := { inPhase 2#8 0#3 .faRead with input := bitsOf (7#8), total := 0xFFFFFFFD#32 };
        (s.input.drop s.pos).take 8 = bitsOf (7#8) ∧ s.total ≠ 0xFFFFFFFE#32) := by decide

theorem witness_HeaderWritePhases :
    (let s := pairIn 5#8 .hwMagic; s.quiet = true ∧ s.phase = .hwMagic) ∧
      (let s := pairIn 5#8 .hwWalk; s.quiet = true ∧ s.phase = .hwWalk ∧ s.ts = []) ∧
      (let s := { pairIn 5#8 .hwWalk with ts := [0#10] }; s.ts = 0#10 :: [] ∧ (s.nodeAt 0#10).leaf = false) ∧
      (let s := { pairIn 5#8 .hwWalk with ts := [1#10] }; s.ts = 1#10 :: [] ∧ (s.nodeAt 1#10).leaf = true) ∧
      (let s := pairIn 5#8 .hwSym; s.quiet = true ∧ s.phase = .hwSym) := by decide

/-- HR_MAGIC with 31 bits, a wrong and the right magic; HR_BIT with nothing pending, with 513 nodes, at EOF; HR_SYM with 8 and 9 bits. -/
theorem witness_HeaderReadPhases :
    (let s := { inPhase 7#8 0#3 .hrMagic with input := (bitsOf (0xFACE8201#32)).take 31 };
      s.quiet = true ∧ s.memoryOk = true ∧ s.phase = .hrMagic ∧ s.input.length < s.pos + 32) ∧
      (let s := { inPhase 7#8 0#3 .hrMagic with input := bitsOf (0xFACE8200#32) };
        s.pos + 32 ≤ s.input.length ∧ (s.input.drop s.pos).take 32 = bitsOf (0xFACE8200#32) ∧
          (0xFACE8200#32 : Word) ≠ 0xFACE8201#32) ∧
      (let s := { inPhase 7#8 0#3 .hrMagic with input := bitsOf (0xFACE8201#32) };
        s.pos + 32 ≤ s.input.length ∧ (s.input.drop s.pos).take 32 = bitsOf (0xFACE8201#32)) ∧
      (inPhase 7#8 0#3 .hrBit).pend = [] ∧
      (let s := { inPhase 7#8 0#3 .hrBit with pend := [.root], ncount := 513#10 }; s.pend ≠ [] ∧ s.ncount = 513#10) ∧
      (let s := { inPhase 7#8 0#3 .hrBit with pend := [.root], ncount := 512#10 };
        s.pend ≠ [] ∧ s.ncount ≠ 513#10 ∧ s.input.length < s.pos + 1) ∧
      (let s := { inPhase 7#8 0#3 .hrSym with input := (bitsOf (511#9)).take 8 }; s.input.length < s.pos + 9) ∧
      (let s := { inPhase 7#8 0#3 .hrSym with input := bitsOf (511#9), hleaf := 512#10 };
        s.pos + 9 ≤ s.input.length ∧ s.hleaf.toNat < 513 ∧ (s.input.drop s.pos).take 9 = bitsOf (511#9)) := by decide

theorem witness_EncoderPhases :
    (pairIn 6#8 .enRewind).quiet = true ∧
      (let s := pairIn 6#8 .enRead; s.phase = .enRead ∧ s.input.length < s.pos + 8 ∧ (s.codeAt 256).valid = true) ∧
      (let s := { pairIn 6#8 .enRead with code := [] }; s.input.length < s.pos + 8 ∧ (s.codeAt 256).valid = false) ∧
      (let s := { pairIn 6#8 .enRead with input := bitsOf (0x41#8) };
        s.pos + 8 ≤ s.input.length ∧ (s.input.drop s.pos).take 8 = bitsOf (0x41#8) ∧ (s.codeAt 0x41).valid = true) ∧
      (let s := { pairIn 6#8 .enRead with input := bitsOf (0x42#8) };
        (s.input.drop s.pos).take 8 = bitsOf (0x42#8) ∧ (s.codeAt 0x42).valid = false) ∧
      (let s := { pairIn 6#8 .enBits with esym := 256#9 }; s.ej < (s.codeAt s.esym.toNat).len) ∧
      (let s := { pairIn 6#8 .enBits with esym := 256#9, ej := 1#9, eomf := true };
        ¬ s.ej < (s.codeAt s.esym.toNat).len ∧ s.eomf = true) ∧
      (let s := { pairIn 6#8 .enBits with esym := 0x41#9, ej := 1#9 };
        ¬ s.ej < (s.codeAt s.esym.toNat).len ∧ s.eomf = false) ∧
      (pairIn 6#8 .enClose).phase = .enClose := by decide

theorem witness_DecoderPhases :
    (let s := { pairIn 8#8 .deStart with root := 1#10 };
      s.quiet = true ∧ (s.nodeAt s.root).leaf = true ∧ (s.nodeAt s.root).sym = 256#9) ∧
      (let s := { pairIn 8#8 .deStart with root := 2#10 };
        (s.nodeAt s.root).leaf = true ∧ (s.nodeAt s.root).sym ≠ 256#9) ∧
      (let s := pairIn 8#8 .deStart; (s.nodeAt s.root).leaf = false) ∧
      (let s := pairIn 8#8 .deBit; s.phase = .deBit ∧ s.input.length < s.pos + 1 ∧ s.cur = s.root) ∧
      (let s := { pairIn 8#8 .deBit with input := [true] }; s.pos ≤ s.input.length ∧ s.input.drop s.pos = true :: []) ∧
      (pairIn 8#8 .deEmit).phase = .deEmit ∧ (pairIn 8#8 .deClose).phase = .deClose := by decide

/-- A running ENCODE that meets every invariant, and its step. -/
theorem witness_invariants :
    let s := { pairIn 6#8 .enRead with input := bitsOfBytes [0x41#8] }
    s.inv = true ∧ s.memoryOk = true ∧ s.sequencerOk = true ∧ s.preconditionsOk = true ∧ s.statusOk = true ∧
      s.countsOk = true ∧ s.busy = true ∧ s.quiet = true ∧ step s = .next (phaseStep s) := by
  refine ⟨by decide +kernel, by decide, by decide, by decide, by decide, by decide, by decide, by decide, rfl⟩

/-- A parser inside a header meets the invariant (R131). -/
theorem witness_invariant_parser :
    { inPhase 7#8 0#3 .hrBit with
      node := [(0, ⟨false, 0#9, 0#32, 1#10, 0#10⟩), (1, ⟨true, 256#9, 0#32, 0#10, 0#10⟩)]
      ncount := 2#10, pend := [.right 0#10] }.inv = true := by decide +kernel

theorem witness_CoreOnlyReadsInputAndAppendsOutput :
    atLeaf.turns = [] ∧ { atLeaf with turns := [.core] }.turns = .core :: [] ∧ step atLeaf = .next (phaseStep atLeaf) := by
  refine ⟨by decide, by decide, rfl⟩

theorem witness_CoreStepIssuesItsTransactionOnly :
    atLeaf.quiet = true ∧ atLeaf.busy = true ∧ atLeaf.transaction = some (.rd 1) ∧
      (inPhase 1#8 0#3 .fcClear).transaction = none ∧ (pairIn 6#8 .enRewind).transaction = some .rewind ∧
      (pairIn 6#8 .enClose).transaction = some .close ∧
      { pairIn 5#8 .hwWalk with ts := [0#10] }.transaction = some (.wr [false]) := by decide

theorem witness_OnlyACommandWriteMakesTheBlockBusy :
    let s := { State.reset with turns := [Turn.host (.write 0x04#8 .word 0x00#32)] }
    s.busy = false ∧ (stateOf (step s)).busy = true := by decide

/-- Each flag set and cleared by a step. -/
theorem witness_FlagsChangeOnlyByTheirEvents :
    (stateOf (step (inPhase 0#8 0#3 .nopRun))).done = true ∧
      (stateOf (step { State.reset with done := true, turns := hostAck })).done = false ∧
      (stateOf (step { State.reset with turns := hostW .cmd 0x0B#32 })).err = true ∧
      (stateOf (step { State.reset with err := true, turns := hostAck })).err = false ∧
      (stateOf (step { atLeaf with turns := hostW .cmd 0#32 })).drop = true ∧
      (stateOf (step { State.reset with drop := true, turns := hostAck })).drop = false ∧
      (stateOf (step (inPhase 7#8 0#3 .hrBit))).treeValid = true ∧
      (stateOf (step { pairState with turns := hostW .freqData 0#32 })).treeValid = false ∧
      (stateOf (step { pairState with turns := hostW .freqData 0#32 })).codesValid = false := by decide

theorem witness_FlagsChangeOnlyByTheirEvents_codes :
    (stateOf (step { pairIn 4#8 .cgGen with codesValid := false })).codesValid = true := by decide +kernel

theorem witness_HostCannotDisturbARunningCommand :
    let s := { atLeaf with turns := [Turn.host (.write 0x18#8 .word 5#32)] }
    s.busy = true ∧ Turn.isReset (.host (.write 0x18#8 .word 5#32)) = false ∧
      step s = .next { s with turns := [] } := by
  refine ⟨by decide, by decide, rfl⟩

theorem witness_AnErrorEndsTheCommand :
    let s := inPhase 7#8 0#3 .hrMagic
    s.quiet = true ∧ s.busy = true ∧ s.err = false ∧ (stateOf (step s)).err = true := by decide

end Sys2Proof.Tests
end

section
/-! The least pair of the live set (R113): the order of the priority queue is the lexicographic order of (weight, index). -/

namespace Sys2Proof.Machine

/-- R113: the pair by which the priority queue orders a node. -/
def pairOf (m : Memory Node) (i : Nat) : ℕ ×ₗ ℕ := toLex (weightAt m i, i)

theorem pairOf_le_iff {m : Memory Node} {i j : Nat} :
    pairOf m i ≤ pairOf m j ↔ weightAt m i < weightAt m j ∨ (weightAt m i = weightAt m j ∧ i ≤ j) :=
  Prod.Lex.toLex_le_toLex

theorem before_iff {m : Memory Node} {i j : Nat} : before m i j = true ↔ pairOf m i < pairOf m j := by
  simp [before, pairOf, Prod.Lex.toLex_lt_toLex]

theorem qmin_mem (m : Memory Node) (i : Nat) (q : List Nat) : qmin m i q ∈ i :: q := by
  induction q generalizing i with
  | nil => exact List.mem_singleton_self i
  | cons j q ih =>
    rw [qmin]
    obtain h | h := List.mem_cons.mp (ih (if before m j i then j else i))
    · rw [h]
      split <;> simp
    · exact List.mem_cons_of_mem _ (List.mem_cons_of_mem _ h)

/-- One comparison of `qmin`: the index it keeps has the lesser of the two pairs. -/
theorem pairOf_kept (m : Memory Node) (i j : Nat) :
    pairOf m (if before m j i then j else i) = min (pairOf m i) (pairOf m j) := by
  rw [min_comm, min_def_lt, apply_ite (pairOf m)]
  simp only [before_iff]

theorem pairOf_qmin_le (m : Memory Node) (i : Nat) (q : List Nat) : ∀ j ∈ i :: q, pairOf m (qmin m i q) ≤ pairOf m j := by
  induction q generalizing i with
  | nil => simp [qmin]
  | cons k q ih =>
    obtain ⟨hkept, hrest⟩ := List.forall_mem_cons.mp (ih (if before m k i then k else i))
    rw [pairOf_kept, le_min_iff] at hkept
    exact List.forall_mem_cons.mpr ⟨hkept.1, List.forall_mem_cons.mpr ⟨hkept.2, hrest⟩⟩

/-- Settles O53, by induction on the live set: each comparison keeps the lesser pair. -/
theorem qminIsTheLeastPair : Obligations.QminIsTheLeastPair := fun m i q =>
  ⟨qmin_mem m i q, fun j hj => pairOf_le_iff.mp (pairOf_qmin_le m i q j hj)⟩

end Sys2Proof.Machine
end

section
/-! The ports in a core step (R57 to R60, R62): the step's transaction is one of its engine's, and the ports and their two counters
are as that transaction leaves them. -/

namespace Sys2Proof.Machine

/-- The ports' position, the output and the two counters are the same in both states. -/
structure SamePorts (s t : State) : Prop where
  pos : t.pos = s.pos
  inBits : t.inBits = s.inBits
  output : t.output = s.output
  outBits : t.outBits = s.outBits

theorem SamePorts.trans {s t u : State} (h : SamePorts s t) (h' : SamePorts t u) : SamePorts s u :=
  ⟨h'.pos.trans h.pos, h'.inBits.trans h.inBits, h'.output.trans h.output, h'.outBits.trans h.outBits⟩

/-- R57 to R60: `t` has the ports of `s` after the transaction, if any, and no other. -/
inductive PortsAfter (s t : State) : Option Transaction → Prop where
  | none : SamePorts s t → PortsAfter s t none
  | value {n : Nat} : s.pos + n ≤ s.input.length → SamePorts (s.advance n) t → PortsAfter s t (some (.rd n))
  | eof {n : Nat} : s.input.length < s.pos + n → SamePorts s t → PortsAfter s t (some (.rd n))
  /-- R136: the engine that rewinds clears IN_BITS in the same step. -/
  | rewind : SamePorts { s.rewind with inBits := 0#32 } t → PortsAfter s t (some .rewind)
  | wr {n : Nat} (v : BitVec n) : SamePorts (s.wr v) t → PortsAfter s t (some (.wr (bitsOf v)))
  | close : SamePorts s.close t → PortsAfter s t (some .close)

/-- R57: the two answers of RD, by what the port answers in `s`. -/
theorem PortsAfter.rd {s t : State} {n : Nat} (hvalue : ∀ v, s.peek n = some v → SamePorts (s.advance n) t)
    (heof : s.peek n = Option.none → SamePorts s t) : PortsAfter s t (some (.rd n)) := by
  cases h : s.peek n with
  | none => exact .eof (State.peek_eq_none.mp h) (heof h)
  | some v => exact .value (State.peek_eq_some.mp h).1 (hvalue v h)

/-! ### The phases with a choice -/

theorem faRead_ports (s : State) : PortsAfter s (faRead s) (some (.rd 8)) := by
  refine .rd (fun r h => ?_) (fun h => ?_) <;> simp only [faRead, h]
  · split <;> constructor <;> simp [countByte]
  · constructor <;> simp

theorem tbBuild_ports (s : State) : SamePorts s (tbBuild s) := by
  unfold tbBuild
  dsimp only
  split <;> constructor <;> simp

theorem hwWalk_ports {s : State} (hp : s.phase = .hwWalk) : PortsAfter s (hwWalk s) s.transaction := by
  unfold hwWalk State.transaction
  rw [hp]
  cases hts : s.ts with
  | nil => exact .none (by constructor <;> simp)
  | cons n rest =>
    cases hl : (s.nodeAt n).leaf with
    | true => simp only [hl, if_true]; exact .wr 1#1 ⟨rfl, rfl, rfl, rfl⟩
    | false => simp only [hl, Bool.false_eq_true, if_false]; exact .wr 0#1 ⟨rfl, rfl, rfl, rfl⟩

theorem lookUp_ports (s : State) : SamePorts s (lookUp s) := by
  unfold lookUp
  split <;> constructor <;> simp

theorem enRead_ports (s : State) : PortsAfter s (enRead s) (some (.rd 8)) := by
  refine .rd (fun r h => ?_) (fun h => ?_) <;> simp only [enRead, h]
  all_goals
    refine SamePorts.trans ?_ (lookUp_ports _)
    exact ⟨rfl, rfl, rfl, rfl⟩

theorem bitsOf_ofBool (b : Bool) : bitsOf (BitVec.ofBool b) = [b] := by
  rw [bitsOf_one, bit_ofBool]

theorem enBits_ports {s : State} (hp : s.phase = .enBits) : PortsAfter s (enBits s) s.transaction := by
  unfold enBits State.transaction
  rw [hp]
  dsimp only
  by_cases hj : s.ej < (s.codeAt s.esym.toNat).len
  · rw [if_pos hj, if_pos hj, ← bitsOf_ofBool]
    exact .wr _ ⟨rfl, rfl, rfl, rfl⟩
  · rw [if_neg hj, if_neg hj]
    refine .none ?_
    split <;> exact ⟨rfl, rfl, rfl, rfl⟩

theorem hrMagic_ports (s : State) : PortsAfter s (hrMagic s) (some (.rd 32)) := by
  have hpeek : State.peek { s.invalidate with ncount := 0#10 } 32 = s.peek 32 := State.peek_congr rfl rfl 32
  refine .rd (fun r h => ?_) (fun h => ?_) <;> simp only [hrMagic, hpeek, h]
  · split <;> exact ⟨rfl, rfl, rfl, rfl⟩
  · exact ⟨rfl, rfl, rfl, rfl⟩

theorem State.fillSlot_ports (s : State) (sl : Slot) (i : NodeIdx) : SamePorts s (s.fillSlot sl i) := by
  cases sl <;> constructor <;> simp [State.fillSlot]

theorem State.startNode_ports (s : State) (sl : Slot) (rest : List Slot) (leaf : Bool) :
    SamePorts s (s.startNode sl rest leaf) := by
  refine (s.fillSlot_ports sl s.ncount).trans ?_
  constructor <;> simp [State.startNode]

theorem hrBit_ports {s : State} (hp : s.phase = .hrBit) : PortsAfter s (hrBit s) s.transaction := by
  unfold State.transaction
  rw [hp]
  dsimp only
  cases hpend : s.pend with
  | nil =>
    rw [if_pos (.inl rfl)]
    refine .none ?_
    constructor <;> simp [hrBit, hpend]
  | cons slot rest =>
    by_cases hfull : s.ncount = 513#10
    · rw [if_pos (.inr hfull)]
      refine .none ?_
      constructor <;> simp [hrBit, hpend, hfull]
    · rw [if_neg (by simp [hfull])]
      refine .rd (fun r h => ?_) (fun h => ?_) <;> simp only [hrBit, hpend, if_neg hfull, h]
      · split
        · exact ((s.advance 1).startNode_ports slot rest false).trans ⟨rfl, rfl, rfl, rfl⟩
        · exact ((s.advance 1).startNode_ports slot rest true).trans ⟨rfl, rfl, rfl, rfl⟩
      · exact ⟨rfl, rfl, rfl, rfl⟩

theorem hrSym_ports (s : State) : PortsAfter s (hrSym s) (some (.rd 9)) := by
  refine .rd (fun r h => ?_) (fun h => ?_) <;> simp only [hrSym, h] <;> constructor <;> simp

theorem deStart_ports (s : State) : SamePorts s (deStart s) := by
  unfold deStart
  split
  · split <;> exact ⟨rfl, rfl, rfl, rfl⟩
  · exact ⟨rfl, rfl, rfl, rfl⟩

theorem deBit_ports (s : State) : PortsAfter s (deBit s) (some (.rd 1)) := by
  refine .rd (fun r h => ?_) (fun h => ?_) <;> simp only [deBit, h] <;> exact ⟨rfl, rfl, rfl, rfl⟩

/-! ### Every phase -/

/-- R62, R18: a core step leaves the ports as the transaction of its phase does. -/
theorem phaseStep_ports (s : State) : PortsAfter s (phaseStep s) s.transaction := by
  cases hp : s.phase
  case hwWalk => simpa only [phaseStep, hp] using hwWalk_ports hp
  case enBits => simpa only [phaseStep, hp] using enBits_ports hp
  case hrBit => simpa only [phaseStep, hp] using hrBit_ports hp
  all_goals simp only [phaseStep, State.transaction, hp]
  case idle => exact .none ⟨rfl, rfl, rfl, rfl⟩
  case nopRun => exact .none (by constructor <;> simp [nopRun])
  case fcClear => exact .none (by constructor <;> simp [fcClear])
  case faInit => exact .none ⟨rfl, rfl, rfl, rfl⟩
  case faRead => exact faRead_ports s
  case tbBuild => exact .none (tbBuild_ports s)
  case cgGen => exact .none (by constructor <;> simp [cgGen])
  case hwMagic => exact .wr Config.magic ⟨rfl, rfl, rfl, rfl⟩
  case hwSym => exact .wr (s.nodeAt s.hwN).sym ⟨rfl, rfl, rfl, rfl⟩
  case enRewind => exact .rewind ⟨rfl, rfl, rfl, rfl⟩
  case enRead => exact enRead_ports s
  case enClose => exact .close (by constructor <;> simp [enClose])
  case hrMagic => exact hrMagic_ports s
  case hrSym => exact hrSym_ports s
  case deStart => exact .none (deStart_ports s)
  case deBit => exact deBit_ports s
  case deEmit => exact .wr ((s.nodeAt s.cur).sym.setWidth 8) ⟨rfl, rfl, rfl, rfl⟩
  case deClose => exact .close (by constructor <;> simp [deClose])

/-- R62: the transaction of a phase is one of its engine's. -/
theorem State.engineMayIssue_transaction {s : State} {tr : Transaction} (h : s.transaction = some tr) :
    ∃ e, s.phase.engine = some e ∧ engineMayIssue e tr = true := by
  unfold State.transaction at h
  cases hp : s.phase <;> simp only [hp, reduceCtorEq] at h
  case hwWalk =>
    cases hts : s.ts <;> rw [hts] at h <;> cases h
    exact ⟨.hdrWrite, rfl, rfl⟩
  case enBits =>
    split at h <;> cases h
    exact ⟨.encode, rfl, rfl⟩
  case hrBit =>
    split at h <;> cases h
    exact ⟨.hdrRead, rfl, rfl⟩
  all_goals cases h; exact ⟨_, rfl, rfl⟩

/-- Settles O55, by cases on the phase's transaction, from what every phase does at the ports. -/
theorem coreStepIssuesItsTransactionOnly : Obligations.CoreStepIssuesItsTransactionOnly := by
  intro s t hq _ hstep
  obtain rfl : phaseStep s = t := Host.Outcome.next.inj ((step_quiet hq).symm.trans hstep)
  have hports := phaseStep_ports s
  have hengine := @State.engineMayIssue_transaction s
  generalize phaseStep s = t at hports
  generalize s.transaction = tr at hports hengine
  cases hports with
  | none h => exact ⟨h.pos, h.inBits, h.output, h.outBits⟩
  | value hlen h => exact ⟨hengine rfl, h.output, h.outBits, .inl ⟨hlen, h.pos, h.inBits⟩⟩
  | eof hlen h => exact ⟨hengine rfl, h.output, h.outBits, .inr ⟨hlen, h.pos, h.inBits⟩⟩
  | rewind h => exact ⟨hengine rfl, h.output, h.outBits, h.pos, h.inBits⟩
  | wr v h => exact ⟨hengine rfl, h.pos, h.inBits, h.output, by simpa using h.outBits⟩
  | close h => exact ⟨hengine rfl, h.pos, h.inBits, h.outBits, _, by simp, h.output⟩

end Sys2Proof.Machine
end

section
/-! What one step can do to the block, once: nothing inside it, a reset, one of the three host writes that reach past the host's own
registers, or the core's action (R66). -/

namespace Sys2Proof.Machine

theorem State.nextTurnIs_of_turns {s : State} {u : Turn} {rest : List Turn} (h : s.turns = u :: rest) (p : Turn → Bool) :
    s.nextTurnIs p = p u := by
  simp [State.nextTurnIs, h]

/-- R31: the one offset of a register. -/
theorem Reg.offset_of_atOffset {off : BitVec 8} {r : Reg} (h : Reg.atOffset off = some r) : off = r.offset := by
  have hoff : off = BitVec.ofNat 8 off.toNat := by simp
  unfold Reg.atOffset at h
  split at h <;> cases h <;> rw [hoff, ‹off.toNat = _›] <;> rfl

/-- What a step leaves, as what happened: the turn it used, and the operation that the turn ran on the block. -/
inductive StepEvent (s : State) : State → Prop where
  /-- The host's own registers, the ports and the model's own fields may change, nothing else in the block: a read, a write to an
  index register or to CTRL.IE, a turn of the world, a core turn in which nothing happens. -/
  | outside (ie : Bool) (freqIdx : BitVec 9) (nodeIdx : NodeIdx) (codeIdx : BitVec 9) (codeWsel : BitVec 3)
      (input : List Bool) (pos : Nat) (output : List Bool) (inputAnswers outputAnswers resetLine : Bool)
      (turns : List Turn) (answers : List Word) (draws : Nat) :
      StepEvent s { s with
        ie := ie, freqIdx := freqIdx, nodeIdx := nodeIdx, codeIdx := codeIdx, codeWsel := codeWsel, input := input, pos := pos
        output := output, inputAnswers := inputAnswers, outputAnswers := outputAnswers, resetLine := resetLine, turns := turns
        answers := answers, draws := draws }
  /-- R171, R172. -/
  | reset {u : Turn} {rest : List Turn} (hturn : s.turns = u :: rest) (hreset : u.isReset = true) (resetLine : Bool) :
      StepEvent s { s.resetBlock with turns := rest, resetLine := resetLine }
  /-- R95, R96: a write to CMD. -/
  | command {size : AccessSize} {v : Word} {rest : List Turn} (hturn : s.turns = .host (.write 0x04#8 size v) :: rest) :
      StepEvent s (State.dispatch { s with turns := rest } (v.setWidth 8))
  /-- R34: a write to STATUS. -/
  | acknowledge {size : AccessSize} {v : Word} {rest : List Turn} (hturn : s.turns = .host (.write 0x08#8 size v) :: rest) :
      StepEvent s (State.acknowledge { s with turns := rest } v)
  /-- R38: a write to FREQ_DATA that is taken. -/
  | frequency {size : AccessSize} {v : Word} {rest : List Turn} (hturn : s.turns = .host (.write 0x18#8 size v) :: rest)
      (hidle : s.busy = false) (k : Nat) :
      StepEvent s (State.setFreq { s with turns := rest } k v).invalidate
  /-- R94: the core's action of the phase. -/
  | core (turns : List Turn) (hbusy : s.busy = true) : StepEvent s (phaseStep { s with turns := turns })

theorem stepEvent_busRead (s : State) (turns : List Turn) (off : BitVec 8) :
    StepEvent s (State.busRead { s with turns := turns } off) := by
  unfold State.busRead
  split <;> apply StepEvent.outside

theorem stepEvent_coreTurn {s t : State} {turns : List Turn} (h : coreTurn { s with turns := turns } = .next t) :
    StepEvent s t := by
  rw [coreTurn_eq] at h
  obtain rfl := Host.Outcome.next.inj h
  split
  · apply StepEvent.outside
  · refine .core turns ?_
    simp_all [State.busy]

theorem stepEvent_writeReg {s : State} {r : Reg} {size : AccessSize} {v : Word} {rest : List Turn}
    (h : s.turns = .host (.write r.offset size v) :: rest) : StepEvent s (State.writeReg { s with turns := rest } v r) := by
  cases r
  case ctrl =>
    unfold State.writeReg State.writeCtrl
    dsimp only
    split
    · exact .reset h (by simpa [Turn.isReset, Reg.offset]) s.resetLine
    · apply StepEvent.outside
  case cmd => exact .command h
  case status => exact .acknowledge h
  case freqData =>
    unfold State.writeReg State.writeFreqData
    dsimp only
    split
    · apply StepEvent.outside
    · split
      · exact .frequency h (by simpa [State.busy] using ‹¬ State.busy _ = true›) _
      · apply StepEvent.outside
  all_goals apply StepEvent.outside

theorem stepEvent_hostTurn {s t : State} {a : Access} {rest : List Turn} (hturn : s.turns = .host a :: rest)
    (h : hostTurn { s with turns := rest } a = .next t) : StepEvent s t := by
  unfold hostTurn at h
  split at h
  · cases h
  split at h
  · cases a with
    | read off size =>
      obtain rfl := Host.Outcome.next.inj h
      exact stepEvent_busRead s rest off
    | write off size v =>
      rw [runAccess_write] at h
      obtain rfl := Host.Outcome.next.inj h
      unfold State.busWrite
      cases hr : Reg.atOffset off with
      | none => apply StepEvent.outside
      | some r =>
        obtain rfl := Reg.offset_of_atOffset hr
        exact stepEvent_writeReg hturn
  · cases h

theorem stepEvent_waitTurn {s t : State} {rest : List Turn} (h : waitTurn { s with turns := rest } = .next t) :
    StepEvent s t := by
  unfold waitTurn at h
  split at h
  · cases h
  split at h
  · obtain rfl := Host.Outcome.next.inj h
    simp only [State.busRead]
    split <;> apply StepEvent.outside
  · obtain rfl := Host.Outcome.next.inj h
    exact stepEvent_busRead s rest 0x08#8

theorem stepEvent_portTurn {s s' t : State} {rest : List Turn} (hs' : StepEvent s s')
    (h : portTurn { s with turns := rest } s' = .next t) : StepEvent s t := by
  unfold portTurn at h
  split at h
  · cases h
  · obtain rfl := Host.Outcome.next.inj h
    exact hs'

/-- Every step that answers a next state is one of the events. -/
theorem stepEvent_of_step {s t : State} (h : step s = .next t) : StepEvent s t := by
  obtain ⟨-, h⟩ | ⟨u, rest, hturn, h⟩ := step_cases h
  · exact stepEvent_coreTurn (turns := s.turns) h
  · cases u with
    | host a => exact stepEvent_hostTurn hturn h
    | core => exact stepEvent_coreTurn h
    | wait => exact stepEvent_waitTurn h
    | resetLine asserted =>
      obtain rfl := Host.Outcome.next.inj h
      cases asserted with
      | false => apply StepEvent.outside
      | true => exact .reset hturn rfl true
    | ports i o => obtain rfl := Host.Outcome.next.inj h; apply StepEvent.outside
    | loadInput bits => exact stepEvent_portTurn (by apply StepEvent.outside) h
    | rewindInput => exact stepEvent_portTurn (by apply StepEvent.outside) h
    | freshOutput => exact stepEvent_portTurn (by apply StepEvent.outside) h

end Sys2Proof.Machine
end

section
/-! The child positions of a node store, and the two tree predicates (R27, R131) as propositions with named parts. -/

namespace Sys2Proof.Machine

/-! ### Child positions -/

theorem toNat_ofNat_nodeIdx {i : Nat} (h : i < 1024) : (BitVec.ofNat 10 i).toNat = i := by
  simp [Nat.mod_eq_of_lt h]

/-- The two child positions of a node. -/
def slotsOf (i : NodeIdx) : List Slot := [.left i, .right i]

/-- The child positions that node `i` adds: none for a leaf. -/
def slotsAt (m : Memory Node) (i : Nat) : List Slot :=
  if (Memory.read Node.zero m i).leaf then [] else slotsOf (BitVec.ofNat 10 i)

theorem childSlots_succ (m : Memory Node) (n : Nat) : childSlots m (n + 1) = childSlots m n ++ slotsAt m n := by
  simp [childSlots, List.range_succ, slotsAt, slotsOf]

/-- The child positions depend on the leaf bits alone. -/
theorem childSlots_congr {m m' : Memory Node} {n : Nat}
    (h : ∀ i < n, (Memory.read Node.zero m' i).leaf = (Memory.read Node.zero m i).leaf) :
    childSlots m' n = childSlots m n := by
  induction n with
  | zero => rfl
  | succ n ih =>
    rw [childSlots_succ, childSlots_succ, ih fun i hi => h i (by omega), slotsAt, slotsAt, h n (by omega)]

theorem mem_slotsAt {m : Memory Node} {i : Nat} {sl : Slot} :
    sl ∈ slotsAt m i ↔ (Memory.read Node.zero m i).leaf = false ∧ sl ∈ slotsOf (BitVec.ofNat 10 i) := by
  unfold slotsAt
  cases (Memory.read Node.zero m i).leaf <;> simp

theorem mem_slotsOf {i : NodeIdx} {sl : Slot} : sl ∈ slotsOf i ↔ sl = .left i ∨ sl = .right i := by
  simp [slotsOf]

theorem mem_childSlots {m : Memory Node} {n : Nat} {sl : Slot} : sl ∈ childSlots m n ↔ ∃ i < n, sl ∈ slotsAt m i := by
  simp [childSlots, slotsAt, slotsOf]

theorem slotsAt_parent {m : Memory Node} {i : Nat} (hi : i < 1024) {sl : Slot} (h : sl ∈ slotsAt m i) : sl.parent = i := by
  obtain rfl | rfl := mem_slotsOf.mp (mem_slotsAt.mp h).2 <;> exact toNat_ofNat_nodeIdx hi

/-- A child position belongs to an internal node of the store. -/
theorem childSlots_parent {m : Memory Node} {n : Nat} (hn : n ≤ 1024) {sl : Slot} (h : sl ∈ childSlots m n) :
    sl.parent < n ∧ (Memory.read Node.zero m sl.parent).leaf = false ∧ sl ≠ .root := by
  obtain ⟨i, hi, hsl⟩ := mem_childSlots.mp h
  rw [slotsAt_parent (by omega) hsl]
  obtain ⟨hleaf, hsl⟩ := mem_slotsAt.mp hsl
  refine ⟨hi, hleaf, ?_⟩
  rintro rfl
  simp [slotsOf] at hsl

/-- Both child positions of an internal node of the store are listed. -/
theorem slotsOf_subset_childSlots {m : Memory Node} {n : Nat} {p : NodeIdx} (hp : p.toNat < n)
    (hleaf : (Memory.read Node.zero m p.toNat).leaf = false) : slotsOf p ⊆ childSlots m n := fun sl hsl =>
  mem_childSlots.mpr ⟨p.toNat, hp, mem_slotsAt.mpr ⟨hleaf, by simpa using hsl⟩⟩

theorem childSlots_nodup (m : Memory Node) : ∀ {n : Nat}, n ≤ 1024 → (childSlots m n).Nodup
  | 0, _ => List.nodup_nil
  | n + 1, hn => by
    rw [childSlots_succ, List.nodup_append']
    refine ⟨childSlots_nodup m (by omega), ?_, fun sl h h' => ?_⟩
    · unfold slotsAt slotsOf; split <;> simp
    · have := (childSlots_parent (by omega) h).1
      rw [slotsAt_parent (by omega) h'] at this
      omega

/-- The child in a position depends on the parent's links alone. -/
theorem Slot.child_congr {m m' : Memory Node} {sl : Slot}
    (h : Memory.read Node.zero m' sl.parent = Memory.read Node.zero m sl.parent) : sl.child m' = sl.child m := by
  cases sl <;> simp only [Slot.child, Slot.parent] at h ⊢ <;> rw [h]

theorem slotOrdered_congr {src : TreeSource} {m m' : Memory Node} {sl : Slot} (h : sl.child m' = sl.child m) :
    slotOrdered src m' sl = slotOrdered src m sl := by
  cases src <;> simp only [slotOrdered, h]

/-! ### The full tree (R27, R117, R133) -/

/-- R117, R133: a built tree has its root last, a parsed one first. -/
def rootPlace (root n : Nat) : TreeSource → Prop
  | .built => root = n - 1
  | .parsed => root = 0

/-- `treeOk`, part by part. -/
structure FullTree (src : TreeSource) (m : Memory Node) (root n : Nat) : Prop where
  root_lt : root < n
  n_le : n ≤ Config.maxNodes
  children : ((childSlots m n).map (Slot.child m)).Perm ((List.range n).erase root)
  ordered : ∀ sl ∈ childSlots m n, slotOrdered src m sl = true
  fields : ∀ i < n, nodeFieldsOk src (Memory.read Node.zero m i) = true
  place : rootPlace root n src

theorem treeOk_iff {src : TreeSource} {m : Memory Node} {root n : Nat} :
    treeOk src m root n = true ↔ FullTree src m root n := by
  cases src <;>
  · simp only [treeOk, Bool.and_eq_true, decide_eq_true_eq, List.all_eq_true, List.mem_range]
    exact ⟨fun ⟨⟨⟨⟨⟨h1, h2⟩, h3⟩, h4⟩, h5⟩, h6⟩ => ⟨h1, h2, h3, h4, h5, h6⟩,
      fun ⟨h1, h2, h3, h4, h5, h6⟩ => ⟨⟨⟨⟨⟨h1, h2⟩, h3⟩, h4⟩, h5⟩, h6⟩⟩

/-- R27: the children of an internal entry of a full tree are entries of it. -/
theorem FullTree.children_lt {src : TreeSource} {m : Memory Node} {root n : Nat} (h : FullTree src m root n) {p : NodeIdx}
    (hp : p.toNat < n) (hleaf : (Memory.read Node.zero m p.toNat).leaf = false) :
    (Memory.read Node.zero m p.toNat).left.toNat < n ∧ (Memory.read Node.zero m p.toNat).right.toNat < n := by
  have hchild : ∀ sl ∈ childSlots m n, sl.child m < n := fun sl hsl =>
    List.mem_range.mp (List.mem_of_mem_erase (h.children.mem_iff.mp (List.mem_map_of_mem hsl)))
  have hsub := slotsOf_subset_childSlots hp hleaf
  exact ⟨hchild (.left p) (hsub (by simp [slotsOf])), hchild (.right p) (hsub (by simp [slotsOf]))⟩

/-! ### The tree parsed so far (R131) -/

/-- The child positions of the entries that are filled already. -/
def filledSlots (m : Memory Node) (n : Nat) (pend : List Slot) : List Slot :=
  (childSlots m n).filter fun sl => decide (sl ∉ pend)

theorem mem_filledSlots {m : Memory Node} {n : Nat} {pend : List Slot} {sl : Slot} :
    sl ∈ filledSlots m n pend ↔ sl ∈ childSlots m n ∧ sl ∉ pend := by
  simp [filledSlots]

theorem filledSlots_nodup {m : Memory Node} {n : Nat} (hn : n ≤ 1024) (pend : List Slot) : (filledSlots m n pend).Nodup :=
  (childSlots_nodup m hn).filter _

/-- R131: the fields of an entry that the parser has begun. -/
structure ParsedNode (x : Node) : Prop where
  weight : x.weight = 0#32
  leaf : x.leaf = true → nodeFieldsOk .parsed x = true
  internal : x.leaf = false → x.sym = 0#9

/-- `parseOk`, part by part. -/
structure ParsedTree (m : Memory Node) (n : Nat) (pend : List Slot) : Prop where
  n_le : n ≤ Config.maxNodes
  nodup : pend.Nodup
  start : n = 0 → pend = [.root]
  pending : n ≠ 0 → ∀ sl ∈ pend, sl ∈ childSlots m n
  children : ((filledSlots m n pend).map (Slot.child m)).Perm (List.range' 1 (n - 1))
  ordered : ∀ sl ∈ filledSlots m n pend, slotOrdered .parsed m sl = true
  fields : ∀ i < n, ParsedNode (Memory.read Node.zero m i)

theorem parsedNode_iff {x : Node} : ParsedNode x ↔
    (x.weight = 0#32 ∧ (!x.leaf || nodeFieldsOk .parsed x) = true) ∧ (x.leaf || decide (x.sym = 0#9)) = true := by
  have h : ParsedNode x ↔
      x.weight = 0#32 ∧ (x.leaf = true → nodeFieldsOk .parsed x = true) ∧ (x.leaf = false → x.sym = 0#9) :=
    ⟨fun ⟨h1, h2, h3⟩ => ⟨h1, h2, h3⟩, fun ⟨h1, h2, h3⟩ => ⟨h1, h2, h3⟩⟩
  rw [h]
  cases x.leaf <;> simp

theorem parseOk_iff {m : Memory Node} {n : Nat} {pend : List Slot} : parseOk m n pend = true ↔ ParsedTree m n pend := by
  have hstart : (if n = 0 then decide (pend = [.root]) else pend.all fun sl => decide (sl ∈ childSlots m n)) = true ↔
      (n = 0 → pend = [.root]) ∧ (n ≠ 0 → ∀ sl ∈ pend, sl ∈ childSlots m n) := by
    by_cases h : n = 0 <;> simp [h]
  simp only [parseOk, Bool.and_eq_true, hstart, decide_eq_true_eq, List.all_eq_true, List.mem_range, ← parsedNode_iff]
  exact ⟨fun ⟨⟨⟨⟨⟨h1, h2⟩, h3, h4⟩, h5⟩, h6⟩, h7⟩ => ⟨h1, h2, h3, h4, h5, h6, h7⟩,
    fun ⟨h1, h2, h3, h4, h5, h6, h7⟩ => ⟨⟨⟨⟨⟨h1, h2⟩, h3, h4⟩, h5⟩, h6⟩, h7⟩⟩

end Sys2Proof.Machine
end

section
/-! TREE_BUILD leaves a full tree (R116, R117): the live nodes and the children of the merged nodes are, at every pass, the nodes made
so far, each once. -/

namespace Sys2Proof.Machine

/-- What the merge loop keeps: the first `k` entries are a forest whose roots are the live set `q`, the newest node among them;
`k + q.length` is constant, and small enough for the store. -/
structure Forest (m : Memory Node) (q : List Nat) (k : Nat) : Prop where
  wf : Memory.wf Node.zero Config.maxNodes m = true
  room : k + q.length ≤ Config.maxNodes + 1
  nodes : ((childSlots m k).map (Slot.child m) ++ q).Perm (List.range k)
  ordered : ∀ sl ∈ childSlots m k, slotOrdered .built m sl = true
  fields : ∀ i < k, nodeFieldsOk .built (Memory.read Node.zero m i) = true
  newest : k - 1 ∈ q

theorem Forest.live_lt {m : Memory Node} {q : List Nat} {k : Nat} (h : Forest m q k) {i : Nat} (hi : i ∈ q) : i < k :=
  List.mem_range.mp (h.nodes.mem_iff.mp (List.mem_append_right _ hi))

/-- A forest with one root is a full tree. -/
theorem Forest.fullTree {m : Memory Node} {r k : Nat} (h : Forest m [r] k) : FullTree .built m (k - 1) k := by
  obtain rfl : k - 1 = r := List.mem_singleton.mp h.newest
  have hroot := h.live_lt h.newest
  have hroom := h.room
  rw [List.length_singleton] at hroom
  refine ⟨hroot, by omega, ?_, h.ordered, h.fields, rfl⟩
  have hperm := (List.perm_append_singleton (k - 1) _).symm.trans h.nodes
  exact (hperm.trans (List.perm_cons_erase (List.mem_range.mpr hroot))).cons_inv

/-- Writing above the entries of a store leaves their child positions and what these hold. -/
theorem childSlots_write {m : Memory Node} (hwf : Memory.wf Node.zero Config.maxNodes m = true) {k : Nat} (hk : k ≤ 1024)
    (x : Node) :
    childSlots (Memory.write Node.zero m k x) k = childSlots m k ∧
      ∀ sl ∈ childSlots m k, sl.child (Memory.write Node.zero m k x) = sl.child m := by
  have hread : ∀ i < k, Memory.read Node.zero (Memory.write Node.zero m k x) i = Memory.read Node.zero m i := fun i hi => by
    rw [Memory.read_write_wf hwf, if_neg (by omega)]
  exact ⟨childSlots_congr fun i hi => by rw [hread i hi],
    fun sl hsl => Slot.child_congr (hread _ (childSlots_parent hk hsl).1)⟩

/-- R111: the two child positions of a merged node hold the nodes merged. -/
theorem slotsAt_mergedNode {m : Memory Node} {k w a b : Nat} (h : Memory.read Node.zero m k = mergedNode w a b)
    (hk : k < 1024) (ha : a < 1024) (hb : b < 1024) :
    (slotsAt m k).map (Slot.child m) = [a, b] := by
  have hslots : slotsAt m k = slotsOf (BitVec.ofNat 10 k) := by rw [slotsAt, h]; rfl
  simp only [hslots, slotsOf, List.map_cons, List.map_nil, Slot.child, toNat_ofNat_nodeIdx hk, h]
  simp only [mergedNode, toNat_ofNat_nodeIdx ha, toNat_ofNat_nodeIdx hb]

/-- R111: a merge of two live nodes keeps the forest: they leave the live set, their parent joins it. -/
theorem Forest.merge {m : Memory Node} {q rest : List Nat} {k a b : Nat} (h : Forest m q k)
    (hq : q.Perm (a :: b :: rest)) (w : Nat) :
    Forest (Memory.write Node.zero m k (mergedNode w a b)) (rest ++ [k]) (k + 1) := by
  have hroom := h.room
  rw [hq.length_eq, Config.maxNodes] at hroom
  simp only [List.length_cons] at hroom
  have ha : a < k := h.live_lt (hq.mem_iff.mpr (by simp))
  have hb : b < k := h.live_lt (hq.mem_iff.mpr (by simp))
  have hk : k < Config.maxNodes := by rw [Config.maxNodes]; omega
  have hwf := Memory.wf_write h.wf (mergedNode w a b) hk
  obtain ⟨hslots, hchild⟩ := childSlots_write h.wf (k := k) (by omega) (mergedNode w a b)
  have hread := Memory.read_write_wf h.wf k (mergedNode w a b)
  generalize Memory.write Node.zero m k (mergedNode w a b) = m' at hwf hslots hchild hread ⊢
  have hnew := slotsAt_mergedNode ((hread k).trans (if_pos rfl)) (by omega) (by omega) (by omega)
  refine ⟨hwf, ?_, ?_, ?_, ?_, by simp⟩
  · rw [Config.maxNodes, List.length_append, List.length_singleton]; omega
  · rw [childSlots_succ, hslots, List.map_append, hnew, List.map_congr_left hchild, List.range_succ, ← List.append_assoc,
      List.append_assoc _ [a, b]]
    exact ((hq.symm.append_left _).trans h.nodes).append_right [k]
  · rw [childSlots_succ, hslots]
    intro sl hsl
    obtain hsl | hsl := List.mem_append.mp hsl
    · rw [slotOrdered_congr (hchild sl hsl)]
      exact h.ordered sl hsl
    · have hc : sl.child m' ∈ [a, b] := hnew ▸ List.mem_map_of_mem hsl
      simp only [slotOrdered, slotsAt_parent (by omega) hsl, decide_eq_true_eq]
      obtain hc | hc := List.mem_pair.mp hc <;> omega
  · intro i hi
    rw [hread]
    split
    · rfl
    · exact h.fields i (by omega)

theorem mergeLoop_of_le_one (fuel : Nat) (m : Memory Node) {q : List Nat} (k : Nat) (h : q.length ≤ 1) :
    mergeLoop fuel m q k = ⟨m, k, false⟩ := by
  match fuel, q, h with
  | 0, _, _ => rfl
  | _ + 1, [], _ => rfl
  | _ + 1, [_], _ => rfl

/-- R111: one pass of the merge loop over a live set of two or more: two live nodes are removed and merged. -/
theorem mergeLoop_succ (fuel : Nat) (m : Memory Node) {q : List Nat} (k : Nat) (h : 2 ≤ q.length) :
    ∃ a b rest, q.Perm (a :: b :: rest) ∧ mergeLoop (fuel + 1) m q k =
      if Config.weightMax < weightAt m a + weightAt m b then ⟨m, k, true⟩
      else mergeLoop fuel (Memory.write Node.zero m k (mergedNode (weightAt m a + weightAt m b) a b)) (rest ++ [k]) (k + 1) := by
  match q, h with
  | i :: j :: q, _ =>
    have ha := List.perm_cons_erase (qmin_mem m i (j :: q))
    rw [mergeLoop]
    dsimp only
    cases he : (i :: j :: q).erase (qmin m i (j :: q)) with
    | nil => simpa [he] using ha.length_eq
    | cons i' q' =>
      rw [he] at ha
      exact ⟨_, _, _, ha.trans ((List.perm_cons_erase (qmin_mem m i' q')).cons _), rfl⟩

/-- R116: with a pass for every live node the loop ends in one full tree, or a weight overflows. -/
theorem Forest.mergeLoop {fuel : Nat} {m : Memory Node} {q : List Nat} {k : Nat} (h : Forest m q k) (hfuel : q.length ≤ fuel)
    {r : BuildResult} (hr : mergeLoop fuel m q k = r) (hover : r.overflow = false) :
    FullTree .built r.node (r.next - 1) r.next := by
  induction fuel generalizing m q k with
  | zero => exact absurd (List.length_pos_of_mem h.newest) (by omega)
  | succ fuel ih =>
    by_cases hq : q.length ≤ 1
    · rw [mergeLoop_of_le_one _ m k hq] at hr
      subst hr
      obtain ⟨x, rfl⟩ : ∃ x, q = [x] := by
        rw [← List.length_eq_one_iff]
        have := List.length_pos_of_mem h.newest
        omega
      exact h.fullTree
    · obtain ⟨a, b, rest, hperm, hloop⟩ := mergeLoop_succ fuel m k (show 2 ≤ q.length by omega)
      rw [hloop] at hr
      split at hr
      · subst hr; cases hover
      · refine ih (h.merge hperm _) ?_ hr
        have := hperm.length_eq
        simp at this ⊢
        omega

/-! ### The leaves -/

/-- R111: what the store reads after the leaves are placed. -/
theorem placeLeaves_read (freq : Nat → Word) : ∀ {ks : List Nat} {i : Nat} {m : Memory Node},
    Memory.wf Node.zero Config.maxNodes m = true → i + ks.length ≤ Config.maxNodes →
    Memory.wf Node.zero Config.maxNodes (placeLeaves freq i ks m) = true ∧
      (∀ j < i, Memory.read Node.zero (placeLeaves freq i ks m) j = Memory.read Node.zero m j) ∧
      ∀ (j : Nat) (hj : j < ks.length),
        Memory.read Node.zero (placeLeaves freq i ks m) (i + j) = leafNode ks[j] (freq ks[j])
  | [], _, _, hwf, _ => ⟨hwf, fun _ _ => rfl, fun _ hj => absurd hj (Nat.not_lt_zero _)⟩
  | k :: ks, i, m, hwf, hlen => by
    rw [List.length_cons] at hlen
    obtain ⟨hwf', hbelow, hleaf⟩ := placeLeaves_read freq (ks := ks) (i := i + 1)
      (Memory.wf_write hwf (leafNode k (freq k)) (show i < _ by omega)) (by omega)
    refine ⟨hwf', fun j hj => ?_, fun j hj => ?_⟩
    · rw [placeLeaves, hbelow j (by omega), Memory.read_write_wf hwf, if_neg (by omega)]
    · cases j with
      | zero =>
        rw [placeLeaves, hbelow (i + 0) (by omega), Memory.read_write_wf hwf, if_pos (Nat.add_zero i)]
        rfl
      | succ j =>
        rw [placeLeaves, show i + (j + 1) = i + 1 + j by omega]
        exact hleaf j (by simpa using hj)

theorem childSlots_of_leaves {m : Memory Node} : ∀ {n : Nat}, (∀ i < n, (Memory.read Node.zero m i).leaf = true) →
    childSlots m n = []
  | 0, _ => rfl
  | n + 1, h => by
    rw [childSlots_succ, childSlots_of_leaves fun i hi => h i (by omega), slotsAt, if_pos (h n (by omega))]
    rfl

/-- R111: the forest that the merge loop starts from: one leaf per live symbol. -/
theorem forest_placeLeaves (freq : Nat → Word) {ks : List Nat} {m : Memory Node}
    (hwf : Memory.wf Node.zero Config.maxNodes m = true) (hpos : 0 < ks.length) (hlen : 2 * ks.length ≤ Config.maxNodes + 1) :
    Forest (placeLeaves freq 0 ks m) (List.range ks.length) ks.length := by
  obtain ⟨hwf', -, hleaf⟩ := placeLeaves_read freq (ks := ks) (i := 0) hwf (by omega)
  have hleaf : ∀ i < ks.length, ∃ sym w, Memory.read Node.zero (placeLeaves freq 0 ks m) i = leafNode sym w :=
    fun i hi => ⟨_, _, Nat.zero_add i ▸ hleaf i hi⟩
  have hslots : childSlots (placeLeaves freq 0 ks m) ks.length = [] := childSlots_of_leaves fun i hi => by
    obtain ⟨sym, w, h⟩ := hleaf i hi
    rw [h]; rfl
  refine ⟨hwf', by rw [List.length_range]; omega, by rw [hslots]; rfl, by simp [hslots], fun i hi => ?_, by simpa⟩
  obtain ⟨sym, w, h⟩ := hleaf i hi
  rw [h]; rfl

theorem State.liveSymbols_length (s : State) : 0 < s.liveSymbols.length ∧ s.liveSymbols.length ≤ 257 := by
  constructor
  · exact List.length_pos_of_mem (List.mem_filter.mpr ⟨List.mem_range.mpr (by decide : 256 < 257), by simp⟩)
  · exact (List.length_filter_le _ _).trans_eq (List.length_range)

/-- R116, R117: TREE_BUILD without a weight overflow makes a full tree. -/
theorem State.buildTree_fullTree {s : State} (h : s.memoryOk = true) (hover : s.buildTree.overflow = false) :
    FullTree .built s.buildTree.node (s.buildTree.next - 1) s.buildTree.next := by
  obtain ⟨⟨-, hwf⟩, -⟩ := State.memoryOk_iff.mp h
  obtain ⟨hpos, hlen⟩ := s.liveSymbols_length
  have hforest := forest_placeLeaves s.freqAt hwf hpos (by rw [Config.maxNodes]; omega)
  exact hforest.mergeLoop List.length_range.le rfl hover

end Sys2Proof.Machine
end

section
/-! HDR_READ parses a full tree (R131 to R133): a token's node fills the pending position on top and brings its own. -/

namespace Sys2Proof.Machine

/-! ### What a node begun leaves in the store -/

/-- R131: the parent of a child position, linked to a node. -/
def Slot.link (idx : NodeIdx) (x : Node) : Slot → Node
  | .root => x
  | .left _ => { x with left := idx }
  | .right _ => { x with right := idx }

@[simp] theorem Slot.link_leaf (sl : Slot) (idx : NodeIdx) (x : Node) : (sl.link idx x).leaf = x.leaf := by cases sl <;> rfl
@[simp] theorem Slot.link_sym (sl : Slot) (idx : NodeIdx) (x : Node) : (sl.link idx x).sym = x.sym := by cases sl <;> rfl
@[simp] theorem Slot.link_weight (sl : Slot) (idx : NodeIdx) (x : Node) : (sl.link idx x).weight = x.weight := by
  cases sl <;> rfl

/-- R131: the entry of a node just begun. -/
def begunNode (leaf : Bool) : Node := ⟨leaf, 0#9, 0#32, 0#10, 0#10⟩

theorem State.read_setNode {s : State} (h : s.memoryOk = true) {i : NodeIdx} (hi : i.toNat < Config.maxNodes) (x : Node)
    (j : Nat) :
    Memory.read Node.zero (s.setNode i x).node j = if j = i.toNat then x else Memory.read Node.zero s.node j := by
  rw [State.setNode_node, if_pos hi, Memory.read_write_wf (State.memoryOk_iff.mp h).1.2]

theorem State.memoryOk_fillSlot {s : State} (h : s.memoryOk = true) (sl : Slot) (i : NodeIdx) :
    (s.fillSlot sl i).memoryOk = true := by
  cases sl with
  | root => exact h
  | left p => exact State.memoryOk_setNode h p _
  | right p => exact State.memoryOk_setNode h p _

theorem State.read_fillSlot {s : State} (h : s.memoryOk = true) {sl : Slot} (hp : sl.parent < Config.maxNodes) (i : NodeIdx)
    (j : Nat) :
    Memory.read Node.zero (s.fillSlot sl i).node j =
      if j = sl.parent then sl.link i (Memory.read Node.zero s.node j) else Memory.read Node.zero s.node j := by
  cases sl with
  | root => exact (ite_self _).symm
  | left p =>
    rw [State.fillSlot, State.read_setNode h hp]
    exact ite_congr rfl (fun hj => by rw [hj]; rfl) fun _ => rfl
  | right p =>
    rw [State.fillSlot, State.read_setNode h hp]
    exact ite_congr rfl (fun hj => by rw [hj]; rfl) fun _ => rfl

/-- The store `m'` is `m` with node `n` begun in the position `sl`. -/
def NodeBegun (m m' : Memory Node) (n : Nat) (sl : Slot) (leaf : Bool) : Prop :=
  ∀ j, Memory.read Node.zero m' j =
    if j = n then begunNode leaf
    else if j = sl.parent then sl.link (BitVec.ofNat 10 n) (Memory.read Node.zero m j)
    else Memory.read Node.zero m j

theorem State.nodeBegun_startNode {s : State} (h : s.memoryOk = true) {sl : Slot} (hp : sl.parent < Config.maxNodes)
    (hn : s.ncount.toNat < Config.maxNodes) (rest : List Slot) (leaf : Bool) :
    NodeBegun s.node (s.startNode sl rest leaf).node s.ncount.toNat sl leaf := fun j => by
  have hfill : State.memoryOk { s.fillSlot sl s.ncount with ncount := s.ncount + 1#10, pend := rest } = true :=
    s.memoryOk_fillSlot h sl s.ncount
  rw [State.startNode, State.read_setNode hfill hn, BitVec.ofNat_toNat, BitVec.setWidth_eq]
  exact ite_congr rfl (fun _ => rfl) fun _ => State.read_fillSlot h hp s.ncount j

theorem NodeBegun.leaf_eq {m m' : Memory Node} {n : Nat} {sl : Slot} {leaf : Bool} (h : NodeBegun m m' n sl leaf) {i : Nat}
    (hi : i ≠ n) : (Memory.read Node.zero m' i).leaf = (Memory.read Node.zero m i).leaf := by
  rw [h i, if_neg hi]
  split <;> simp

theorem NodeBegun.child_eq {m m' : Memory Node} {n : Nat} {sl : Slot} {leaf : Bool} (h : NodeBegun m m' n sl leaf)
    (hp : sl.parent ≠ n) (hroot : sl ≠ .root) (hn : n < 1024) : sl.child m' = n := by
  have hread : Memory.read Node.zero m' sl.parent = sl.link (BitVec.ofNat 10 n) (Memory.read Node.zero m sl.parent) := by
    rw [h, if_neg hp, if_pos rfl]
  cases sl with
  | root => exact absurd rfl hroot
  | left p => rw [Slot.child, show p.toNat = (Slot.left p).parent from rfl, hread]; exact toNat_ofNat_nodeIdx hn
  | right p => rw [Slot.child, show p.toNat = (Slot.right p).parent from rfl, hread]; exact toNat_ofNat_nodeIdx hn

/-- Every other child position holds what it held, the sibling of the position filled among them. -/
theorem NodeBegun.child_of_ne {m m' : Memory Node} {n : Nat} {sl other : Slot} {leaf : Bool} (h : NodeBegun m m' n sl leaf)
    (hp : other.parent ≠ n) (hne : other ≠ sl) : other.child m' = other.child m := by
  have hread := h other.parent
  rw [if_neg hp] at hread
  by_cases hparent : other.parent = sl.parent
  · rw [if_pos hparent] at hread
    cases other <;> cases sl <;> simp only [Slot.child, Slot.parent] at hread hparent hne ⊢ <;> rw [hread]
    case left.left => exact absurd (congrArg Slot.left (BitVec.eq_of_toNat_eq hparent)) hne
    case right.right => exact absurd (congrArg Slot.right (BitVec.eq_of_toNat_eq hparent)) hne
    all_goals rfl
  · rw [if_neg hparent] at hread
    exact Slot.child_congr hread

/-! ### The parser's tree -/

/-- R130: the parser starts with the root pending and no node. -/
theorem parsedTree_start (m : Memory Node) : ParsedTree m 0 [.root] where
  n_le := Nat.zero_le _
  nodup := List.nodup_singleton _
  start := fun _ => rfl
  pending := fun h => absurd rfl h
  children := .nil
  ordered := fun _ h => absurd h List.not_mem_nil
  fields := fun _ h => absurd h (Nat.not_lt_zero _)

theorem filledSlots_succ {m m' : Memory Node} {n : Nat} (hn : n < 1024) (hslots : childSlots m' n = childSlots m n)
    (rest : List Slot) : filledSlots m' (n + 1) (slotsAt m' n ++ rest) = filledSlots m n rest := by
  have hnew : (slotsAt m' n).filter (fun sl => decide (sl ∉ slotsAt m' n ++ rest)) = [] :=
    List.filter_eq_nil_iff.mpr fun sl hsl => by simp [hsl]
  rw [filledSlots, childSlots_succ, hslots, List.filter_append, hnew, List.append_nil, filledSlots]
  refine List.filter_congr fun sl hsl => ?_
  have hold : sl ∉ slotsAt m' n := fun h => by
    have := (childSlots_parent (by omega) hsl).1
    rw [slotsAt_parent hn h] at this
    omega
  simp [hold]

theorem filledSlots_perm_cons {m : Memory Node} {n : Nat} (hn : n ≤ 1024) {sl : Slot} {rest : List Slot}
    (hsl : sl ∈ childSlots m n) (hrest : sl ∉ rest) : (filledSlots m n rest).Perm (sl :: filledSlots m n (sl :: rest)) := by
  have hnot : sl ∉ filledSlots m n (sl :: rest) := fun h => (mem_filledSlots.mp h).2 List.mem_cons_self
  refine (List.perm_ext_iff_of_nodup (filledSlots_nodup hn rest)
    (List.nodup_cons.mpr ⟨hnot, filledSlots_nodup hn (sl :: rest)⟩)).mpr fun x => ?_
  by_cases hx : x = sl
  · subst hx
    simp [mem_filledSlots, hsl, hrest]
  · simp [mem_filledSlots, hx]

theorem ParsedNode.link {x : Node} (h : ParsedNode x) (hleaf : x.leaf = false) (sl : Slot) (idx : NodeIdx) :
    ParsedNode (sl.link idx x) :=
  ⟨by simpa using h.weight, fun h' => by simp [hleaf] at h', fun _ => by simpa using h.internal hleaf⟩

theorem parsedNode_begun (leaf : Bool) : ParsedNode (begunNode leaf) := by
  cases leaf <;> exact ⟨rfl, fun _ => rfl, fun _ => rfl⟩

section
variable {m m' : Memory Node} {n : Nat} {sl : Slot} {rest : List Slot} {leaf : Bool}

/-- R131: what the position on top of PEND is: the root's, before any node, or one of an internal node's. -/
theorem ParsedTree.top (h : ParsedTree m n (sl :: rest)) :
    (n = 0 ∧ sl = .root ∧ rest = []) ∨ (n ≠ 0 ∧ sl ∈ childSlots m n ∧ sl ∉ rest) := by
  by_cases hn : n = 0
  · exact .inl ⟨hn, List.cons.inj (h.start hn)⟩
  · exact .inr ⟨hn, h.pending hn sl List.mem_cons_self, (List.nodup_cons.mp h.nodup).1⟩

theorem ParsedTree.top_parent_le (h : ParsedTree m n (sl :: rest)) : sl.parent ≤ n := by
  have hle := h.n_le
  rw [Config.maxNodes] at hle
  obtain ⟨-, rfl, -⟩ | ⟨-, hsl, -⟩ := h.top
  · exact Nat.zero_le n
  · exact (childSlots_parent (by omega) hsl).1.le

theorem ParsedTree.begin_pending (h : ParsedTree m n (sl :: rest)) (hn : n < 1024)
    (hslots : childSlots m' n = childSlots m n) :
    (slotsAt m' n ++ rest).Nodup ∧ ∀ x ∈ slotsAt m' n ++ rest, x ∈ childSlots m' (n + 1) := by
  have hrest : ∀ x ∈ rest, x ∈ childSlots m n := by
    obtain ⟨-, -, rfl⟩ | ⟨h0, -, -⟩ := h.top
    · simp
    · exact fun x hx => h.pending h0 x (List.mem_cons_of_mem _ hx)
  have hnodup := childSlots_nodup m' (n := n + 1) (by omega)
  rw [childSlots_succ, hslots] at hnodup ⊢
  obtain ⟨-, hnew, hdisj⟩ := List.nodup_append'.mp hnodup
  refine ⟨List.nodup_append'.mpr ⟨hnew, (List.nodup_cons.mp h.nodup).2, fun x hx hx' => hdisj (hrest x hx') hx⟩, fun x hx => ?_⟩
  obtain hx | hx := List.mem_append.mp hx
  · exact List.mem_append_right _ hx
  · exact List.mem_append_left _ (hrest x hx)

/-- R131: the filled positions after a node is begun, with their children: the position on top of PEND now holds it. -/
theorem ParsedTree.begin_filled (h : ParsedTree m n (sl :: rest)) (hn : n < 1024) (hbegun : NodeBegun m m' n sl leaf) :
    ((filledSlots m n rest).map (Slot.child m')).Perm (List.range' 1 n) ∧
      ∀ x ∈ filledSlots m n rest, slotOrdered .parsed m' x = true := by
  have hparent : ∀ x ∈ childSlots m n, x.parent < n ∧ x ≠ .root := fun x hx =>
    ⟨(childSlots_parent hn.le hx).1, (childSlots_parent hn.le hx).2.2⟩
  have hold : ∀ x ∈ filledSlots m n (sl :: rest), x.child m' = x.child m := fun x hx => by
    obtain ⟨hx, hpend⟩ := mem_filledSlots.mp hx
    exact hbegun.child_of_ne (hparent x hx).1.ne (List.ne_of_not_mem_cons hpend)
  obtain ⟨rfl, -, -⟩ | ⟨h0, hsl, hrest⟩ := h.top
  · exact ⟨.nil, fun x hx => absurd hx List.not_mem_nil⟩
  obtain ⟨hp, hroot⟩ := hparent sl hsl
  have hchild := hbegun.child_eq hp.ne hroot hn
  have hperm := filledSlots_perm_cons hn.le hsl hrest
  constructor
  · obtain ⟨k, rfl⟩ := Nat.exists_eq_succ_of_ne_zero h0
    refine (hperm.map _).trans ?_
    rw [List.map_cons, hchild, List.map_congr_left hold, List.range'_concat, Nat.one_mul, Nat.add_comm 1 k]
    exact (h.children.cons _).trans (List.perm_append_singleton _ _).symm
  · intro x hx
    obtain rfl | hx := List.mem_cons.mp (hperm.mem_iff.mp hx)
    · simpa [slotOrdered, hchild] using hp
    · rw [slotOrdered_congr (hold x hx)]
      exact h.ordered x hx

theorem ParsedTree.begin_fields (h : ParsedTree m n (sl :: rest)) (hbegun : NodeBegun m m' n sl leaf) (hn : n < 1024) :
    ∀ i < n + 1, ParsedNode (Memory.read Node.zero m' i) := by
  intro i hi
  rw [hbegun i]
  split
  · exact parsedNode_begun leaf
  split
  · obtain ⟨rfl, -, -⟩ | ⟨-, hsl, -⟩ := h.top
    · omega
    · exact (h.fields i (by omega)).link (by simpa [*] using (childSlots_parent hn.le hsl).2.1) sl _
  · exact h.fields i (by omega)

/-- R131: a token's first bit keeps the parser's tree: its node fills the position on top of PEND, its own child positions, if any,
are pending in its place. -/
theorem ParsedTree.begin_node (h : ParsedTree m n (sl :: rest)) (hn : n < Config.maxNodes) (hbegun : NodeBegun m m' n sl leaf) :
    ParsedTree m' (n + 1) (slotsAt m' n ++ rest) := by
  have hn' : n < 1024 := hn.trans (by decide)
  have hslots : childSlots m' n = childSlots m n := childSlots_congr fun i hi => hbegun.leaf_eq (by omega)
  obtain ⟨hnodup, hpend⟩ := h.begin_pending hn' hslots
  obtain ⟨hchildren, hordered⟩ := h.begin_filled hn' hbegun
  rw [← filledSlots_succ hn' hslots] at hchildren hordered
  exact ⟨hn, hnodup, fun h0 => absurd h0 (Nat.succ_ne_zero n), fun _ => hpend, hchildren, hordered,
    h.begin_fields hbegun hn'⟩

end

/-- R132: the symbol of a leaf begun keeps the parser's tree. -/
theorem ParsedTree.set_symbol {m m' : Memory Node} {n i : Nat} {pend : List Slot} (h : ParsedTree m n pend)
    (hleaf : (Memory.read Node.zero m i).leaf = true) (sym : Symbol)
    (hread : ∀ j, Memory.read Node.zero m' j =
      if j = i then { Memory.read Node.zero m i with sym := sym } else Memory.read Node.zero m j) :
    ParsedTree m' n pend := by
  have hn : n ≤ 1024 := h.n_le.trans (by decide)
  have hslots : childSlots m' n = childSlots m n := childSlots_congr fun j _ => by
    rw [hread j]
    split
    · rw [‹j = i›]
    · rfl
  have hfilled : filledSlots m' n pend = filledSlots m n pend := by rw [filledSlots, hslots, filledSlots]
  have hchild : ∀ sl ∈ filledSlots m n pend, sl.child m' = sl.child m := fun sl hsl => by
    have hinternal := (childSlots_parent hn (mem_filledSlots.mp hsl).1).2.1
    refine Slot.child_congr ((hread _).trans (if_neg fun e => ?_))
    rw [e, hleaf] at hinternal
    cases hinternal
  refine ⟨h.n_le, h.nodup, h.start, hslots ▸ h.pending, ?_, ?_, fun j hj => ?_⟩
  · rw [hfilled, List.map_congr_left hchild]
    exact h.children
  · rw [hfilled]
    exact fun sl hsl => (slotOrdered_congr (hchild sl hsl)).trans (h.ordered sl hsl)
  · rw [hread j]
    split
    · rw [‹j = i›] at hj
      obtain ⟨hweight, hfields, -⟩ := h.fields i hj
      exact ⟨hweight, fun _ => by simpa [nodeFieldsOk, hleaf] using hfields hleaf, fun e => by simp [hleaf] at e⟩
    · exact h.fields j hj

/-- R133: with no position pending the parser's tree is a full tree, its root first. -/
theorem ParsedTree.fullTree {m : Memory Node} {n : Nat} (h : ParsedTree m n []) : FullTree .parsed m 0 n := by
  obtain ⟨k, rfl⟩ := Nat.exists_eq_succ_of_ne_zero fun h0 => List.cons_ne_nil _ _ (h.start h0).symm
  have hfilled : filledSlots m (k + 1) [] = childSlots m (k + 1) := List.filter_eq_self.mpr fun _ _ => by simp
  refine ⟨Nat.succ_pos k, h.n_le, ?_, hfilled ▸ h.ordered, fun i hi => ?_, rfl⟩
  · rw [List.range_eq_range', List.range'_succ, List.erase_cons_head, ← hfilled]
    exact h.children
  · obtain ⟨hweight, hleaf, hinternal⟩ := h.fields i hi
    cases hl : (Memory.read Node.zero m i).leaf with
    | true => exact hleaf hl
    | false => simp [nodeFieldsOk, hl, hweight, hinternal hl]

end Sys2Proof.Machine
end

section
/-! The tree of the block in every step (R27, R117, R131, R133, R144): what a phase needs of the node store, and that each phase
hands it on. -/

namespace Sys2Proof.Machine

/-! ### The invariant, phase by phase -/

/-- R27: while TREE_VALID = 1 the node store holds a full tree. -/
def State.HoldsTree (s : State) : Prop := s.treeValid = true → FullTree s.treeSrc s.node s.root.toNat s.ncount.toNat

/-- R131: HDR_READ has no valid tree yet, and a parsed one but for the pending positions. -/
structure State.Parsing (s : State) : Prop where
  invalid : s.treeValid = false
  root : s.root = 0#10
  parsed : ParsedTree s.node s.ncount.toNat s.pend

/-- What StepKeepsTheTreeFullBinary says of a state. -/
def State.TreeSafe (s : State) : Prop := s.treeInv = true ∧ s.walkersOk = true

/-- The phases in which an engine is inside a tree. -/
def Phase.inTree : Phase → Bool
  | .hwWalk | .hwSym | .hrBit | .hrSym | .deBit | .deEmit => true
  | _ => false

theorem State.holdsTree_iff {s : State} :
    (!s.treeValid || treeOk s.treeSrc s.node s.root.toNat s.ncount.toNat) = true ↔ s.HoldsTree := by
  rw [State.HoldsTree, ← treeOk_iff]
  cases s.treeValid <;> simp

theorem State.treeSafe_of_not_inTree {s : State} (h : s.phase.inTree = false) : s.TreeSafe ↔ s.HoldsTree := by
  rw [← State.holdsTree_iff, State.TreeSafe, State.treeInv, State.walkersOk]
  cases hp : s.phase <;> simp_all [Phase.inTree]

theorem State.treeSafe_hwWalk {s : State} (hp : s.phase = .hwWalk) :
    s.TreeSafe ↔ s.HoldsTree ∧ ∀ n ∈ s.ts, n < s.ncount := by
  rw [← State.holdsTree_iff, State.TreeSafe, State.treeInv, State.walkersOk, hp]
  simp

theorem State.treeSafe_hwSym {s : State} (hp : s.phase = .hwSym) :
    s.TreeSafe ↔ s.HoldsTree ∧ (∀ n ∈ s.ts, n < s.ncount) ∧ s.hwN < s.ncount := by
  rw [← State.holdsTree_iff, State.TreeSafe, State.treeInv, State.walkersOk, hp]
  simp

theorem State.treeSafe_deBit {s : State} (hp : s.phase = .deBit) :
    s.TreeSafe ↔ s.HoldsTree ∧ (s.nodeAt s.root).leaf = false ∧ s.cur < s.ncount ∧ (s.nodeAt s.cur).leaf = false := by
  rw [← State.holdsTree_iff, State.TreeSafe, State.treeInv, State.walkersOk, hp]
  simp [and_assoc]

theorem State.treeSafe_deEmit {s : State} (hp : s.phase = .deEmit) :
    s.TreeSafe ↔ s.HoldsTree ∧ (s.nodeAt s.root).leaf = false ∧ s.cur < s.ncount ∧ (s.nodeAt s.cur).leaf = true ∧
      (s.nodeAt s.cur).sym ≠ Config.eom := by
  rw [← State.holdsTree_iff, State.TreeSafe, State.treeInv, State.walkersOk, hp]
  simp [and_assoc]

theorem State.parsing_iff {s : State} : s.Parsing ↔
    s.treeValid = false ∧ s.root = 0#10 ∧ parseOk s.node s.ncount.toNat s.pend = true := by
  rw [parseOk_iff]
  exact ⟨fun ⟨h1, h2, h3⟩ => ⟨h1, h2, h3⟩, fun ⟨h1, h2, h3⟩ => ⟨h1, h2, h3⟩⟩

theorem State.treeSafe_hrBit {s : State} (hp : s.phase = .hrBit) : s.TreeSafe ↔ s.Parsing := by
  rw [State.parsing_iff, State.TreeSafe, State.treeInv, State.walkersOk, hp]
  cases s.treeValid <;> simp

theorem State.treeSafe_hrSym {s : State} (hp : s.phase = .hrSym) :
    s.TreeSafe ↔ s.Parsing ∧ s.hleaf < s.ncount ∧ (s.nodeAt s.hleaf).leaf = true := by
  rw [State.parsing_iff, State.TreeSafe, State.treeInv, State.walkersOk, hp]
  cases s.treeValid <;> simp [and_assoc]

/-- Whatever the phase, a valid tree is a full tree. -/
theorem State.TreeSafe.holdsTree {s : State} (h : s.TreeSafe) : s.HoldsTree := by
  obtain ⟨htree, -⟩ := h
  rw [State.treeInv, Bool.and_eq_true] at htree
  exact State.holdsTree_iff.mp htree.1

theorem State.holdsTree_of_invalid {s : State} (h : s.treeValid = false) : s.HoldsTree := fun h' => by
  rw [h] at h'; cases h'

theorem State.Parsing.holdsTree {s : State} (h : s.Parsing) : s.HoldsTree := State.holdsTree_of_invalid h.invalid

/-! ### The two ends of a phase -/

theorem Engine.first_not_inTree (e : Engine) : e.first.inTree = false := by cases e <;> rfl

/-- R100: neither the next engine's first phase nor IDLE is inside a tree. -/
theorem State.HoldsTree.finish {s : State} (h : s.HoldsTree) : s.finish.TreeSafe := by
  obtain ⟨e, -, hfin⟩ | ⟨-, hfin⟩ := s.finish_cases <;> rw [hfin]
  · exact (State.treeSafe_of_not_inTree e.first_not_inTree).mpr h
  · exact (State.treeSafe_of_not_inTree rfl).mpr h

/-- R156: an error ends in IDLE and leaves the tree. -/
theorem State.HoldsTree.raise {s : State} (h : s.HoldsTree) (c : Cause) (info : Word) (atEof midcode : Bool) :
    (s.raise c info atEof midcode).TreeSafe :=
  (State.treeSafe_of_not_inTree rfl).mpr h

/-! ### TREE_BUILD -/

theorem tbBuild_treeSafe {s : State} (h : s.memoryOk = true) : (tbBuild s).TreeSafe := by
  unfold tbBuild
  dsimp only
  split
  · exact State.HoldsTree.raise (State.holdsTree_of_invalid rfl) _ _ _ _
  · refine State.HoldsTree.finish fun _ => ?_
    have hfull := State.buildTree_fullTree h (Bool.eq_false_of_not_eq_true ‹_›)
    have hroot := hfull.root_lt
    have hn := hfull.n_le
    rw [Config.maxNodes] at hn
    dsimp only
    rw [toNat_ofNat_nodeIdx (by omega), toNat_ofNat_nodeIdx (by omega)]
    exact hfull

/-! ### HDR_WRITE -/

theorem hwMagic_treeSafe {s : State} (htree : s.HoldsTree) (hvalid : s.treeValid = true) : (hwMagic s).TreeSafe :=
  (State.treeSafe_hwWalk rfl).mpr ⟨htree, fun _ hn => List.mem_singleton.mp hn ▸ BitVec.lt_def.mpr (htree hvalid).root_lt⟩

theorem State.children_lt {s : State} (htree : s.HoldsTree) (hvalid : s.treeValid = true) {n : NodeIdx} (hn : n < s.ncount)
    (hleaf : (s.nodeAt n).leaf = false) : (s.nodeAt n).left < s.ncount ∧ (s.nodeAt n).right < s.ncount :=
  (htree hvalid).children_lt (BitVec.lt_def.mp hn) hleaf

theorem hwWalk_treeSafe {s : State} (htree : s.HoldsTree) (hvalid : s.treeValid = true) (hts : ∀ n ∈ s.ts, n < s.ncount) :
    (hwWalk s).TreeSafe := by
  unfold hwWalk
  split
  · exact htree.finish
  · next n rest hs =>
    rw [hs] at hts
    obtain ⟨hn, hrest⟩ := List.forall_mem_cons.mp hts
    split
    · exact (State.treeSafe_hwSym rfl).mpr ⟨htree, hrest, hn⟩
    · obtain ⟨hleft, hright⟩ := State.children_lt htree hvalid hn (Bool.eq_false_of_not_eq_true ‹_›)
      exact (State.treeSafe_hwWalk rfl).mpr
        ⟨htree, List.forall_mem_cons.mpr ⟨hleft, List.forall_mem_cons.mpr ⟨hright, hrest⟩⟩⟩

/-! ### HDR_READ -/

theorem hrMagic_treeSafe (s : State) : (hrMagic s).TreeSafe := by
  unfold hrMagic
  dsimp only
  split
  · exact State.HoldsTree.raise (State.holdsTree_of_invalid rfl) _ _ _ _
  · split
    · exact (State.treeSafe_hrBit rfl).mpr ⟨rfl, rfl, parsedTree_start _⟩
    · exact State.HoldsTree.raise (State.holdsTree_of_invalid rfl) _ _ _ _

theorem State.Parsing.advance {s : State} (h : s.Parsing) (n : Nat) : (s.advance n).Parsing := ⟨h.invalid, h.root, h.parsed⟩

@[simp] theorem State.fillSlot_treeValid (s : State) (sl : Slot) (i : NodeIdx) : (s.fillSlot sl i).treeValid = s.treeValid := by
  cases sl <;> simp [State.fillSlot]

@[simp] theorem State.fillSlot_root (s : State) (sl : Slot) (i : NodeIdx) : (s.fillSlot sl i).root = s.root := by
  cases sl <;> simp [State.fillSlot]

/-- R131: a node is begun: the parser's tree with its own child positions pending, and its entry. -/
theorem State.Parsing.startNode {s : State} (h : s.Parsing) (hmem : s.memoryOk = true) {sl : Slot} {rest : List Slot}
    (hpend : s.pend = sl :: rest) (hfull : s.ncount ≠ 513#10) (leaf : Bool) :
    (State.Parsing { s.startNode sl rest leaf with pend := (if leaf then [] else slotsOf s.ncount) ++ rest }) ∧
      s.ncount < (s.startNode sl rest leaf).ncount ∧ ((s.startNode sl rest leaf).nodeAt s.ncount).leaf = leaf := by
  have hparsed := hpend ▸ h.parsed
  have hn : s.ncount.toNat < Config.maxNodes :=
    lt_of_le_of_ne hparsed.n_le fun e => hfull (BitVec.eq_of_toNat_eq e)
  have hbegun := State.nodeBegun_startNode hmem (hparsed.top_parent_le.trans_lt hn) hn rest leaf
  have hnew : Memory.read Node.zero (s.startNode sl rest leaf).node s.ncount.toNat = begunNode leaf :=
    (hbegun _).trans (if_pos rfl)
  have hslots : slotsAt (s.startNode sl rest leaf).node s.ncount.toNat = if leaf then [] else slotsOf s.ncount := by
    rw [slotsAt, hnew, BitVec.ofNat_toNat, BitVec.setWidth_eq]; rfl
  have hcount : (s.startNode sl rest leaf).ncount = s.ncount + 1#10 := by simp [State.startNode]
  have hcountNat : (s.startNode sl rest leaf).ncount.toNat = s.ncount.toNat + 1 := by
    rw [Config.maxNodes] at hn
    rw [hcount, BitVec.toNat_add, BitVec.toNat_ofNat]
    omega
  refine ⟨⟨?_, ?_, ?_⟩, ?_, ?_⟩
  · simpa [State.startNode] using h.invalid
  · simpa [State.startNode] using h.root
  · dsimp only
    rw [hcountNat, ← hslots]
    exact hparsed.begin_node hn hbegun
  · rw [BitVec.lt_def, hcountNat]
    exact Nat.lt_succ_self _
  · rw [State.nodeAt, hnew]; rfl

theorem hrBit_treeSafe {s : State} (h : s.Parsing) (hmem : s.memoryOk = true) : (hrBit s).TreeSafe := by
  unfold hrBit
  split
  · next hpend =>
    refine State.HoldsTree.finish fun _ => ?_
    have hfull := (hpend ▸ h.parsed).fullTree
    dsimp only
    rwa [h.root]
  · next slot rest hpend =>
    split
    · exact h.holdsTree.raise _ _ _ _
    split
    · exact h.holdsTree.raise _ _ _ _
    split
    · obtain ⟨⟨hvalid, hroot, hparsed⟩, -⟩ := (h.advance 1).startNode hmem hpend ‹_› false
      exact (State.treeSafe_hrBit rfl).mpr ⟨hvalid, hroot, hparsed⟩
    · obtain ⟨⟨hvalid, hroot, hparsed⟩, hcount, hleaf⟩ := (h.advance 1).startNode hmem hpend ‹_› true
      have hrest : (State.startNode (s.advance 1) slot rest true).pend = rest := by simp [State.startNode]
      exact (State.treeSafe_hrSym rfl).mpr ⟨⟨hvalid, hroot, hrest.symm ▸ hparsed⟩, hcount, hleaf⟩

theorem hrSym_treeSafe {s : State} (h : s.Parsing) (hmem : s.memoryOk = true) (hcount : s.hleaf < s.ncount)
    (hleaf : (s.nodeAt s.hleaf).leaf = true) : (hrSym s).TreeSafe := by
  unfold hrSym
  split
  · exact h.holdsTree.raise _ _ _ _
  · next sym _ =>
    have hlt : s.hleaf.toNat < Config.maxNodes := (BitVec.lt_def.mp hcount).trans_le h.parsed.n_le
    have hread := State.read_setNode (s := s.advance 9) hmem hlt { s.nodeAt s.hleaf with sym := sym }
    have hparsed := h.parsed.set_symbol hleaf sym hread
    refine (State.treeSafe_hrBit rfl).mpr ⟨?_, ?_, ?_⟩
    · simpa using h.invalid
    · simpa using h.root
    · rw [State.goto_node, State.goto_ncount, State.goto_pend, State.setNode_ncount, State.setNode_pend]
      exact hparsed

/-! ### DECODE -/

theorem deStart_treeSafe {s : State} (htree : s.HoldsTree) (hvalid : s.treeValid = true) : (deStart s).TreeSafe := by
  unfold deStart
  split
  · split
    · exact (State.treeSafe_of_not_inTree rfl).mpr htree
    · exact htree.raise _ _ _ _
  · have hleaf := Bool.eq_false_of_not_eq_true ‹_›
    exact (State.treeSafe_deBit rfl).mpr ⟨htree, hleaf, BitVec.lt_def.mpr (htree hvalid).root_lt, hleaf⟩

/-- R144: the node that DECODE comes to, with the phase it goes on in. -/
theorem arrival_treeSafe {s : State} (htree : s.HoldsTree) (hroot : (s.nodeAt s.root).leaf = false) (hcur : s.cur < s.ncount)
    (hphase : s.phase = arrival (s.nodeAt s.cur)) : s.TreeSafe := by
  unfold arrival at hphase
  split at hphase
  · split at hphase
    · exact (State.treeSafe_of_not_inTree (by rw [hphase]; rfl)).mpr htree
    · exact (State.treeSafe_deEmit hphase).mpr ⟨htree, hroot, hcur, ‹_›, ‹_›⟩
  · exact (State.treeSafe_deBit hphase).mpr ⟨htree, hroot, hcur, Bool.eq_false_of_not_eq_true ‹_›⟩

theorem deBit_treeSafe {s : State} (h : s.TreeSafe) (hp : s.phase = .deBit) (hvalid : s.treeValid = true) :
    (deBit s).TreeSafe := by
  obtain ⟨htree, hroot, hcur, hleaf⟩ := (State.treeSafe_deBit hp).mp h
  obtain ⟨hleft, hright⟩ := State.children_lt htree hvalid hcur hleaf
  unfold deBit
  split
  · exact htree.raise _ _ _ _
  · refine arrival_treeSafe htree hroot ?_ rfl
    show s.childOn _ < s.ncount
    unfold State.childOn
    split
    · exact hleft
    · exact hright

theorem deEmit_treeSafe {s : State} (h : s.TreeSafe) (hp : s.phase = .deEmit) (hvalid : s.treeValid = true) :
    (deEmit s).TreeSafe := by
  obtain ⟨htree, hroot, -⟩ := (State.treeSafe_deEmit hp).mp h
  exact (State.treeSafe_deBit rfl).mpr ⟨htree, hroot, BitVec.lt_def.mpr (htree hvalid).root_lt, hroot⟩

/-! ### The other phases -/

theorem State.HoldsTree.goto {s : State} (h : s.HoldsTree) {p : Phase} (hp : p.inTree = false) : (s.goto p).TreeSafe :=
  (State.treeSafe_of_not_inTree hp).mpr h

theorem faRead_treeSafe {s : State} (h : s.HoldsTree) : (faRead s).TreeSafe := by
  unfold faRead
  split
  · exact h.finish
  split
  · exact State.HoldsTree.raise (s := s.advance 8) h _ _ _ _
  · refine State.HoldsTree.goto ?_ rfl
    simpa [State.HoldsTree, countByte] using h

theorem lookUp_treeSafe {s : State} (h : s.HoldsTree) : (lookUp s).TreeSafe := by
  unfold lookUp
  split
  · exact (State.treeSafe_of_not_inTree rfl).mpr h
  · exact h.raise _ _ _ _

theorem enRead_treeSafe {s : State} (h : s.HoldsTree) : (enRead s).TreeSafe := by
  unfold enRead
  split <;> exact lookUp_treeSafe h

theorem enBits_treeSafe {s : State} (h : s.HoldsTree) : (enBits s).TreeSafe := by
  unfold enBits
  dsimp only
  split
  · exact (State.treeSafe_of_not_inTree rfl).mpr h
  split <;> exact h.goto rfl

/-! ### Every step -/

/-- R149: an engine that walks the tree runs with TREE_VALID = 1. -/
theorem State.treeValid_of_preconditionsOk {s : State} (h : s.preconditionsOk = true)
    (he : s.phase.engine = some .hdrWrite ∨ s.phase.engine = some .decode) : s.treeValid = true := by
  unfold State.preconditionsOk at h
  obtain he | he := he <;> simp_all

theorem phaseStep_treeSafe {s : State} (hmem : s.memoryOk = true) (hpre : s.preconditionsOk = true) (h : s.TreeSafe) :
    (phaseStep s).TreeSafe := by
  have htree := h.holdsTree
  have hvalid := State.treeValid_of_preconditionsOk hpre
  unfold phaseStep
  cases hp : s.phase <;> dsimp only <;> rw [hp] at hvalid
  case idle => exact h
  case nopRun => exact htree.finish
  case fcClear => exact State.HoldsTree.finish (State.holdsTree_of_invalid rfl)
  case faInit => exact State.HoldsTree.goto (State.holdsTree_of_invalid rfl) rfl
  case faRead => exact faRead_treeSafe htree
  case tbBuild => exact tbBuild_treeSafe hmem
  case cgGen => exact State.HoldsTree.finish htree
  case hwMagic => exact hwMagic_treeSafe htree (hvalid (.inl rfl))
  case hwWalk => exact hwWalk_treeSafe htree (hvalid (.inl rfl)) ((State.treeSafe_hwWalk hp).mp h).2
  case hwSym => exact (State.treeSafe_hwWalk rfl).mpr ⟨htree, ((State.treeSafe_hwSym hp).mp h).2.1⟩
  case enRewind => exact (State.treeSafe_of_not_inTree rfl).mpr htree
  case enRead => exact enRead_treeSafe htree
  case enBits => exact enBits_treeSafe htree
  case enClose => exact State.HoldsTree.finish htree
  case hrMagic => exact hrMagic_treeSafe s
  case hrBit => exact hrBit_treeSafe ((State.treeSafe_hrBit hp).mp h) hmem
  case hrSym =>
    obtain ⟨hparsing, hcount, hleaf⟩ := (State.treeSafe_hrSym hp).mp h
    exact hrSym_treeSafe hparsing hmem hcount hleaf
  case deStart => exact deStart_treeSafe htree (hvalid (.inr rfl))
  case deBit => exact deBit_treeSafe h hp (hvalid (.inr rfl))
  case deEmit => exact deEmit_treeSafe h hp (hvalid (.inr rfl))
  case deClose => exact State.HoldsTree.finish htree

theorem dispatch_treeSafe {s : State} (h : s.TreeSafe) (op : BitVec 8) : (s.dispatch op).TreeSafe := by
  obtain ⟨-, hd⟩ | ⟨-, -, hd⟩ | ⟨-, -, -, hd⟩ | ⟨-, -, e, es, -, hd⟩ := s.dispatch_cases op <;> rw [hd]
  · exact h
  · exact (State.treeSafe_of_not_inTree rfl).mpr h.holdsTree
  · exact (State.treeSafe_of_not_inTree rfl).mpr h.holdsTree
  · exact (State.treeSafe_of_not_inTree e.first_not_inTree).mpr h.holdsTree

/-- Settles O52, by cases on what the step did: only the core's phases touch the tree, and each hands on what its successor needs. -/
theorem stepKeepsTheTreeFullBinary : Obligations.StepKeepsTheTreeFullBinary := by
  intro s t hinv hstep
  obtain ⟨⟨⟨⟨⟨⟨⟨hmem, -⟩, hpre⟩, -⟩, -⟩, -⟩, htree⟩, hwalk⟩ := by simpa only [State.inv, Bool.and_eq_true] using hinv
  have hsafe : s.TreeSafe := ⟨htree, hwalk⟩
  cases stepEvent_of_step hstep with
  | outside => exact hsafe
  | reset => exact (State.treeSafe_of_not_inTree rfl).mpr (State.holdsTree_of_invalid rfl)
  | @command _ v rest => exact dispatch_treeSafe (s := { s with turns := rest }) hsafe (v.setWidth 8)
  | acknowledge => exact hsafe
  | frequency _ hidle k =>
    refine (State.treeSafe_of_not_inTree ?_).mpr (State.holdsTree_of_invalid rfl)
    obtain hp : s.phase = .idle := by simpa [State.busy] using hidle
    simp [hp, Phase.inTree]
  | core turns => exact phaseStep_treeSafe (s := { s with turns := turns }) hmem hpre hsafe

end Sys2Proof.Machine
end

section
/-! The sequencer and the flags in a core step (R41, R51, R100, R156): a phase goes on in its engine, ends it, or raises an error; and
the validity flags change in the phases of their table only. -/

namespace Sys2Proof.Machine

/-! ### PHASE, SEQ, DONE and ERR -/

/-- The command, its place in the engine list and its result flags are the same in both states. -/
structure SameControl (s t : State) : Prop where
  activeCmd : t.activeCmd = s.activeCmd
  seq : t.seq = s.seq
  done : t.done = s.done
  err : t.err = s.err

/-- How a core step goes on. -/
inductive CoreMove (s : State) : State → Prop where
  /-- R21: in another phase of the same engine, or in the same phase. -/
  | stay {p : Phase} {t : State} (hp : s.phase = p) (hengine : t.phase.engine = p.engine) (hsame : SameControl s t) : CoreMove s t
  /-- R100: the engine ends. -/
  | finish {u : State} (hsame : SameControl s u) : CoreMove s u.finish
  /-- R156: an error ends the command. -/
  | raise {u : State} {c : Cause} {info : Word} {atEof midcode : Bool} (hsame : SameControl s u) :
      CoreMove s (u.raise c info atEof midcode)

theorem SameControl.refl (s : State) : SameControl s s := ⟨rfl, rfl, rfl, rfl⟩

theorem State.fillSlot_control (s : State) (sl : Slot) (i : NodeIdx) : SameControl s (s.fillSlot sl i) := by
  cases sl <;> constructor <;> simp [State.fillSlot]

theorem State.startNode_control (s : State) (sl : Slot) (rest : List Slot) (leaf : Bool) :
    SameControl s (s.startNode sl rest leaf) := by
  have h := s.fillSlot_control sl s.ncount
  constructor <;> simp [State.startNode, h.activeCmd, h.seq, h.done, h.err]

theorem faRead_move {s : State} (hp : s.phase = .faRead) : CoreMove s (faRead s) := by
  unfold faRead
  split
  · exact .finish (.refl s)
  split
  · exact .raise ⟨rfl, rfl, rfl, rfl⟩
  · exact .stay hp rfl (by constructor <;> simp [countByte])

theorem tbBuild_move (s : State) : CoreMove s (tbBuild s) := by
  unfold tbBuild
  dsimp only
  split
  · exact .raise ⟨rfl, rfl, rfl, rfl⟩
  · exact .finish ⟨rfl, rfl, rfl, rfl⟩

theorem hwWalk_move {s : State} (hp : s.phase = .hwWalk) : CoreMove s (hwWalk s) := by
  unfold hwWalk
  split
  · exact .finish (.refl s)
  split <;> exact .stay hp rfl ⟨rfl, rfl, rfl, rfl⟩

theorem lookUp_move {s u : State} (hsame : SameControl s u) (hp : s.phase = .enRead) : CoreMove s (lookUp u) := by
  unfold lookUp
  split
  · exact .stay hp rfl ⟨hsame.activeCmd, hsame.seq, hsame.done, hsame.err⟩
  · exact .raise hsame

theorem enRead_move {s : State} (hp : s.phase = .enRead) : CoreMove s (enRead s) := by
  unfold enRead
  split <;> exact lookUp_move ⟨rfl, rfl, rfl, rfl⟩ hp

theorem enBits_move {s : State} (hp : s.phase = .enBits) : CoreMove s (enBits s) := by
  unfold enBits
  dsimp only
  split
  · exact .stay hp rfl ⟨rfl, rfl, rfl, rfl⟩
  split <;> exact .stay hp rfl ⟨rfl, rfl, rfl, rfl⟩

theorem hrMagic_move {s : State} (hp : s.phase = .hrMagic) : CoreMove s (hrMagic s) := by
  unfold hrMagic
  dsimp only
  split
  · exact .raise ⟨rfl, rfl, rfl, rfl⟩
  split
  · exact .stay hp rfl ⟨rfl, rfl, rfl, rfl⟩
  · exact .raise ⟨rfl, rfl, rfl, rfl⟩

theorem hrBit_move {s : State} (hp : s.phase = .hrBit) : CoreMove s (hrBit s) := by
  unfold hrBit
  split
  · exact .finish ⟨rfl, rfl, rfl, rfl⟩
  next slot rest _ =>
  split
  · exact .raise (.refl s)
  split
  · exact .raise (.refl s)
  split
  · obtain ⟨hcmd, hseq, hdone, herr⟩ := State.startNode_control (s.advance 1) slot rest false
    exact .stay hp rfl ⟨hcmd, hseq, hdone, herr⟩
  · obtain ⟨hcmd, hseq, hdone, herr⟩ := State.startNode_control (s.advance 1) slot rest true
    exact .stay hp rfl ⟨hcmd, hseq, hdone, herr⟩

theorem hrSym_move {s : State} (hp : s.phase = .hrSym) : CoreMove s (hrSym s) := by
  unfold hrSym
  split
  · exact .raise (.refl s)
  · exact .stay hp rfl (by constructor <;> simp)

theorem deStart_move {s : State} (hp : s.phase = .deStart) : CoreMove s (deStart s) := by
  unfold deStart
  split
  · split
    · exact .stay hp rfl ⟨rfl, rfl, rfl, rfl⟩
    · exact .raise (.refl s)
  · exact .stay hp rfl ⟨rfl, rfl, rfl, rfl⟩

theorem arrival_engine (x : Node) : (arrival x).engine = some .decode := by
  unfold arrival
  split
  · split <;> rfl
  · rfl

theorem deBit_move {s : State} (hp : s.phase = .deBit) : CoreMove s (deBit s) := by
  unfold deBit
  split
  · exact .raise (.refl s)
  · exact .stay hp (arrival_engine _) ⟨rfl, rfl, rfl, rfl⟩

/-- R41, R100, R156: the three ways a core step goes on. -/
theorem phaseStep_move (s : State) : CoreMove s (phaseStep s) := by
  unfold phaseStep
  cases hp : s.phase <;> dsimp only
  case idle => exact .stay rfl rfl (.refl s)
  case nopRun => exact .finish (.refl s)
  case fcClear => exact .finish ⟨rfl, rfl, rfl, rfl⟩
  case faInit => exact .stay hp rfl ⟨rfl, rfl, rfl, rfl⟩
  case faRead => exact faRead_move hp
  case tbBuild => exact tbBuild_move s
  case cgGen => exact .finish ⟨rfl, rfl, rfl, rfl⟩
  case hwMagic => exact .stay hp rfl ⟨rfl, rfl, rfl, rfl⟩
  case hwWalk => exact hwWalk_move hp
  case hwSym => exact .stay hp rfl ⟨rfl, rfl, rfl, rfl⟩
  case enRewind => exact .stay hp rfl ⟨rfl, rfl, rfl, rfl⟩
  case enRead => exact enRead_move hp
  case enBits => exact enBits_move hp
  case enClose => exact .finish ⟨rfl, rfl, rfl, rfl⟩
  case hrMagic => exact hrMagic_move hp
  case hrBit => exact hrBit_move hp
  case hrSym => exact hrSym_move hp
  case deStart => exact deStart_move hp
  case deBit => exact deBit_move hp
  case deEmit => exact .stay hp rfl ⟨rfl, rfl, rfl, rfl⟩
  case deClose => exact .finish ⟨rfl, rfl, rfl, rfl⟩

theorem engines_length_le (op : BitVec 8) : (engines op).length ≤ 5 := by
  unfold engines
  split <;> decide

theorem State.sequencerOk_iff {s : State} : s.sequencerOk = true ↔
    s.seq.toNat ≤ 4 ∧ (s.phase = .idle ∨ (engines s.activeCmd)[s.seq.toNat]? = s.phase.engine) := by
  simp [State.sequencerOk]

theorem State.sequencerOk_finish {s : State} (h : s.seq.toNat ≤ 4) : s.finish.sequencerOk = true := by
  rw [State.sequencerOk_iff]
  obtain ⟨e, he, hfin⟩ | ⟨-, hfin⟩ := s.finish_cases
  · have hlt := (List.getElem?_eq_some_iff.mp he).1.trans_le (engines_length_le s.activeCmd)
    have hseq : (s.seq + 1#3).toNat = s.seq.toNat + 1 := by
      rw [BitVec.toNat_add, BitVec.toNat_ofNat]
      omega
    rw [hfin]
    dsimp only
    rw [hseq, he, Engine.first_engine]
    exact ⟨by omega, .inr rfl⟩
  · rw [hfin]
    exact ⟨h, .inl rfl⟩

theorem CoreMove.sequencerOk {s t : State} (hmove : CoreMove s t) (h : s.sequencerOk = true) : t.sequencerOk = true := by
  obtain ⟨hseq, hphase⟩ := State.sequencerOk_iff.mp h
  cases hmove with
  | stay hp hengine hsame =>
    subst hp
    rw [State.sequencerOk_iff, hsame.seq, hsame.activeCmd, hengine, ← Phase.engine_eq_none, hengine, Phase.engine_eq_none]
    exact ⟨hseq, hphase⟩
  | finish hsame => exact State.sequencerOk_finish (by rwa [hsame.seq])
  | raise hsame => exact State.sequencerOk_iff.mpr ⟨by simpa [hsame.seq] using hseq, .inl rfl⟩

theorem State.sequencerOk_dispatch {s : State} (h : s.sequencerOk = true) (op : BitVec 8) : (s.dispatch op).sequencerOk = true := by
  have hseq := (State.sequencerOk_iff.mp h).1
  obtain ⟨-, hd⟩ | ⟨-, -, hd⟩ | ⟨-, -, -, hd⟩ | ⟨-, -, e, es, he, hd⟩ := s.dispatch_cases op <;> rw [hd]
  · exact h
  · exact State.sequencerOk_iff.mpr ⟨hseq, .inl rfl⟩
  · exact State.sequencerOk_iff.mpr ⟨hseq, .inl rfl⟩
  · exact State.sequencerOk_iff.mpr ⟨Nat.zero_le 4, .inr (by simp [he])⟩

/-- Settles O48, by cases on what the step did: a core step stays in its engine, starts the next one of the list, or goes idle. -/
theorem stepKeepsTheSequencerConsistent : Obligations.StepKeepsTheSequencerConsistent := by
  intro s t h hstep
  cases stepEvent_of_step hstep with
  | outside => exact h
  | reset => exact State.sequencerOk_iff.mpr ⟨Nat.zero_le 4, .inl rfl⟩
  | @command _ v rest => exact State.sequencerOk_dispatch (s := { s with turns := rest }) h (v.setWidth 8)
  | acknowledge => exact h
  | frequency => simpa [State.sequencerOk] using h
  | core turns => exact (phaseStep_move { s with turns := turns }).sequencerOk h

/-! ### TREE_VALID, TREE_SRC and CODES_VALID -/

/-- The validity flags are the same in both states. -/
structure SameValidity (s t : State) : Prop where
  treeValid : t.treeValid = s.treeValid
  treeSrc : t.treeSrc = s.treeSrc
  codesValid : t.codesValid = s.codesValid

/-- R51: what a core step does to the validity flags. -/
inductive ValidityMove (s t : State) : Prop where
  | same (hsame : SameValidity s t)
  | cleared (hphase : s.phase ∈ [.fcClear, .faInit, .tbBuild, .hrMagic]) (hsame : SameValidity s.invalidate t)
  | built (hphase : s.phase = .tbBuild) (hsame : SameValidity { s with treeValid := true, treeSrc := .built, codesValid := false } t)
  | parsed (hphase : s.phase = .hrBit) (hsame : SameValidity { s with treeValid := true, treeSrc := .parsed } t)
  | coded (hphase : s.phase = .cgGen) (hsame : SameValidity { s with codesValid := true } t)

theorem SameValidity.refl (s : State) : SameValidity s s := ⟨rfl, rfl, rfl⟩

theorem SameValidity.trans {s t u : State} (h : SameValidity s t) (h' : SameValidity t u) : SameValidity s u :=
  ⟨h'.treeValid.trans h.treeValid, h'.treeSrc.trans h.treeSrc, h'.codesValid.trans h.codesValid⟩

theorem SameValidity.finish {s u : State} (h : SameValidity s u) : SameValidity s u.finish :=
  h.trans (by constructor <;> simp)

theorem faRead_validity (s : State) : SameValidity s (faRead s) := by
  unfold faRead
  split
  · exact .finish (.refl s)
  split <;> constructor <;> simp [countByte]

theorem tbBuild_validity {s : State} (hp : s.phase = .tbBuild) : ValidityMove s (tbBuild s) := by
  unfold tbBuild
  dsimp only
  split
  · exact .cleared (by simp [hp]) ⟨rfl, rfl, rfl⟩
  · exact .built hp (.finish ⟨rfl, rfl, rfl⟩)

theorem hwWalk_validity (s : State) : SameValidity s (hwWalk s) := by
  unfold hwWalk
  split
  · exact .finish (.refl s)
  split <;> exact ⟨rfl, rfl, rfl⟩

theorem lookUp_validity {s u : State} (h : SameValidity s u) : SameValidity s (lookUp u) := by
  unfold lookUp
  split <;> exact h.trans ⟨rfl, rfl, rfl⟩

theorem enRead_validity (s : State) : SameValidity s (enRead s) := by
  unfold enRead
  split <;> exact lookUp_validity ⟨rfl, rfl, rfl⟩

theorem enBits_validity (s : State) : SameValidity s (enBits s) := by
  unfold enBits
  dsimp only
  split
  · exact ⟨rfl, rfl, rfl⟩
  split <;> exact ⟨rfl, rfl, rfl⟩

theorem hrMagic_validity (s : State) : SameValidity s.invalidate (hrMagic s) := by
  unfold hrMagic
  dsimp only
  split
  · exact ⟨rfl, rfl, rfl⟩
  split <;> exact ⟨rfl, rfl, rfl⟩

theorem State.startNode_validity (s : State) (sl : Slot) (rest : List Slot) (leaf : Bool) :
    SameValidity s (s.startNode sl rest leaf) := by
  have h : SameValidity s (s.fillSlot sl s.ncount) := by cases sl <;> constructor <;> simp [State.fillSlot]
  refine h.trans ?_
  constructor <;> simp [State.startNode]

theorem hrBit_validity {s : State} (hp : s.phase = .hrBit) : ValidityMove s (hrBit s) := by
  unfold hrBit
  split
  · exact .parsed hp (.finish ⟨rfl, rfl, rfl⟩)
  next slot rest _ =>
  split
  · exact .same ⟨rfl, rfl, rfl⟩
  split
  · exact .same ⟨rfl, rfl, rfl⟩
  split
  · obtain ⟨hvalid, hsrc, hcodes⟩ := (s.advance 1).startNode_validity slot rest false
    exact .same ⟨hvalid, hsrc, hcodes⟩
  · obtain ⟨hvalid, hsrc, hcodes⟩ := (s.advance 1).startNode_validity slot rest true
    exact .same ⟨hvalid, hsrc, hcodes⟩

theorem hrSym_validity (s : State) : SameValidity s (hrSym s) := by
  unfold hrSym
  split <;> constructor <;> simp

theorem deStart_validity (s : State) : SameValidity s (deStart s) := by
  unfold deStart
  split
  · split <;> exact ⟨rfl, rfl, rfl⟩
  · exact ⟨rfl, rfl, rfl⟩

theorem deBit_validity (s : State) : SameValidity s (deBit s) := by
  unfold deBit
  split <;> exact ⟨rfl, rfl, rfl⟩

theorem phaseStep_validity (s : State) : ValidityMove s (phaseStep s) := by
  unfold phaseStep
  cases hp : s.phase <;> dsimp only
  case fcClear => exact .cleared (by simp [hp]) (.finish ⟨rfl, rfl, rfl⟩)
  case faInit => exact .cleared (by simp [hp]) ⟨rfl, rfl, rfl⟩
  case tbBuild => exact tbBuild_validity hp
  case cgGen => exact .coded hp (.finish ⟨rfl, rfl, rfl⟩)
  case hrMagic => exact .cleared (by simp [hp]) (hrMagic_validity s)
  case hrBit => exact hrBit_validity hp
  all_goals refine .same ?_
  case idle => exact .refl s
  case nopRun => exact .finish (.refl s)
  case faRead => exact faRead_validity s
  case hwMagic => exact ⟨rfl, rfl, rfl⟩
  case hwWalk => exact hwWalk_validity s
  case hwSym => exact ⟨rfl, rfl, rfl⟩
  case enRewind => exact ⟨rfl, rfl, rfl⟩
  case enRead => exact enRead_validity s
  case enBits => exact enBits_validity s
  case enClose => exact .finish ⟨rfl, rfl, rfl⟩
  case hrSym => exact hrSym_validity s
  case deStart => exact deStart_validity s
  case deBit => exact deBit_validity s
  case deEmit => exact ⟨rfl, rfl, rfl⟩
  case deClose => exact .finish ⟨rfl, rfl, rfl⟩

end Sys2Proof.Machine
end

section
/-! The flags and their events (R51): per flag, what sets it and what clears it, over every step. -/

namespace Sys2Proof.Machine

/-! ### What a command write does to the flags -/

theorem errcodeWord_ne_zero (midcode atEof : Bool) (phase : BitVec 8) (c : Cause) :
    errcodeWord midcode atEof phase c.code ≠ 0#32 := by
  have hcause : (errcodeWord midcode atEof phase c.code).extractLsb' 0 8 = c.code :=
    (extract_append_lo _ c.code 0 8 (by decide)).trans (extract_all _)
  intro h
  rw [h] at hcause
  cases c <;> exact absurd hcause (by decide)

theorem State.dispatch_busy {s : State} (h : s.busy = true) (op : BitVec 8) : s.dispatch op = { s with drop := true } := by
  simp [State.dispatch, h]

theorem State.dispatch_validity (s : State) (op : BitVec 8) : SameValidity s (s.dispatch op) := by
  obtain ⟨-, hd⟩ | ⟨-, -, hd⟩ | ⟨-, -, -, hd⟩ | ⟨-, -, e, es, -, hd⟩ := s.dispatch_cases op <;> rw [hd] <;>
    exact ⟨rfl, rfl, rfl⟩

/-- R95, R96: a command write leaves DONE as it is while busy, and 0 otherwise. -/
theorem State.dispatch_done (s : State) (op : BitVec 8) : (s.dispatch op).done = (s.busy && s.done) := by
  obtain ⟨hb, hd⟩ | ⟨hb, -, hd⟩ | ⟨hb, -, -, hd⟩ | ⟨hb, -, e, es, -, hd⟩ := s.dispatch_cases op <;> rw [hd, hb] <;> rfl

/-- R95, R96: a command write sets DROP while busy, and leaves it otherwise. -/
theorem State.dispatch_drop (s : State) (op : BitVec 8) : (s.dispatch op).drop = (s.busy || s.drop) := by
  obtain ⟨hb, hd⟩ | ⟨hb, -, hd⟩ | ⟨hb, -, -, hd⟩ | ⟨hb, -, e, es, -, hd⟩ := s.dispatch_cases op <;> rw [hd, hb] <;> rfl

/-- R98: a command write that sets ERR leaves the block idle, with a cause. -/
theorem State.dispatch_err {s : State} {op : BitVec 8} (h : s.err = false) (hset : (s.dispatch op).err = true) :
    (s.dispatch op).busy = false ∧ (s.dispatch op).errcode ≠ 0#32 := by
  obtain ⟨-, hd⟩ | ⟨-, -, hd⟩ | ⟨-, -, -, hd⟩ | ⟨-, -, e, es, -, hd⟩ := s.dispatch_cases op <;> rw [hd] at hset ⊢
  · exact absurd hset (by simp [h])
  · exact ⟨rfl, errcodeWord_ne_zero _ _ _ _⟩
  · exact ⟨rfl, errcodeWord_ne_zero _ _ _ _⟩
  · cases hset

/-! ### What a core step does to them -/

theorem State.finish_done (s : State) : (s.finish).done = (s.done || !s.finish.busy) := by
  obtain ⟨e, -, hfin⟩ | ⟨-, hfin⟩ := s.finish_cases <;> rw [hfin]
  · cases e <;> simp [State.busy, Engine.first]
  · simp [State.busy]

/-- R100: DONE is set by the end of the command only, and no core step clears it. -/
theorem CoreMove.done {s t : State} (h : CoreMove s t) : t.done = s.done ∨ (t.done = true ∧ t.busy = false) := by
  cases h with
  | stay _ _ hsame => exact .inl hsame.done
  | @finish u hsame =>
    rw [u.finish_done, hsame.done]
    cases u.finish.busy <;> simp
  | raise hsame => exact .inl hsame.done

/-- R156: ERR is set by an error only, and no core step clears it. -/
theorem CoreMove.err {s t : State} (h : CoreMove s t) :
    t.err = s.err ∨ (t.err = true ∧ t.busy = false ∧ t.errcode ≠ 0#32) := by
  cases h with
  | stay _ _ hsame => exact .inl hsame.err
  | finish hsame => exact .inl (by simpa using hsame.err)
  | raise => exact .inr ⟨rfl, rfl, errcodeWord_ne_zero _ _ _ _⟩

/-- R41, R100, R156: a command that ends leaves DONE or ERR. -/
theorem CoreMove.ended {s t : State} (h : CoreMove s t) (hbusy : s.busy = true) (hidle : t.busy = false) :
    t.done = true ∨ t.err = true := by
  cases h with
  | stay hp hengine _ =>
    simp only [State.busy, decide_eq_true_eq, decide_eq_false_iff_not, not_not] at hbusy hidle
    rw [hidle, ← hp] at hengine
    exact absurd (Phase.engine_eq_none.mp hengine.symm) hbusy
  | @finish u => exact .inl (by rw [u.finish_done, hidle]; simp)
  | raise => exact .inr rfl

/-! ### Each flag -/

theorem State.nextTurnIs_or {s : State} {p q : Turn → Bool} :
    s.nextTurnIs (fun u => p u || q u) = true ↔ s.nextTurnIs p = true ∨ s.nextTurnIs q = true := by
  unfold State.nextTurnIs
  cases s.turns.head? <;> simp

section
variable {s t : State} (h : StepEvent s t)
include h

theorem StepEvent.busy_set (h0 : s.busy = false) (h1 : t.busy = true) :
    s.nextTurnIs (Turn.isWrite 0x04#8 fun _ => true) = true := by
  cases h with
  | outside => exact absurd h1 (Bool.eq_false_iff.mp h0)
  | reset => cases h1
  | command hturn => rw [State.nextTurnIs_of_turns hturn]; rfl
  | acknowledge => exact absurd h1 (Bool.eq_false_iff.mp h0)
  | frequency => simp [State.busy] at h0 h1; contradiction
  | core _ hbusy => exact absurd hbusy (Bool.eq_false_iff.mp h0)

theorem StepEvent.busy_cleared (h0 : s.busy = true) (h1 : t.busy = false) :
    t.done = true ∨ t.err = true ∨ s.nextTurnIs Turn.isReset = true := by
  cases h with
  | outside => exact absurd h0 (Bool.eq_false_iff.mp h1)
  | reset hturn hreset => exact .inr (.inr (by rwa [State.nextTurnIs_of_turns hturn]))
  | @command _ _ rest =>
    rw [State.dispatch_busy (s := { s with turns := rest }) h0] at h1
    exact absurd h0 (Bool.eq_false_iff.mp h1)
  | acknowledge => exact absurd h0 (Bool.eq_false_iff.mp h1)
  | frequency _ hidle => exact absurd h0 (Bool.eq_false_iff.mp hidle)
  | core turns => exact ((phaseStep_move { s with turns := turns }).ended h0 h1).imp_right .inl

theorem StepEvent.done_set (h0 : s.done = false) (h1 : t.done = true) : s.busy = true ∧ t.busy = false := by
  cases h with
  | outside => exact absurd h1 (Bool.eq_false_iff.mp h0)
  | reset => cases h1
  | command => simp [State.dispatch_done, h0] at h1
  | acknowledge => simp [h0] at h1
  | frequency => simp [h0] at h1
  | core turns hbusy =>
    obtain he | ⟨-, hidle⟩ := (phaseStep_move { s with turns := turns }).done
    · exact absurd (he.symm.trans h1) (Bool.eq_false_iff.mp h0)
    · exact ⟨hbusy, hidle⟩

theorem StepEvent.done_cleared (h0 : s.done = true) (h1 : t.done = false) :
    s.nextTurnIs (fun u =>
      u.isReset || u.isWrite 0x08#8 (fun v => v.getLsbD 1) || u.isWrite 0x04#8 (fun _ => true)) = true := by
  cases h with
  | outside => exact absurd h0 (Bool.eq_false_iff.mp h1)
  | reset hturn hreset => simp [State.nextTurnIs_of_turns hturn, hreset]
  | command hturn => simp [State.nextTurnIs_of_turns hturn, Turn.isWrite]
  | acknowledge hturn => simp_all [State.nextTurnIs_of_turns hturn, Turn.isWrite]
  | frequency => simp [h0] at h1
  | core turns =>
    obtain he | ⟨hdone, -⟩ := (phaseStep_move { s with turns := turns }).done
    · exact absurd h0 (Bool.eq_false_iff.mp (he.symm.trans h1))
    · exact absurd h1 (by simp [hdone])

theorem StepEvent.err_set (h0 : s.err = false) (h1 : t.err = true) : t.busy = false ∧ t.errcode ≠ 0#32 := by
  cases h with
  | outside => exact absurd h1 (Bool.eq_false_iff.mp h0)
  | reset => cases h1
  | command => exact State.dispatch_err h0 h1
  | acknowledge => simp [h0] at h1
  | frequency => simp [h0] at h1
  | core turns =>
    obtain he | ⟨-, hraised⟩ := (phaseStep_move { s with turns := turns }).err
    · exact absurd (he.symm.trans h1) (Bool.eq_false_iff.mp h0)
    · exact hraised

theorem StepEvent.err_cleared (h0 : s.err = true) (h1 : t.err = false) :
    s.nextTurnIs (fun u =>
      u.isReset || u.isWrite 0x08#8 (fun v => v.getLsbD 2) || u.isWrite 0x04#8 (fun _ => true)) = true := by
  cases h with
  | outside => exact absurd h0 (Bool.eq_false_iff.mp h1)
  | reset hturn hreset => simp [State.nextTurnIs_of_turns hturn, hreset]
  | command hturn => simp [State.nextTurnIs_of_turns hturn, Turn.isWrite]
  | acknowledge hturn => simp_all [State.nextTurnIs_of_turns hturn, Turn.isWrite]
  | frequency => simp [h0] at h1
  | core turns =>
    obtain he | ⟨herr, -⟩ := (phaseStep_move { s with turns := turns }).err
    · exact absurd h0 (Bool.eq_false_iff.mp (he.symm.trans h1))
    · exact absurd h1 (by simp [herr])

theorem StepEvent.drop_set (h0 : s.drop = false) (h1 : t.drop = true) :
    s.busy = true ∧ s.nextTurnIs (Turn.isWrite 0x04#8 fun _ => true) = true := by
  cases h with
  | outside => exact absurd h1 (Bool.eq_false_iff.mp h0)
  | reset => cases h1
  | command hturn =>
    rw [State.dispatch_drop, h0, Bool.or_false] at h1
    exact ⟨h1, by rw [State.nextTurnIs_of_turns hturn]; rfl⟩
  | acknowledge => simp [h0] at h1
  | frequency => simp [h0] at h1
  | core turns =>
    have he := (phaseStep_outside { s with turns := turns }).drop
    exact absurd (he.symm.trans h1) (Bool.eq_false_iff.mp h0)

theorem StepEvent.drop_cleared (h0 : s.drop = true) (h1 : t.drop = false) :
    s.nextTurnIs (fun u => u.isReset || u.isWrite 0x08#8 (fun v => v.getLsbD 3)) = true := by
  cases h with
  | outside => exact absurd h0 (Bool.eq_false_iff.mp h1)
  | reset hturn hreset => simp [State.nextTurnIs_of_turns hturn, hreset]
  | command => simp [State.dispatch_drop, h0] at h1
  | acknowledge hturn => simp_all [State.nextTurnIs_of_turns hturn, Turn.isWrite]
  | frequency => simp [h0] at h1
  | core turns =>
    have he := (phaseStep_outside { s with turns := turns }).drop
    exact absurd h0 (Bool.eq_false_iff.mp (he.symm.trans h1))

/-- R51: what a step does to the validity flags: a core step of a listed phase changes them, a reset or a write to FREQ_DATA clears
them, and nothing else. -/
theorem StepEvent.validity :
    ValidityMove s t ∨ (s.nextTurnIs Turn.isReset = true ∧ t.treeValid = false ∧ t.codesValid = false) ∨
      (s.nextTurnIs (Turn.isWrite 0x18#8 fun _ => true) = true ∧ SameValidity s.invalidate t) := by
  cases h with
  | outside => exact .inl (.same ⟨rfl, rfl, rfl⟩)
  | reset hturn hreset => exact .inr (.inl ⟨by rwa [State.nextTurnIs_of_turns hturn], rfl, rfl⟩)
  | command =>
    obtain ⟨htree, hsrc, hcodes⟩ := State.dispatch_validity { s with turns := _ } _
    exact .inl (.same ⟨htree, hsrc, hcodes⟩)
  | acknowledge => exact .inl (.same ⟨rfl, rfl, rfl⟩)
  | frequency hturn =>
    exact .inr (.inr ⟨by rw [State.nextTurnIs_of_turns hturn]; rfl, by constructor <;> simp⟩)
  | core turns =>
    refine .inl ?_
    cases phaseStep_validity { s with turns := turns } with
    | same hsame => exact .same ⟨hsame.treeValid, hsame.treeSrc, hsame.codesValid⟩
    | cleared hphase hsame => exact .cleared hphase ⟨hsame.treeValid, hsame.treeSrc, hsame.codesValid⟩
    | built hphase hsame => exact .built hphase ⟨hsame.treeValid, hsame.treeSrc, hsame.codesValid⟩
    | parsed hphase hsame => exact .parsed hphase ⟨hsame.treeValid, hsame.treeSrc, hsame.codesValid⟩
    | coded hphase hsame => exact .coded hphase ⟨hsame.treeValid, hsame.treeSrc, hsame.codesValid⟩

theorem StepEvent.treeSrc_changed (hne : t.treeSrc ≠ s.treeSrc) :
    t.treeValid = true ∧ t.treeSrc = .built ∧ s.phase = .tbBuild ∨
      t.treeValid = true ∧ t.treeSrc = .parsed ∧ s.phase = .hrBit ∨ s.nextTurnIs Turn.isReset = true := by
  obtain hmove | ⟨hreset, -⟩ | ⟨-, hsame⟩ := h.validity
  · cases hmove with
    | same hsame => exact absurd hsame.treeSrc hne
    | cleared _ hsame => exact absurd hsame.treeSrc hne
    | built hphase hsame => exact .inl ⟨hsame.treeValid, hsame.treeSrc, hphase⟩
    | parsed hphase hsame => exact .inr (.inl ⟨hsame.treeValid, hsame.treeSrc, hphase⟩)
    | coded _ hsame => exact absurd hsame.treeSrc hne
  · exact .inr (.inr hreset)
  · exact absurd hsame.treeSrc hne

theorem StepEvent.treeValid_set (h0 : s.treeValid = false) (h1 : t.treeValid = true) :
    (s.phase = .tbBuild ∧ t.treeSrc = .built) ∨ (s.phase = .hrBit ∧ t.treeSrc = .parsed) := by
  obtain hmove | ⟨-, hclear, -⟩ | ⟨-, hsame⟩ := h.validity
  · cases hmove with
    | same hsame => exact absurd h1 (by simp [hsame.treeValid, h0])
    | cleared _ hsame => exact absurd h1 (by simp [hsame.treeValid])
    | built hphase hsame => exact .inl ⟨hphase, hsame.treeSrc⟩
    | parsed hphase hsame => exact .inr ⟨hphase, hsame.treeSrc⟩
    | coded _ hsame => exact absurd h1 (by simp [hsame.treeValid, h0])
  · exact absurd h1 (by simp [hclear])
  · exact absurd h1 (by simp [hsame.treeValid])

theorem StepEvent.treeValid_cleared (h0 : s.treeValid = true) (h1 : t.treeValid = false) :
    s.phase ∈ [.fcClear, .faInit, .tbBuild, .hrMagic] ∨
      s.nextTurnIs (fun u => u.isReset || u.isWrite 0x18#8 (fun _ => true)) = true := by
  obtain hmove | ⟨hreset, -⟩ | ⟨hwrite, -⟩ := h.validity
  · cases hmove with
    | same hsame => exact absurd h1 (by simp [hsame.treeValid, h0])
    | cleared hphase _ => exact .inl hphase
    | built hphase _ => exact .inl (by simp [hphase])
    | parsed _ hsame => exact absurd h1 (by simp [hsame.treeValid])
    | coded _ hsame => exact absurd h1 (by simp [hsame.treeValid, h0])
  · exact .inr (State.nextTurnIs_or.mpr (.inl hreset))
  · exact .inr (State.nextTurnIs_or.mpr (.inr hwrite))

theorem StepEvent.codesValid_set (h0 : s.codesValid = false) (h1 : t.codesValid = true) : s.phase = .cgGen := by
  obtain hmove | ⟨-, -, hclear⟩ | ⟨-, hsame⟩ := h.validity
  · cases hmove with
    | same hsame => exact absurd h1 (by simp [hsame.codesValid, h0])
    | cleared _ hsame => exact absurd h1 (by simp [hsame.codesValid])
    | built _ hsame => exact absurd h1 (by simp [hsame.codesValid])
    | parsed _ hsame => exact absurd h1 (by simp [hsame.codesValid, h0])
    | coded hphase _ => exact hphase
  · exact absurd h1 (by simp [hclear])
  · exact absurd h1 (by simp [hsame.codesValid])

theorem StepEvent.codesValid_cleared (h0 : s.codesValid = true) (h1 : t.codesValid = false) :
    s.phase ∈ [.fcClear, .faInit, .tbBuild, .hrMagic] ∨
      s.nextTurnIs (fun u => u.isReset || u.isWrite 0x18#8 (fun _ => true)) = true := by
  obtain hmove | ⟨hreset, -⟩ | ⟨hwrite, -⟩ := h.validity
  · cases hmove with
    | same hsame => exact absurd h1 (by simp [hsame.codesValid, h0])
    | cleared hphase _ => exact .inl hphase
    | built hphase _ => exact .inl (by simp [hphase])
    | parsed _ hsame => exact absurd h1 (by simp [hsame.codesValid, h0])
    | coded _ hsame => exact absurd h1 (by simp [hsame.codesValid])
  · exact .inr (State.nextTurnIs_or.mpr (.inl hreset))
  · exact .inr (State.nextTurnIs_or.mpr (.inr hwrite))

end

/-- Settles O57, flag by flag, from what each event of a step does to it. -/
theorem flagsChangeOnlyByTheirEvents : Obligations.FlagsChangeOnlyByTheirEvents := by
  intro s t hstep
  have h := stepEvent_of_step hstep
  exact ⟨h.busy_set, h.busy_cleared, h.treeSrc_changed, h.done_set, h.done_cleared, h.err_set, h.err_cleared, h.drop_set,
    h.drop_cleared, h.treeValid_set, h.treeValid_cleared, h.codesValid_set, h.codesValid_cleared⟩

end Sys2Proof.Machine
end

section
/-! The register window (R31 to R49): what each register reads as, and what a write to it does. -/

namespace Sys2Proof.Machine

/-- A register that is readable now answers its word. -/
theorem readAnswers_of_readable {s : State} {off : BitVec 8} {c : Bool} {w : Word} (h : off.toNat % 4 = 0)
    (ht : s.busValue off = readableWhen c w) (hc : c = true) : ReadAnswers s off w :=
  readAnswers_of_busValue h (ht.trans (if_pos hc))

/-- A register that is not readable now answers any value. -/
theorem readIsAnyValue_of_unreadable {s : State} {off : BitVec 8} {c : Bool} {w : Word} (h : off.toNat % 4 = 0)
    (ht : s.busValue off = readableWhen c w) (hc : c = false) : ReadIsAnyValue s off :=
  readIsAnyValue_of_busValue h (ht.trans (if_neg (Bool.eq_false_iff.mp hc)))

/-! ### CTRL (R32) and STATUS (R34) -/

theorem State.writeCtrl_ie {s : State} {v : Word} (h : v.getLsbD 0 = false) : s.writeCtrl v = { s with ie := v.getLsbD 1 } := by
  simp only [State.writeCtrl, h, Bool.false_eq_true, if_false]

theorem State.writeCtrl_reset {s : State} {v : Word} (h : v.getLsbD 0 = true) : s.writeCtrl v = s.resetBlock := by
  rw [State.writeCtrl, if_pos h]

/-- R173: a reset of the block gives the reset values. -/
theorem State.resetBlock_hasResetValues (s : State) : s.resetBlock.HasResetValues := by
  refine ⟨rfl, rfl, ?_, rfl, rfl, rfl, rfl, fun k hk => ?_, rfl, rfl, rfl, rfl, rfl, rfl, rfl, rfl, rfl, rfl, rfl⟩
  · exact show State.reset.statusWord = 0x00000000#32 by decide
  · rw [State.freqAt, if_pos hk]
    rfl

theorem State.ctrlWord_eq (s : State) : s.ctrlWord = if s.ie then 0x00000002#32 else 0x00000000#32 := by
  unfold State.ctrlWord
  cases s.ie <;> rfl

/-- Settles O32, from the two cases of a CTRL write. -/
theorem ctrlHoldsTheInterruptEnable : Obligations.CtrlHoldsTheInterruptEnable := by
  intro s v
  refine ⟨readAnswers_of_busValue rfl (congrArg some s.ctrlWord_eq), fun h => ?_, fun h => ?_, rfl⟩
  · exact writeGives_of_busWrite rfl fun rest => State.writeCtrl_ie h
  · exact ⟨s.resetBlock, writeGives_of_busWrite rfl fun rest => State.writeCtrl_reset h, rfl, s.resetBlock_hasResetValues⟩

/-- Settles O33, from the fields of the STATUS word. -/
theorem statusShowsAndClearsFlags : Obligations.StatusShowsAndClearsFlags := by
  intro s
  obtain ⟨hbusy, hdone, herr, hdrop, htree, hcodes, hsrc, hirq⟩ := s.statusWord_flags
  obtain ⟨hphase, hhigh⟩ := s.statusWord_phase
  refine ⟨⟨s.statusWord, readAnswers_of_busValue rfl rfl, ?_, hdone, herr, hdrop, htree, hcodes, ?_, hirq, hphase, hhigh⟩,
    fun v => writeGives_of_busWrite rfl fun rest => rfl⟩
  · rw [hbusy]
    simp [State.busy]
  · rw [hsrc]
    cases s.treeSrc <;> decide

/-! ### FREQ_DATA (R38) -/

theorem State.freqAt_above {s : State} {k : Nat} (h : 257 ≤ k) : s.freqAt k = 0#32 := by
  rw [State.freqAt, if_neg (by omega), if_neg (by omega)]

/-- R38: a write to FREQ_DATA while idle, at an index of the table. -/
theorem State.writeFreqData_taken {s : State} (hidle : s.busy = false) (hidx : s.freqIdx.toNat < 256) (v : Word) :
    s.writeFreqData v = (s.setFreq s.freqIdx.toNat v).invalidate := by
  simp only [State.writeFreqData, hidle, Bool.false_eq_true, if_false, if_pos hidx]

/-- R38: every other write to FREQ_DATA. -/
theorem State.writeFreqData_ignored {s : State} (h : s.busy = true ∨ 256 ≤ s.freqIdx.toNat) (v : Word) :
    s.writeFreqData v = s := by
  unfold State.writeFreqData
  split
  · rfl
  · exact if_neg (Nat.not_lt.mpr (h.resolve_left ‹_›))

theorem State.setFreq_invalidate {s : State} {k : Nat} (hk : k < 256) (v : Word) :
    (s.setFreq k v).invalidate =
      { s with freq := (s.setFreq k v).invalidate.freq, treeValid := false, codesValid := false } := by
  rw [State.setFreq, if_pos hk]
  rfl

theorem freqData_read {s : State} (hidle : s.busy = false) : ReadAnswers s 0x18#8 (s.freqAt s.freqIdx.toNat) :=
  readAnswers_of_readable rfl rfl (by rw [hidle]; rfl)

theorem freqData_write_ignored {s : State} (h : s.busy = true ∨ 256 ≤ s.freqIdx.toNat) (v : Word) : WriteGives s 0x18#8 v s :=
  writeGives_of_busWrite rfl fun rest =>
    State.writeFreqData_ignored (s := { s with turns := rest, resetLine := false }) h v

/-- Settles O34, by the index clauses of R38. -/
theorem freqDataWindow : Obligations.FreqDataWindow := by
  intro s hmem
  refine ⟨fun hbusy => ⟨readIsAnyValue_of_unreadable rfl rfl (by rw [hbusy]; rfl), freqData_write_ignored (.inl hbusy)⟩, fun hidle =>
    ⟨fun _ => freqData_read hidle, fun hidx => ?_, fun hidx => ?_, fun hidx => freqData_write_ignored (.inr hidx),
      fun hidx v => ⟨(s.setFreq s.freqIdx.toNat v).invalidate, ?_, fun k => ?_, State.setFreq_invalidate hidx v⟩⟩⟩
  · have h := freqData_read hidle
    rwa [hidx] at h
  · have h := freqData_read hidle
    rwa [State.freqAt_above hidx] at h
  · refine writeGives_of_busWrite rfl fun rest => ?_
    refine (State.writeFreqData_taken (s := { s with turns := rest, resetLine := false }) hidle hidx v).trans ?_
    simp only [State.setFreq, if_pos hidx]
    rfl
  · exact (State.freqAt_setFreq hmem s.freqIdx.toNat v k).trans (by simp [hidx])

/-! ### NODE_WEIGHT and NODE_LINK (R43, R44) -/

/-- Settles O35, from the fields of the NODE_LINK word. -/
theorem nodeWindows : Obligations.NodeWindows := by
  intro s
  refine ⟨fun h => ?_, fun hidle htree hidx => ?_, fun hidle htree hidx => ?_,
    fun v => ⟨writeGives_of_busWrite rfl fun _ => rfl, writeGives_of_busWrite rfl fun _ => rfl⟩⟩
  · have hc : (!s.busy && s.treeValid) = false := by obtain h | h := h <;> simp [h]
    exact ⟨readIsAnyValue_of_unreadable rfl rfl hc, readIsAnyValue_of_unreadable rfl rfl hc⟩
  all_goals have hc : (!s.busy && s.treeValid) = true := by simp [hidle, htree]
  · have hout : ¬ s.nodeIdx < s.ncount := BitVec.not_lt.mpr hidx
    have hweight : ReadAnswers s 0x24#8 (if s.nodeIdx < s.ncount then _ else 0#32) := readAnswers_of_readable rfl rfl hc
    have hlink : ReadAnswers s 0x28#8 (if s.nodeIdx < s.ncount then _ else 0#32) := readAnswers_of_readable rfl rfl hc
    rw [if_neg hout] at hweight hlink
    exact ⟨hweight, hlink⟩
  · have hweight : ReadAnswers s 0x24#8 (if s.nodeIdx < s.ncount then _ else 0#32) := readAnswers_of_readable rfl rfl hc
    have hlink : ReadAnswers s 0x28#8 (if s.nodeIdx < s.ncount then _ else 0#32) := readAnswers_of_readable rfl rfl hc
    rw [if_pos hidx] at hweight hlink
    exact ⟨hweight, _, hlink, Node.linkWord_left _, Node.linkWord_right _, Node.linkWord_sym _, Node.linkWord_reserved _,
      Node.linkWord_leaf _⟩

/-! ### CODE_LEN and CODE_DATA (R47) -/

theorem State.codeAt_above {s : State} {k : Nat} (h : 257 ≤ k) : s.codeAt k = Code.none :=
  if_neg (Nat.not_lt.mpr h)

theorem leftAligned_zero (w : Nat) : leftAligned 0#256 w = 0#32 := by
  refine BitVec.eq_of_getLsbD_eq fun i hi => ?_
  have h := getLsbD_leftAligned 0#256 w (31 - i) (by omega)
  rw [show 31 - (31 - i) = i by omega] at h
  simpa using h

/-- Settles O36, from the fields of the CODE_LEN word and the left-aligned code bits. -/
theorem codeWindows : Obligations.CodeWindows := by
  intro s
  refine ⟨fun h => ?_, fun hidle hcodes => ?_⟩
  · have hc : (!s.busy && s.codesValid) = false := by obtain h | h := h <;> simp [h]
    exact ⟨readIsAnyValue_of_unreadable rfl rfl hc, readIsAnyValue_of_unreadable rfl rfl hc⟩
  · have hc : (!s.busy && s.codesValid) = true := by simp [hidle, hcodes]
    have hlen : ReadAnswers s 0x38#8 (s.codeAt s.codeIdx.toNat).lenWord := readAnswers_of_readable rfl rfl hc
    have hdata : ReadAnswers s 0x3C#8 (leftAligned (s.codeAt s.codeIdx.toNat).bits s.codeWsel.toNat) :=
      readAnswers_of_readable rfl rfl hc
    refine ⟨fun hidx => ?_, fun _ => ⟨_, _, hlen, hdata, Code.lenWord_valid _, Code.lenWord_reserved _, Code.lenWord_len _,
      fun j hj => getLsbD_leftAligned _ _ j hj⟩⟩
    rw [State.codeAt_above hidx] at hlen hdata
    exact ⟨hlen, by rwa [Code.none, leftAligned_zero] at hdata⟩

/-! ### The result registers (R33, R35, R36, R39, R45, R48, R49) -/

/-- Settles O37, from the fields of the TREE_INFO word. -/
theorem resultRegistersRead : Obligations.ResultRegistersRead := by
  intro s
  refine ⟨readAnswers_of_busValue rfl rfl, readAnswers_of_busValue rfl rfl, readAnswers_of_busValue rfl rfl, fun hbusy => ?_,
    fun hidle => ?_, fun v => ⟨writeGives_of_busWrite rfl fun _ => rfl, writeGives_of_busWrite rfl fun _ => rfl⟩⟩
  · have hc : (!s.busy) = false := by rw [hbusy]; rfl
    exact ⟨readIsAnyValue_of_unreadable rfl rfl hc, readIsAnyValue_of_unreadable rfl rfl hc,
      readIsAnyValue_of_unreadable rfl rfl hc, readIsAnyValue_of_unreadable rfl rfl hc⟩
  · have hc : (!s.busy) = true := by rw [hidle]; rfl
    exact ⟨readAnswers_of_readable rfl rfl hc, readAnswers_of_readable rfl rfl hc, readAnswers_of_readable rfl rfl hc,
      s.treeInfoWord, readAnswers_of_readable rfl rfl hc, s.treeInfoWord_root, s.treeInfoWord_low_reserved,
      s.treeInfoWord_ncount, s.treeInfoWord_high_reserved⟩

/-! ### The index registers (R37, R40, R46) -/

/-- The low bits of a word, as a field and as a narrowed word. -/
theorem extractLsb'_zero_eq_setWidth (v : Word) (n : Nat) : v.extractLsb' 0 n = v.setWidth n := by
  ext i hi
  simp

/-- Settles O38: an index register takes the low bits of the word written. -/
theorem indexRegistersReadAndWrite : Obligations.IndexRegistersReadAndWrite := by
  intro s v
  simp only [extractLsb'_zero_eq_setWidth]
  exact ⟨readAnswers_of_busValue rfl rfl, writeGives_of_busWrite rfl fun _ => rfl,
    readAnswers_of_busValue rfl rfl, writeGives_of_busWrite rfl fun _ => rfl,
    readAnswers_of_busValue rfl rfl, writeGives_of_busWrite rfl fun _ => rfl,
    readAnswers_of_busValue rfl rfl, writeGives_of_busWrite rfl fun _ => rfl, rfl, rfl, rfl, rfl⟩

end Sys2Proof.Machine
end

section
/-! The core's turn (R94, R68, R170, R171): the action of its phase or nothing, and what it does to the two streams (R55, R56). -/

namespace Sys2Proof.Machine

theorem step_of_turns_nil {s : State} (h : s.turns = []) : step s = coreTurn s := by
  simp only [step, h]

theorem step_of_turns_cons {s : State} {u : Turn} {rest : List Turn} (h : s.turns = u :: rest) :
    step s = takeTurn { s with turns := rest } u := by
  simp only [step, h]

theorem coreTurn_of_enabled {s : State} (hreset : s.resetLine = false) (hphase : s.phase ≠ .idle) (hblocked : s.blocked = false) :
    coreTurn s = .next (phaseStep s) := by
  simp [coreTurn_eq, State.busy, hreset, hphase, hblocked]

theorem coreTurn_of_not_enabled {s : State} (h : s.resetLine = true ∨ s.phase = .idle ∨ s.blocked = true) :
    coreTurn s = .next s := by
  have hnothing : (s.resetLine || !s.busy || s.blocked) = true := by
    simpa [State.busy, or_assoc] using h
  rw [coreTurn_eq, if_pos hnothing]

/-- Settles O7: the core takes its turn with the schedule's first entry used up, and neither the enabling of its step nor the port
it addresses depends on the schedule. -/
theorem coreTurnIsThePhaseOrNothing : Obligations.CoreTurnIsThePhaseOrNothing := by
  intro s rest
  refine ⟨fun hreset hphase hblocked => ⟨fun h => ?_, fun h => ?_⟩, fun hnot => ⟨fun h => ?_, fun h => ?_⟩⟩
  · exact (step_of_turns_nil h).trans (coreTurn_of_enabled hreset hphase hblocked)
  · exact (step_of_turns_cons h).trans (coreTurn_of_enabled (s := { s with turns := rest }) hreset hphase hblocked)
  · exact (step_of_turns_nil h).trans (coreTurn_of_not_enabled hnot)
  · exact (step_of_turns_cons h).trans (coreTurn_of_not_enabled (s := { s with turns := rest }) hnot)

/-! ### The two streams -/

/-- R56: no transaction rewrites the output. -/
theorem PortsAfter.output_prefix {s t : State} {tr : Option Transaction} (h : PortsAfter s t tr) : s.output <+: t.output := by
  cases h with
  | none hsame => exact hsame.output ▸ List.prefix_rfl
  | value _ hsame => exact hsame.output ▸ List.prefix_rfl
  | eof _ hsame => exact hsame.output ▸ List.prefix_rfl
  | rewind hsame => exact hsame.output ▸ List.prefix_rfl
  | wr v hsame => exact hsame.output ▸ List.prefix_append _ _
  | close hsame => exact hsame.output ▸ List.prefix_append _ _

/-- R55: no transaction moves POS past the end of the input. -/
theorem PortsAfter.pos_le {s t : State} {tr : Option Transaction} (h : PortsAfter s t tr) (hpos : s.pos ≤ s.input.length) :
    t.pos ≤ s.input.length := by
  cases h with
  | none hsame => exact hsame.pos ▸ hpos
  | value hlen hsame => exact hsame.pos ▸ hlen
  | eof _ hsame => exact hsame.pos ▸ hpos
  | rewind hsame => exact hsame.pos ▸ Nat.zero_le _
  | wr v hsame => exact hsame.pos ▸ hpos
  | close hsame => exact hsame.pos ▸ hpos

theorem coreTurn_streams {s t : State} (h : coreTurn s = .next t) :
    t.input = s.input ∧ s.output <+: t.output ∧ (s.pos ≤ s.input.length → t.pos ≤ t.input.length) := by
  rw [coreTurn_eq] at h
  obtain rfl := Host.Outcome.next.inj h
  split
  · exact ⟨rfl, List.prefix_rfl, id⟩
  · have hports := phaseStep_ports s
    have hinput := (phaseStep_outside s).input
    exact ⟨hinput, hports.output_prefix, fun hpos => hinput.symm ▸ hports.pos_le hpos⟩

/-- Settles O54: a core turn is one port transaction at most, and each of them keeps R55 and R56. -/
theorem coreOnlyReadsInputAndAppendsOutput : Obligations.CoreOnlyReadsInputAndAppendsOutput := by
  rintro s t (hturns | ⟨rest, hturns⟩) hstep
  · rw [step_of_turns_nil hturns] at hstep
    exact coreTurn_streams hstep
  · rw [step_of_turns_cons hturns] at hstep
    exact coreTurn_streams (s := { s with turns := rest }) hstep

end Sys2Proof.Machine
end

section
/-! The host's turn (R63 to R65): which accesses are defined, and what an access can do to an idle and to a busy block. -/

namespace Sys2Proof.Machine

/-- R63, R64: the block after a defined access. -/
def State.afterAccess (s : State) : Access → State
  | .read off _ => s.busRead off
  | .write off _ v => s.busWrite off v

theorem runAccess_eq (s : State) (a : Access) : runAccess s a = .next (s.afterAccess a) := by
  cases a with
  | read => rfl
  | write off size v => exact runAccess_write s off size v

section
variable {s : State} {a : Access} {rest : List Turn} (hturn : s.turns = .host a :: rest)
include hturn

theorem step_host (hreset : s.resetLine = false) :
    step s = if a.defined then .next (State.afterAccess { s with turns := rest } a) else .refused .accessUndefined := by
  simp [step_of_turns_cons hturn, takeTurn, hostTurn, hreset, runAccess_eq]

/-- R171: under reset no access is answered, so an access that gives a next state came with reset released. -/
theorem resetLine_of_step_host {t : State} (h : step s = .next t) : s.resetLine = false := by
  cases hreset : s.resetLine with
  | false => rfl
  | true => simp [step_of_turns_cons hturn, takeTurn, hostTurn, hreset] at h

theorem step_host_next {t : State} (h : step s = .next t) :
    a.defined = true ∧ t = State.afterAccess { s with turns := rest } a := by
  rw [step_host hturn (resetLine_of_step_host hturn h)] at h
  split at h
  · exact ⟨‹_›, (Host.Outcome.next.inj h).symm⟩
  · cases h

end

/-! ### Defined accesses (R63) -/

theorem Access.defined_read {off : BitVec 8} {size : AccessSize} :
    (Access.read off size).defined = true ↔ size = .word ∧ off.toNat % 4 = 0 := by
  simp [Access.defined]

theorem Access.defined_write {off : BitVec 8} {size : AccessSize} {v : Word} :
    (Access.write off size v).defined = true ↔ size = .word ∧ off.toNat % 4 = 0 := by
  simp [Access.defined]

/-- Settles O40, from the width and the alignment that a defined access has. -/
theorem onlyAlignedWordAccessesAreDefined : Obligations.OnlyAlignedWordAccessesAreDefined := by
  intro s a rest hturn hreset
  rw [step_host hturn hreset]
  constructor
  · rintro ⟨off, size, hundefined, ha⟩
    have hnot : ¬ (size = .word ∧ off.toNat % 4 = 0) := by rwa [not_and_or]
    refine if_neg ?_
    obtain rfl | ⟨v, rfl⟩ := ha
    · rwa [Access.defined_read]
    · rwa [Access.defined_write]
  · rintro ⟨off, halign, ha⟩
    refine ⟨_, if_pos ?_⟩
    obtain rfl | ⟨v, rfl⟩ := ha
    · exact Access.defined_read.mpr ⟨rfl, halign⟩
    · exact Access.defined_write.mpr ⟨rfl, halign⟩

/-! ### From idle to busy (R67, R175) -/

theorem Turn.isWrite_iff {off : BitVec 8} {p : Word → Bool} {u : Turn} :
    u.isWrite off p = true ↔ ∃ size v, u = .host (.write off size v) ∧ p v = true := by
  constructor
  · intro h
    unfold Turn.isWrite at h
    split at h
    · rename_i o size v
      obtain ⟨rfl, hv⟩ : o = off ∧ p v = true := by simpa using h
      exact ⟨size, v, rfl, hv⟩
    all_goals cases h
  · rintro ⟨size, v, rfl, hv⟩
    simp [Turn.isWrite, hv]

theorem State.exists_turn_of_nextTurnIs {s : State} {p : Turn → Bool} (h : s.nextTurnIs p = true) :
    ∃ u rest, s.turns = u :: rest ∧ p u = true := by
  cases hturns : s.turns with
  | nil => simp [State.nextTurnIs, hturns] at h
  | cons u rest => exact ⟨u, rest, rfl, by rwa [State.nextTurnIs_of_turns hturns] at h⟩

/-- Settles O56: BUSY is set by a write at the offset of CMD only (R51), and the write was a defined access. -/
theorem onlyACommandWriteMakesTheBlockBusy : Obligations.OnlyACommandWriteMakesTheBlockBusy := by
  intro s t hidle hstep hbusy
  obtain ⟨u, rest, hturn, hwrite⟩ := State.exists_turn_of_nextTurnIs ((stepEvent_of_step hstep).busy_set hidle hbusy)
  obtain ⟨size, v, rfl, -⟩ := Turn.isWrite_iff.mp hwrite
  obtain ⟨rfl, -⟩ := Access.defined_write.mp (step_host_next hturn hstep).1
  exact ⟨v, rest, hturn⟩

/-! ### A running command (R69) -/

/-- `t` is `s` but for what the host may change while a command runs: IE, the sticky flags, the index registers and what it has
read. -/
def HostFrame (s t : State) : Prop :=
  t = { s with
    ie := t.ie, done := t.done, err := t.err, drop := t.drop, freqIdx := t.freqIdx, nodeIdx := t.nodeIdx
    codeIdx := t.codeIdx, codeWsel := t.codeWsel, answers := t.answers, draws := t.draws }

theorem busRead_hostFrame (s : State) (off : BitVec 8) : HostFrame s (s.busRead off) := by
  unfold State.busRead
  split <;> rfl

theorem writeReg_hostFrame {s : State} {r : Reg} {v : Word} (hbusy : s.busy = true) (hreset : r = .ctrl → v.getLsbD 0 = false) :
    HostFrame s (s.writeReg v r) := by
  cases r
  case ctrl =>
    rw [State.writeReg, State.writeCtrl_ie (hreset rfl)]
    rfl
  case cmd =>
    rw [State.writeReg, State.dispatch_busy hbusy]
    rfl
  case freqData =>
    rw [State.writeReg, State.writeFreqData_ignored (.inl hbusy)]
    rfl
  all_goals rfl

theorem busWrite_hostFrame {s : State} {off : BitVec 8} {size : AccessSize} {v : Word} (hbusy : s.busy = true)
    (hreset : Turn.isReset (.host (.write off size v)) = false) : HostFrame s (s.busWrite off v) := by
  unfold State.busWrite
  cases hreg : Reg.atOffset off with
  | none => rfl
  | some r =>
    obtain rfl := Reg.offset_of_atOffset hreg
    refine writeReg_hostFrame hbusy fun hctrl => ?_
    subst hctrl
    simpa [Turn.isReset, Reg.offset] using hreset

theorem afterAccess_hostFrame {s : State} {a : Access} (hbusy : s.busy = true) (hreset : Turn.isReset (.host a) = false) :
    HostFrame s (s.afterAccess a) := by
  cases a with
  | read off size => exact busRead_hostFrame s off
  | write off size v => exact busWrite_hostFrame hbusy hreset

/-- Settles O58, from what a read and each register's write do to a busy block. -/
theorem hostCannotDisturbARunningCommand : Obligations.HostCannotDisturbARunningCommand := by
  intro s t a rest hbusy hturn hreset hstep
  obtain ⟨-, rfl⟩ := step_host_next hturn hstep
  exact afterAccess_hostFrame (s := { s with turns := rest }) hbusy hreset

end Sys2Proof.Machine
end

section
/-! The encodings (R72 to R88): the opcode map in both directions, the header tokens with the bits that follow them, and the dispatch
of an illegal opcode (R77). -/

namespace Sys2Proof

/-- R76: a word decodes to a command exactly when CMD[7:0] is its opcode. -/
theorem decodeCmd_eq_ok_iff {v : Word} {i : Instr} : decodeCmd v = .ok i ↔ i.opcode? = some (v.setWidth 8) := by
  constructor
  · intro h
    have hop : v.setWidth 8 = BitVec.ofNat 8 (v.setWidth 8).toNat := by rw [BitVec.ofNat_toNat, BitVec.setWidth_eq]
    unfold decodeCmd at h
    rw [hop]
    split at h <;> cases h <;> rw [‹(v.setWidth 8).toNat = _›] <;> rfl
  · intro h
    cases i
    case sreset | hdrInternal | hdrLeaf => cases h
    all_goals rw [decodeCmd, ← Option.some.inj h]; rfl

/-- R77: an opcode above the map selects no command. -/
theorem decodeCmd_illegal {v : Word} (h : 0x0B#8 ≤ v.setWidth 8) : decodeCmd v = .error (.illegalOpcode (v.setWidth 8)) := by
  replace h : 11 ≤ (v.setWidth 8).toNat := h
  unfold decodeCmd
  split
  case h_12 => rfl
  all_goals omega

/-- Settles O1: bits 7:0 are the opcode that the word is decoded by. -/
theorem commandWordsDecodeByOpcode : Obligations.CommandWordsDecodeByOpcode := by
  intro v
  simp only [Machine.extractLsb'_zero_eq_setWidth]
  refine ⟨fun row hrow hop => decodeCmd_eq_ok_iff.mpr ?_, decodeCmd_illegal⟩
  rw [hop]
  fin_cases hrow <;> rfl

/-- Settles O2, by evaluating the decoder on each word. -/
theorem writtenOutWordsDecode : Obligations.WrittenOutWordsDecode := by
  unfold Obligations.WrittenOutWordsDecode
  decide

/-! ### Header tokens (R83 to R85, R88) -/

theorem decodeToken_internal (rest : List Bool) : decodeToken (tokenBits .hdrInternal ++ rest) = .ok (.hdrInternal, rest) := rfl

theorem decodeToken_leaf {sym : Nat} (h : sym < 512) (rest : List Bool) :
    decodeToken (tokenBits (.hdrLeaf sym) ++ rest) = .ok (.hdrLeaf sym, rest) := by
  simp [tokenBits, decodeToken, Nat.mod_eq_of_lt h]

/-- R84: the leaf token of nine bits read is "1" and these bits. -/
theorem tokenBits_leaf_natOfBits {field : List Bool} (h : field.length = 9) :
    tokenBits (.hdrLeaf (Machine.natOfBits field)) = true :: field := by
  rw [tokenBits, show BitVec.ofNat 9 (Machine.natOfBits field) = Machine.fieldOfBits 9 field from rfl,
    Machine.bitsOf_fieldOfBits h]

/-- R88: whatever decodes to a token starts with that token's bits. -/
theorem eq_append_of_decodeToken {bits rest : List Bool} {i : Instr} (h : decodeToken bits = .ok (i, rest)) :
    i.wellFormed = true ∧ (i = .hdrInternal ∨ ∃ sym, i = .hdrLeaf sym) ∧ bits = tokenBits i ++ rest := by
  match bits, h with
  | false :: bits, h =>
    obtain ⟨rfl, rfl⟩ := Prod.mk.inj (Except.ok.inj h)
    exact ⟨rfl, .inl rfl, rfl⟩
  | true :: bits, h =>
    rw [decodeToken] at h
    split at h
    · obtain ⟨rfl, rfl⟩ := Prod.mk.inj (Except.ok.inj h)
      have hlen : (bits.take 9).length = 9 := List.length_take_of_le ‹_›
      have hlt := Machine.natOfBits_lt (bits.take 9)
      rw [hlen] at hlt
      refine ⟨decide_eq_true hlt, .inr ⟨_, rfl⟩, ?_⟩
      rw [tokenBits_leaf_natOfBits hlen, List.cons_append, List.take_append_drop]
    · cases h

/-- Settles O3: each token read back, and the bits that a token was read from. -/
theorem headerTokensDecodeExactly : Obligations.HeaderTokensDecodeExactly := by
  refine ⟨?_, fun _ _ _ => eq_append_of_decodeToken⟩
  rintro i rest hwf (rfl | ⟨sym, rfl⟩)
  · exact decodeToken_internal rest
  · exact decodeToken_leaf (of_decide_eq_true hwf) rest

/-! ### Every instruction -/

/-- R75: an instruction with an opcode has no operand to be ill-formed in. -/
theorem Instr.wellFormed_of_opcode {i : Instr} {op : BitVec 8} (h : i.opcode? = some op) : i.wellFormed = true := by
  cases i
  case hdrLeaf => cases h
  all_goals rfl

theorem wellFormed_of_decode {f : Fetched} {i : Instr} (h : decode f = .ok i) : i.wellFormed = true := by
  cases f with
  | busWrite off v =>
    rw [decode] at h
    split at h
    · exact Instr.wellFormed_of_opcode (decodeCmd_eq_ok_iff.mp h)
    · split at h
      · rw [decodeCtrl] at h
        split at h <;> cases h
        rfl
      · cases h
  | stream bits =>
    rw [decode] at h
    cases ht : decodeToken bits with
    | error e => rw [ht] at h; cases h
    | ok r =>
      rw [ht] at h
      obtain rfl : r.1 = i := Except.ok.inj h
      exact (eq_append_of_decodeToken ht).1

theorem decode_encode : ∀ i : Instr, Laws.Encoding.Statement i
  | .nop => Laws.Encoding.nop
  | .freqClear => Laws.Encoding.freqClear
  | .freqAccum => Laws.Encoding.freqAccum
  | .treeBuild => Laws.Encoding.treeBuild
  | .codeGen => Laws.Encoding.codeGen
  | .hdrWrite => Laws.Encoding.hdrWrite
  | .encode => Laws.Encoding.encode
  | .hdrRead => Laws.Encoding.hdrRead
  | .decode => Laws.Encoding.decode
  | .compress => Laws.Encoding.compress
  | .decompress => Laws.Encoding.decompress
  | .sreset => Laws.Encoding.sreset
  | .hdrInternal => Laws.Encoding.hdrInternal
  | .hdrLeaf sym => Laws.Encoding.hdrLeaf sym

/-- Settles O4: the round trip of each constructor, and a decoded LEAF symbol fits its nine bits. -/
theorem encodedInstructionsDecodeBack : Obligations.EncodedInstructionsDecodeBack :=
  ⟨decode_encode, fun _ _ => wellFormed_of_decode⟩

end Sys2Proof

namespace Sys2Proof.Machine

/-- R77: an opcode above the map has no engine. -/
theorem engines_illegal {op : BitVec 8} (h : 0x0B#8 ≤ op) : engines op = [] := by
  replace h : 11 ≤ op.toNat := h
  unfold engines
  split
  case h_12 => rfl
  all_goals omega

theorem errcodeWord_illegal : errcodeWord false false dispatchCode Cause.illegalCmd.code = 0x00000201#32 := by decide

/-- Settles O10: a word with an illegal opcode is dispatched with an empty engine list. -/
theorem illegalOpcodesRaiseIllegalCmd : Obligations.IllegalOpcodesRaiseIllegalCmd := by
  intro s v hidle hop
  refine writeGives_of_busWrite rfl fun rest => ?_
  rw [extractLsb'_zero_eq_setWidth] at hop ⊢
  change State.dispatch _ (v.setWidth 8) = _
  have hphase : s.phase = .idle := by simpa [State.busy] using hidle
  obtain ⟨hbusy, -⟩ | ⟨-, -, hd⟩ | ⟨-, hengines, -⟩ | ⟨-, -, e, es, hengines, -⟩ :=
    State.dispatch_cases { s with turns := rest, resetLine := false } (v.setWidth 8)
  · exact absurd hbusy (Bool.eq_false_iff.mp hidle)
  · rw [hd, State.dispatchError, State.takeError, errcodeWord_illegal, ← hphase]
    rfl
  · exact absurd (engines_illegal hop) hengines
  · rw [engines_illegal hop] at hengines
    cases hengines

end Sys2Proof.Machine
end

section
/-! The header tokens as HDR_READ takes them (R83, R84, R131, R132). -/

namespace Sys2Proof.Machine

/-! ### What a node begun leaves in the state -/

theorem State.setNode_eq (s : State) (i : NodeIdx) (x : Node) : s.setNode i x = { s with node := (s.setNode i x).node } := by
  unfold State.setNode
  split <;> rfl

theorem State.fillSlot_eq (s : State) (sl : Slot) (i : NodeIdx) :
    s.fillSlot sl i = { s with node := (s.fillSlot sl i).node } := by
  cases sl with
  | root => rfl
  | left p => exact s.setNode_eq p _
  | right p => exact s.setNode_eq p _

theorem State.startNode_eq (s : State) (sl : Slot) (rest : List Slot) (leaf : Bool) :
    s.startNode sl rest leaf =
      { s with node := (s.startNode sl rest leaf).node, ncount := s.ncount + 1#10, pend := rest } := by
  rw [State.startNode, State.setNode_eq, State.fillSlot_eq]

theorem State.memoryOk_startNode {s : State} (h : s.memoryOk = true) (sl : Slot) (rest : List Slot) (leaf : Bool) :
    (s.startNode sl rest leaf).memoryOk = true :=
  State.memoryOk_setNode (s := { s.fillSlot sl s.ncount with ncount := s.ncount + 1#10, pend := rest })
    (State.memoryOk_fillSlot h sl s.ncount) s.ncount _

/-- R131: the entry of the node begun. -/
theorem NodeBegun.nodeAt_new {s t : State} {n : NodeIdx} {sl : Slot} {leaf : Bool}
    (h : NodeBegun s.node t.node n.toNat sl leaf) : t.nodeAt n = begunNode leaf :=
  (h n.toNat).trans (if_pos rfl)

/-- R131: of the other entries the parent of the position filled is linked, and the rest stay. -/
theorem NodeBegun.nodeAt_old {s t : State} {n j : NodeIdx} {sl : Slot} {leaf : Bool}
    (h : NodeBegun s.node t.node n.toNat sl leaf) (hj : j ≠ n) :
    t.nodeAt j =
      if sl = .left j then { s.nodeAt j with left := n }
      else if sl = .right j then { s.nodeAt j with right := n }
      else s.nodeAt j := by
  have hread := h j.toNat
  rw [if_neg fun e => hj (BitVec.eq_of_toNat_eq e), BitVec.ofNat_toNat, BitVec.setWidth_eq] at hread
  refine Eq.trans hread ?_
  cases sl with
  | root => simp [Slot.link, State.nodeAt]
  | left p => simp [Slot.parent, Slot.link, State.nodeAt, BitVec.toNat_inj, eq_comm]
  | right p => simp [Slot.parent, Slot.link, State.nodeAt, BitVec.toNat_inj, eq_comm]

/-! ### The core steps on a token -/

theorem State.peek_one {s : State} {b : Bool} {tail : List Bool} (h : s.input.drop s.pos = b :: tail) :
    s.peek 1 = some (BitVec.ofBool b) :=
  State.peek_of_drop Nat.one_pos (h.trans (by rw [bitsOf_ofBool]; rfl))

/-- R131: HR_BIT on a token's first bit, with a position pending and room for a node. -/
theorem hrBit_of_bit {s : State} {slot : Slot} {rest : List Slot} {b : Bool} {tail : List Bool} (hpend : s.pend = slot :: rest)
    (hroom : s.ncount.toNat < 513) (hbit : s.input.drop s.pos = b :: tail) :
    hrBit s = if b then parseLeaf (s.advance 1) slot rest else parseInternal (s.advance 1) slot rest := by
  have hfull : s.ncount ≠ 513#10 := fun e => by simp [e] at hroom
  simp only [hrBit, hpend, if_neg hfull, State.peek_one hbit]
  cases b <;> rfl

/-- R132: HR_SYM on a symbol's field. -/
theorem hrSym_of_field {s : State} {sym : Symbol} {tail : List Bool} (hfield : s.input.drop s.pos = bitsOf sym ++ tail) :
    hrSym s = ((s.advance 9).setNode s.hleaf { s.nodeAt s.hleaf with sym := sym }).goto .hrBit := by
  simp only [hrSym, State.peek_of_drop (by decide : 0 < 9) hfield]

theorem State.headerToken_hrBit {s : State} {i : Instr} {rest : List Bool} (hp : s.phase = .hrBit) (hpend : s.pend ≠ [])
    (htoken : decodeToken (s.input.drop s.pos) = .ok (i, rest)) : s.headerToken = some i := by
  simp only [State.headerToken, hp, if_neg hpend, decode, htoken]
  rfl

theorem State.headerToken_hrSym {s : State} {sym : Symbol} {tail : List Bool} (hp : s.phase = .hrSym)
    (hfield : s.input.drop s.pos = bitsOf sym ++ tail) : s.headerToken = some (.hdrLeaf sym.toNat) := by
  simp only [State.headerToken, hp, State.peek_of_drop (by decide : 0 < 9) hfield]
  rfl

/-- The parent of the position on top of PEND is an entry of the store. -/
theorem Slot.parent_lt_maxNodes {slot : Slot} {n : Nat} (hn : n < 513) (h : slot ≠ .root → slot.parent < n) :
    slot.parent < Config.maxNodes := by
  by_cases hroot : slot = .root
  · subst hroot; decide
  · exact (h hroot).trans hn

/-- Settles O30: the core step on the token, and the node that its first bit begins. -/
theorem internalTokenStartsAnInternalNode : Obligations.InternalTokenStartsAnInternalNode := by
  intro s slot pend tail hmem hp hpend hroom hparent _ hbits
  have htoken : s.headerToken = some .hdrInternal :=
    State.headerToken_hrBit (rest := tail) hp (by simp [hpend]) (by rw [hbits]; rfl)
  have hbegun : NodeBegun s.node ((s.advance 1).startNode slot pend false).node s.ncount.toNat slot false :=
    State.nodeBegun_startNode (s := s.advance 1) hmem (Slot.parent_lt_maxNodes hroom hparent) hroom pend false
  have hstep : phaseStep s = parseInternal (s.advance 1) slot pend := by
    simp only [phaseStep, hp, hrBit_of_bit hpend hroom hbits]
    rfl
  refine ⟨_, (exec_headerToken htoken).trans (congrArg _ hstep), hbegun.nodeAt_new, fun j hj => hbegun.nodeAt_old hj, ?_⟩
  rw [parseInternal, State.startNode_eq, ← hp]
  rfl

/-- Settles O31: the core steps on the token's two parts: the first bit begins a node, the field gives it its symbol. -/
theorem leafTokenPlacesALeaf : Obligations.LeafTokenPlacesALeaf := by
  intro s slot pend sym tail hmem hp hpend hroom hparent _ hbits
  have htoken : s.headerToken = some (.hdrLeaf sym.toNat) := by
    refine State.headerToken_hrBit (rest := tail) hp (by simp [hpend]) ?_
    have h := decodeToken_leaf sym.isLt tail
    rw [tokenBits, BitVec.ofNat_toNat, BitVec.setWidth_eq] at h
    exact hbits ▸ h
  have hbegun : NodeBegun s.node ((s.advance 1).startNode slot pend true).node s.ncount.toNat slot true :=
    State.nodeBegun_startNode (s := s.advance 1) hmem (Slot.parent_lt_maxNodes hroom hparent) hroom pend true
  have hstep : phaseStep s = parseLeaf (s.advance 1) slot pend := by
    simp only [phaseStep, hp, hrBit_of_bit hpend hroom hbits]
    rfl
  have hmem' : (parseLeaf (s.advance 1) slot pend).memoryOk = true :=
    State.memoryOk_startNode (s := s.advance 1) hmem slot pend true
  have hframe : parseLeaf (s.advance 1) slot pend =
      { s with
        node := (parseLeaf (s.advance 1) slot pend).node, ncount := s.ncount + 1#10, pend := pend, hleaf := s.ncount
        pos := s.pos + 1, inBits := s.inBits + 1#32, phase := .hrSym } := by
    rw [parseLeaf, State.startNode_eq]
    rfl
  have hnew : (parseLeaf (s.advance 1) slot pend).nodeAt s.ncount = begunNode true := hbegun.nodeAt_new
  have hold : ∀ j, j ≠ s.ncount → (parseLeaf (s.advance 1) slot pend).nodeAt j = _ := fun j hj => hbegun.nodeAt_old hj
  generalize parseLeaf (s.advance 1) slot pend = t at hstep hmem' hframe hnew hold
  have hfield : t.input.drop t.pos = bitsOf sym ++ tail := by
    rw [hframe, ← List.drop_drop, hbits]
    rfl
  have hphase : t.phase = .hrSym := by rw [hframe]
  have hleaf : t.hleaf = s.ncount := by rw [hframe]
  have hstep' : phaseStep t = hrSym t := by simp only [phaseStep, hphase]
  rw [hrSym_of_field hfield, hleaf, hnew] at hstep'
  have hread := State.nodeAt_setNode (s := t.advance 9) hmem' s.ncount { begunNode true with sym := sym }
  refine ⟨t, _, (exec_headerToken htoken).trans (congrArg _ hstep), hphase,
    (exec_headerToken (State.headerToken_hrSym hphase hfield)).trans (congrArg _ hstep'), ?_, fun j hj => ?_, ?_⟩
  · exact (hread _).trans (if_pos ⟨rfl, hroom⟩)
  · exact ((hread j).trans (if_neg fun h => hj h.1)).trans (hold j hj)
  · rw [State.setNode_eq, hframe, ← hp]
    simp [State.goto, State.advance, BitVec.add_assoc]

end Sys2Proof.Machine
end

section
/-! Runs of core steps, the stream operations that they add up to, and FREQ_ACCUM from its first phase to its end (R103 to
R107). -/

namespace Sys2Proof.Machine

/-! ### Runs -/

/-- `k` core steps lead from `s` to `t`, with no turn of the host or the world between them. -/
def Runs (k : Nat) (s t : State) : Prop := phaseStep^[k] s = t

theorem Runs.refl (s : State) : Runs 0 s s := rfl

theorem Runs.head {k : Nat} {s t u : State} (h : phaseStep s = t) (h' : Runs k t u) : Runs (k + 1) s u := by
  rw [Runs, Function.iterate_succ_apply, h]
  exact h'

theorem Runs.trans {k l : Nat} {s t u : State} (h : Runs k s t) (h' : Runs l t u) : Runs (k + l) s u := by
  rw [Runs, Nat.add_comm, Function.iterate_add_apply, h]
  exact h'

theorem Runs.single {s t : State} (h : phaseStep s = t) : Runs 1 s t := h

/-- In a quiet state the machine's run is the core's. -/
theorem Runs.after {k : Nat} {s t : State} (h : Runs k s t) (hq : s.quiet = true) : After k s t :=
  (after_iff hq).mpr h.symm

/-! ### Many bits read, many bits written -/

/-- R59, R49: the block after the bits are written, in one field or in several. -/
def State.emit (s : State) (bits : List Bool) : State :=
  { s with output := s.output ++ bits, outBits := s.outBits + BitVec.ofNat 32 bits.length }

theorem State.wr_eq_emit (s : State) {n : Nat} (v : BitVec n) : s.wr v = s.emit (bitsOf v) := by
  rw [State.wr, State.emit, length_bitsOf]

theorem State.emit_nil (s : State) : s.emit [] = s := by simp [State.emit]

theorem State.emit_emit (s : State) (a b : List Bool) : (s.emit a).emit b = s.emit (a ++ b) := by
  simp [State.emit, BitVec.ofNat_add, BitVec.add_assoc]

theorem State.advance_zero (s : State) : s.advance 0 = s := by simp [State.advance]

theorem State.advance_advance (s : State) (m n : Nat) : (s.advance m).advance n = s.advance (m + n) := by
  simp [State.advance, BitVec.ofNat_add, BitVec.add_assoc, Nat.add_assoc]

theorem State.goto_self {s : State} {p : Phase} (h : s.phase = p) : s.goto p = s := by
  subst h; rfl

@[simp] theorem State.freqAt_advance (s : State) (n k : Nat) : (s.advance n).freqAt k = s.freqAt k := rfl

/-! ### Counting bytes (R105) -/

theorem countByte_eq (s : State) (r : Byte) :
    countByte s r = { s with freq := (countByte s r).freq, total := s.total + 1#32 } := by
  unfold countByte State.setFreq
  split <;> rfl

theorem memoryOk_countByte {s : State} (h : s.memoryOk = true) (r : Byte) : (countByte s r).memoryOk = true :=
  State.memoryOk_setFreq h r.toNat _

theorem freqAt_countByte {s : State} (h : s.memoryOk = true) (r b : Byte) :
    (countByte s r).freqAt b.toNat = s.freqAt b.toNat + if r = b then 1#32 else 0#32 := by
  refine (State.freqAt_setFreq h r.toNat _ b.toNat).trans ?_
  by_cases hb : r = b
  · subst hb
    rw [if_pos ⟨rfl, r.isLt⟩, if_pos rfl]
  · rw [if_neg fun e => hb (BitVec.eq_of_toNat_eq e.1.symm), if_neg hb, BitVec.add_zero]

/-- R105: the bytes read and counted, one after the other. -/
def State.countBytes (s : State) : List Byte → State
  | [] => s
  | r :: rs => (countByte (s.advance 8) r).countBytes rs

theorem State.countBytes_eq (s : State) (xs : List Byte) :
    s.countBytes xs =
      { s.advance (8 * xs.length) with
        freq := (s.countBytes xs).freq, total := s.total + BitVec.ofNat 32 xs.length } := by
  induction xs generalizing s with
  | nil => simp [State.countBytes, State.advance]
  | cons r rs ih =>
    rw [State.countBytes, ih, countByte_eq, List.length_cons, Nat.add_comm rs.length 1, Nat.mul_add, ← State.advance_advance,
      BitVec.ofNat_add, ← BitVec.add_assoc]
    rfl

theorem State.memoryOk_countBytes {s : State} (h : s.memoryOk = true) (xs : List Byte) : (s.countBytes xs).memoryOk = true := by
  induction xs generalizing s with
  | nil => exact h
  | cons r rs ih => exact ih (memoryOk_countByte (s := s.advance 8) h r)

/-- R107: a byte's entry grows by the number of its occurrences. -/
theorem State.freqAt_countBytes {s : State} (h : s.memoryOk = true) (xs : List Byte) (b : Byte) :
    (s.countBytes xs).freqAt b.toNat = s.freqAt b.toNat + BitVec.ofNat 32 (xs.count b) := by
  induction xs generalizing s with
  | nil => simp [State.countBytes]
  | cons r rs ih =>
    rw [State.countBytes, ih (memoryOk_countByte (s := s.advance 8) h r), freqAt_countByte (s := s.advance 8) h,
      List.count_cons, BitVec.ofNat_add, BitVec.add_assoc, BitVec.add_comm (BitVec.ofNat 32 _)]
    by_cases hb : r = b <;> simp [hb]

/-! ### FREQ_ACCUM -/

theorem State.peek_eof {s : State} {tail : List Bool} {n : Nat} (h : s.input.drop s.pos = tail) (hlen : tail.length < n) :
    s.peek n = none := by
  rw [State.peek_eq_none]
  have := congrArg List.length h
  rw [List.length_drop] at this
  omega

/-- R105: FA_READ to the end of the input. -/
theorem faRead_runs {xs : List Byte} {tail : List Bool} (htail : tail.length < 8) {s : State} (hp : s.phase = .faRead)
    (hinput : s.input.drop s.pos = bitsOfBytes xs ++ tail) (htotal : s.total.toNat + xs.length ≤ 2 ^ 32 - 2) :
    Runs (xs.length + 1) s (s.countBytes xs).finish := by
  induction xs generalizing s with
  | nil =>
    refine Runs.single ?_
    simp only [phaseStep, hp, faRead, State.peek_eof hinput htail]
    rfl
  | cons r rs ih =>
    rw [bitsOfBytes_cons, List.append_assoc] at hinput
    rw [List.length_cons] at htotal
    have hmax : (s.advance 8).total ≠ Config.totalMax := fun e => by
      rw [State.advance_total] at e
      rw [e, Config.totalMax] at htotal
      simp at htotal
    have hcount := countByte_eq (s.advance 8) r
    have hphase : (countByte (s.advance 8) r).phase = .faRead := by rw [hcount]; exact hp
    refine Runs.head (t := countByte (s.advance 8) r) ?_ (ih hphase ?_ ?_)
    · simp only [phaseStep, hp, faRead, State.peek_of_drop (by decide : 0 < 8) hinput, if_neg hmax]
      exact State.goto_self hphase
    · rw [hcount]
      exact State.drop_advance hinput
    · rw [hcount]
      simp only [State.advance_total, BitVec.toNat_add, BitVec.toNat_ofNat]
      omega

/-- R107: FREQ_ACCUM from its first phase. -/
theorem freqAccum_runs {s : State} {xs : List Byte} {tail : List Bool} (hp : s.phase = .faInit) (hmem : s.memoryOk = true)
    (hinput : s.input.drop s.pos = bitsOfBytes xs ++ tail) (htail : tail.length < 8) (hlen : xs.length ≤ 2 ^ 32 - 2) :
    ∃ freq, Runs (xs.length + 2) s (State.finish { s.advance (8 * xs.length) with
        freq := freq, total := BitVec.ofNat 32 xs.length, treeValid := false, codesValid := false, phase := .faRead }) ∧
      Memory.wf 0#32 256 freq = true ∧ ∀ b : Byte, Memory.read 0#32 freq b.toNat = BitVec.ofNat 32 (xs.count b) := by
  have hmem' : (s.clearTable.goto .faRead).memoryOk = true := State.memoryOk_clearTable hmem
  have hrun : Runs (xs.length + 1 + 1) s ((s.clearTable.goto .faRead).countBytes xs).finish :=
    Runs.head (by simp only [phaseStep, hp, faInit]) (faRead_runs htail rfl hinput (by simpa using hlen))
  have hmemCount := State.memoryOk_countBytes hmem' xs
  have hfreq := State.freqAt_countBytes hmem' xs
  rw [State.countBytes_eq] at hrun
  generalize (s.clearTable.goto .faRead).countBytes xs = t at hrun hmemCount hfreq
  refine ⟨t.freq, ?_, (State.memoryOk_iff.mp hmemCount).1.1, fun b => ?_⟩
  · simpa [State.advance, State.goto, State.clearTable, State.invalidate] using hrun
  · have hb := hfreq b
    simpa [State.freqAt, b.isLt, State.clearTable, State.goto] using hb

end Sys2Proof.Machine
end

section
/-! The tree that TREE_BUILD makes (R111 to R117): each live node is the root of a code tree, their leaves are the live symbols,
and their weights add up to the sum of the frequencies, which a table within 32 bits never lets overflow. -/

namespace Sys2Proof.Machine

/-! ### Trees -/

/-- The symbols of the leaves, in the order of the pre-order walk. -/
def Tree.symbols (t : Tree) : List Symbol := t.codes.map Prod.fst

@[simp] theorem Tree.symbols_leaf (sym : Symbol) : (Tree.leaf sym).symbols = [sym] := rfl

@[simp] theorem Tree.symbols_node (l r : Tree) : (Tree.node l r).symbols = l.symbols ++ r.symbols := by
  simp [Tree.symbols, Tree.codes, Function.comp_def]

theorem Tree.length_symbols (t : Tree) : t.symbols.length = t.leaves := by
  induction t with
  | leaf => rfl
  | node l r ihl ihr => rw [Tree.symbols_node, List.length_append, ihl, ihr, Tree.leaves]

theorem Tree.leaves_pos (t : Tree) : 0 < t.leaves := by
  induction t with
  | leaf => exact Nat.one_pos
  | node l r ihl _ => exact Nat.add_pos_left ihl _

/-- A store that agrees below `k`, where all children lie below their parents, spells the same trees from there. -/
theorem Spells.congr {m m' : Memory Node} {k : Nat} (hread : ∀ j < k, Memory.read Node.zero m' j = Memory.read Node.zero m j)
    (hordered : ∀ sl ∈ childSlots m k, slotOrdered .built m sl = true) {t : Tree} {n : NodeIdx} (hn : n.toNat < k)
    (h : Spells m n t) : Spells m' n t := by
  induction t generalizing n with
  | leaf sym => rw [Spells, hread _ hn]; exact h
  | node l r ihl ihr =>
    obtain ⟨hleaf, hl, hr⟩ := h
    have hsub := slotsOf_subset_childSlots hn hleaf
    have hbelow : ∀ sl ∈ slotsOf n, sl.child m < sl.parent := fun sl hsl => of_decide_eq_true (hordered sl (hsub hsl))
    rw [Spells, hread _ hn]
    exact ⟨hleaf, ihl ((hbelow (.left n) (by simp [slotsOf])).trans hn) hl,
      ihr ((hbelow (.right n) (by simp [slotsOf])).trans hn) hr⟩

/-! ### The merge loop -/

/-- The live set `q` as roots of code trees: their leaves carry the symbols `syms`, and their weights add up to `total`. -/
structure Grown (m : Memory Node) (q : List Nat) (trees : Nat → Tree) (syms : List Symbol) (total : Nat) : Prop where
  spells : ∀ i ∈ q, Spells m (BitVec.ofNat 10 i) (trees i)
  symbols : (q.flatMap fun i => (trees i).symbols).Perm syms
  weight : (q.map (weightAt m)).sum = total

section
variable {m : Memory Node} {q rest : List Nat} {k a b : Nat} {trees : Nat → Tree} {syms : List Symbol} {total : Nat}

/-- The merged weight is part of the total, so it does not overflow where the total does not. -/
theorem Grown.merged_le (h : Grown m q trees syms total) (hq : q.Perm (a :: b :: rest)) :
    weightAt m a + weightAt m b ≤ total := by
  have hsum := (hq.map (weightAt m)).sum_eq
  rw [h.weight] at hsum
  simp only [List.map_cons, List.sum_cons] at hsum
  omega

/-- R111: the merge of two live nodes makes one tree of theirs. -/
theorem Grown.merge (h : Grown m q trees syms total) (hforest : Forest m q k) (hq : q.Perm (a :: b :: rest))
    (htotal : total ≤ Config.weightMax) :
    Grown (Memory.write Node.zero m k (mergedNode (weightAt m a + weightAt m b) a b)) (rest ++ [k])
      (Function.update trees k (.node (trees a) (trees b))) syms total := by
  have hw := (h.merged_le hq).trans htotal
  have hlt : ∀ {i}, i ∈ a :: b :: rest → i < k := fun hi => hforest.live_lt (hq.mem_iff.mpr hi)
  have hroom := hforest.room
  rw [hq.length_eq, Config.maxNodes] at hroom
  simp only [List.length_cons] at hroom
  have hread := Memory.read_write_wf hforest.wf k (mergedNode (weightAt m a + weightAt m b) a b)
  generalize Memory.write Node.zero m k (mergedNode (weightAt m a + weightAt m b) a b) = m' at hread
  have hbelow : ∀ j < k, Memory.read Node.zero m' j = Memory.read Node.zero m j := fun j hj => by
    rw [hread, if_neg hj.ne]
  have hnew : Memory.read Node.zero m' k = mergedNode (weightAt m a + weightAt m b) a b := by rw [hread, if_pos rfl]
  have hold : ∀ {i}, i ∈ a :: b :: rest → Spells m' (BitVec.ofNat 10 i) (trees i) := fun {i} hi =>
    Spells.congr hbelow hforest.ordered (by have := hlt hi; rw [toNat_ofNat_nodeIdx (by omega)]; exact this)
      (h.spells i (hq.mem_iff.mpr hi))
  have hne : ∀ {i}, i ∈ rest → i ≠ k := fun hi => (hlt (List.mem_cons_of_mem _ (List.mem_cons_of_mem _ hi))).ne
  refine ⟨fun i hi => ?_, ?_, ?_⟩
  · obtain hi | hi := List.mem_append.mp hi
    · rw [Function.update_of_ne (hne hi)]
      exact hold (List.mem_cons_of_mem _ (List.mem_cons_of_mem _ hi))
    · rw [List.mem_singleton.mp hi, Function.update_self, Spells, toNat_ofNat_nodeIdx (by omega), hnew]
      exact ⟨rfl, hold (by simp), hold (by simp)⟩
  · refine List.Perm.trans ?_ h.symbols
    refine List.Perm.trans ?_ (hq.symm.flatMap_right _)
    rw [List.flatMap_append, List.flatMap_congr fun i hi => by rw [Function.update_of_ne (hne hi)]]
    simpa using List.perm_append_comm (l₁ := rest.flatMap fun i => (trees i).symbols)
      (l₂ := (trees a).symbols ++ (trees b).symbols)
  · have hsum := (hq.map (weightAt m)).sum_eq
    have hrest : rest.map (weightAt m') = rest.map (weightAt m) := List.map_congr_left fun i hi => by
      rw [weightAt, hread, if_neg (hne hi), weightAt]
    have hweight : weightAt m' k = weightAt m a + weightAt m b := by
      rw [Config.weightMax] at hw
      rw [weightAt, hnew]
      exact Nat.mod_eq_of_lt (by omega)
    rw [h.weight] at hsum
    simp only [List.map_cons, List.sum_cons] at hsum
    rw [List.map_append, List.sum_append, hrest, List.map_singleton, List.sum_singleton, hweight, hsum]
    omega

end

/-- R116, R115: where the total fits 32 bits the loop ends in one tree of all the symbols, and no weight overflows. -/
theorem Grown.mergeLoop {syms : List Symbol} {total : Nat} (htotal : total ≤ Config.weightMax) {fuel : Nat} {m : Memory Node}
    {q : List Nat} {k : Nat} {trees : Nat → Tree} (h : Grown m q trees syms total) (hforest : Forest m q k)
    (hfuel : q.length ≤ fuel) {r : BuildResult} (hr : mergeLoop fuel m q k = r) :
    r.overflow = false ∧ ∃ tree, Grown r.node [r.next - 1] (fun _ => tree) syms total := by
  induction fuel generalizing m q k trees with
  | zero => exact absurd (List.length_pos_of_mem hforest.newest) (by omega)
  | succ fuel ih =>
    by_cases hq : q.length ≤ 1
    · rw [mergeLoop_of_le_one _ m k hq] at hr
      subst hr
      obtain ⟨x, rfl⟩ := List.length_eq_one_iff.mp (le_antisymm hq (List.length_pos_of_mem hforest.newest))
      obtain rfl : k - 1 = x := List.mem_singleton.mp hforest.newest
      exact ⟨rfl, trees (k - 1), by simpa using h.spells, by simpa using h.symbols, h.weight⟩
    · obtain ⟨a, b, rest, hperm, hloop⟩ := mergeLoop_succ fuel m k (show 2 ≤ q.length by omega)
      rw [hloop, if_neg (((h.merged_le hperm).trans htotal).not_gt)] at hr
      refine ih (h.merge hforest hperm htotal) (hforest.merge hperm _) ?_ hr
      have := hperm.length_eq
      simp at this ⊢
      omega

/-! ### The leaves -/

/-- R111: the leaves placed, as trees of one node. -/
theorem grown_placeLeaves (freq : Nat → Word) {ks : List Nat} {m : Memory Node}
    (hwf : Memory.wf Node.zero Config.maxNodes m = true) (hlen : ks.length ≤ Config.maxNodes) :
    Grown (placeLeaves freq 0 ks m) (List.range ks.length) (fun i => .leaf (BitVec.ofNat 9 (ks.getD i 0)))
      (ks.map (BitVec.ofNat 9)) (ks.map fun k => (freq k).toNat).sum := by
  obtain ⟨-, -, hleaf⟩ := placeLeaves_read freq (ks := ks) (i := 0) hwf (by omega)
  have hread : ∀ i < ks.length, Memory.read Node.zero (placeLeaves freq 0 ks m) i =
      leafNode (ks.getD i 0) (freq (ks.getD i 0)) := fun i hi => by
    rw [← Nat.zero_add i, hleaf i hi, Nat.zero_add, List.getD_eq_getElem _ _ hi]
  have hmap : ∀ {α : Type} (f : Nat → α), (List.range ks.length).map (fun i => f (ks.getD i 0)) = ks.map f := fun f =>
    List.ext_getElem (by simp) fun i _ hi => by
      rw [List.length_map] at hi
      rw [List.getElem_map, List.getElem_range, List.getElem_map, List.getD_eq_getElem _ _ hi]
  refine ⟨fun i hi => ?_, ?_, ?_⟩
  · rw [List.mem_range] at hi
    rw [Config.maxNodes] at hlen
    rw [Spells, toNat_ofNat_nodeIdx (by omega), hread i hi]
    exact ⟨rfl, rfl⟩
  · simp only [Tree.symbols_leaf, ← List.map_eq_flatMap]
    rw [hmap]
  · rw [← hmap fun k => (freq k).toNat]
    refine congrArg List.sum (List.map_congr_left fun i hi => ?_)
    rw [weightAt, hread i (List.mem_range.mp hi)]
    rfl

/-! ### TREE_BUILD -/

/-- The symbols without a leaf add nothing to the sum of the frequencies. -/
theorem State.sum_liveSymbols (s : State) : (s.liveSymbols.map fun k => (s.freqAt k).toNat).sum = s.freqSum 257 := by
  have hlive : ∀ ks : List Nat, ((ks.filter fun k => decide (s.freqAt k ≠ 0#32)).map fun k => (s.freqAt k).toNat).sum =
      (ks.map fun k => (s.freqAt k).toNat).sum := fun ks => by
    induction ks with
    | nil => rfl
    | cons k ks ih => by_cases hk : s.freqAt k = 0#32 <;> simpa [hk] using ih
  exact hlive _

theorem State.liveSymbols_lt (s : State) : ∀ k ∈ s.liveSymbols, k < 257 := fun _ hk =>
  List.mem_range.mp (List.mem_of_mem_filter hk)

/-- R112: no symbol is live twice. -/
theorem State.liveSymbols_nodup (s : State) : (s.liveSymbols.map (BitVec.ofNat 9)).Nodup := by
  refine List.Nodup.map_on (fun i hi j hj e => ?_) (List.nodup_range.filter _)
  have h := congrArg BitVec.toNat e
  have hi := s.liveSymbols_lt i hi
  have hj := s.liveSymbols_lt j hj
  rw [BitVec.toNat_ofNat, BitVec.toNat_ofNat] at h
  omega

/-- R115, R116: a table whose counts add up to at most 2^32 - 1 makes one tree of the live symbols. -/
theorem State.buildTree_grown {s : State} (hmem : s.memoryOk = true) (hsum : s.freqSum 257 ≤ Config.weightMax) :
    s.buildTree.overflow = false ∧ ∃ tree, Grown s.buildTree.node [s.buildTree.next - 1] (fun _ => tree)
      (s.liveSymbols.map (BitVec.ofNat 9)) (s.freqSum 257) := by
  obtain ⟨⟨-, hwf⟩, -⟩ := State.memoryOk_iff.mp hmem
  obtain ⟨hpos, hlen⟩ := s.liveSymbols_length
  have hgrown := grown_placeLeaves s.freqAt hwf (hlen.trans (by decide))
  rw [s.sum_liveSymbols] at hgrown
  exact hgrown.mergeLoop hsum (forest_placeLeaves s.freqAt hwf hpos (by rw [Config.maxNodes]; omega))
    List.length_range.le rfl

/-- R111: TREE_BUILD of a table whose counts add up to at most 2^32 - 1. -/
theorem treeBuild_runs {s : State} (hp : s.phase = .tbBuild) (hmem : s.memoryOk = true)
    (hsum : s.freqSum 257 ≤ Config.weightMax) :
    ∃ node root ncount tree, Runs 1 s (State.finish { s with
        node := node, root := root, ncount := ncount, treeValid := true, treeSrc := .built, codesValid := false }) ∧
      FullTree .built node root.toNat ncount.toNat ∧ Spells node root tree ∧
      tree.symbols.Perm (s.liveSymbols.map (BitVec.ofNat 9)) := by
  obtain ⟨hover, tree, hgrown⟩ := State.buildTree_grown hmem hsum
  have hfull := State.buildTree_fullTree hmem hover
  have hroot := hfull.root_lt
  have hn := hfull.n_le
  rw [Config.maxNodes] at hn
  refine ⟨s.buildTree.node, BitVec.ofNat 10 (s.buildTree.next - 1), BitVec.ofNat 10 s.buildTree.next, tree, Runs.single ?_, ?_,
    hgrown.spells _ (List.mem_singleton_self _), by simpa using hgrown.symbols⟩
  · simp only [phaseStep, hp, tbBuild, hover, Bool.false_eq_true, if_false]
    rfl
  · rw [toNat_ofNat_nodeIdx (by omega), toNat_ofNat_nodeIdx (by omega)]
    exact hfull

end Sys2Proof.Machine
end

section
/-! The codes of a tree (R119 to R122): CODE_GEN's walk writes the paths of the leaves in pre-order, and HDR_WRITE its
serialization (R124 to R128). -/

namespace Sys2Proof.Machine

/-! ### Paths -/

/-- R120: the walk's list has the path of each leaf. -/
theorem Tree.isPath_iff_mem_codes {t : Tree} {p : List Bool} {sym : Symbol} : t.IsPath p sym ↔ (sym, p) ∈ t.codes := by
  induction t generalizing p with
  | leaf x => cases p <;> simp [Tree.IsPath, Tree.codes, eq_comm]
  | node l r ihl ihr =>
    match p with
    | [] => simp [Tree.IsPath, Tree.codes]
    | false :: p => simp [Tree.IsPath, Tree.codes, ihl]
    | true :: p => simp [Tree.IsPath, Tree.codes, ihr]

/-- R121: a path is shorter than the number of leaves. -/
theorem Tree.length_lt_leaves {t : Tree} {p : List Bool} {sym : Symbol} (h : t.IsPath p sym) : p.length < t.leaves := by
  induction t generalizing p with
  | leaf x =>
    cases p with
    | nil => exact Nat.one_pos
    | cons => exact h.elim
  | node l r ihl ihr =>
    have hl := l.leaves_pos
    have hr := r.leaves_pos
    rw [Tree.leaves]
    match p, h with
    | false :: p, h => have := ihl h; rw [List.length_cons]; omega
    | true :: p, h => have := ihr h; rw [List.length_cons]; omega

/-- R29: a stored code is read back as the path that it was made of. -/
theorem bitList_codeOfPath {p : List Bool} (h : p.length ≤ 256) : (codeOfPath p).bitList = p := by
  have hlen : (codeOfPath p).len.toNat = p.length := Nat.mod_eq_of_lt (by omega)
  rw [Code.bitList, hlen]
  refine List.ext_getElem (by simp) fun i _ hi => ?_
  rw [List.getElem_map, List.getElem_range, codeOfPath, getLsbD_bitsOfPath, List.getD_eq_getElem _ _ hi]
  simp [hi.trans_le h]

/-! ### CODE_GEN -/

/-- R120: CODE_GEN's walk writes the leaves' paths in the order of the pre-order walk. -/
theorem walkCodes_eq {m : Memory Node} {t : Tree} {levels : Nat} {n : NodeIdx} (h : Spells m n t) (hlevels : t.leaves ≤ levels)
    (p : List Bool) (table : Memory Code) :
    walkCodes m levels n p table = t.codes.foldl (fun table c => writeCode table c.1 (p ++ c.2)) table := by
  induction t generalizing levels n p table with
  | leaf sym =>
    obtain ⟨k, rfl⟩ := Nat.exists_eq_add_of_le' (show 1 ≤ levels from hlevels)
    obtain ⟨hleaf, hsym⟩ := h
    simp [walkCodes, hleaf, hsym, Tree.codes]
  | node l r ihl ihr =>
    have hl := l.leaves_pos
    have hr := r.leaves_pos
    rw [Tree.leaves] at hlevels
    obtain ⟨k, rfl⟩ := Nat.exists_eq_add_of_le' (show 1 ≤ levels by omega)
    obtain ⟨hleaf, hsl, hsr⟩ := h
    simp [walkCodes, hleaf, ihl hsl (show l.leaves ≤ k by omega), ihr hsr (show r.leaves ≤ k by omega), Tree.codes,
      List.foldl_map]

theorem read_writeCode {table : Memory Code} (hwf : Memory.wf Code.none Config.nsym table = true) {sym : Symbol}
    (hsym : sym.toNat < Config.nsym) (x : Symbol) (p : List Bool) :
    Memory.read Code.none (writeCode table x p) sym.toNat =
      if x = sym then codeOfPath p else Memory.read Code.none table sym.toNat := by
  unfold writeCode
  by_cases hx : x = sym
  · subst hx
    rw [if_pos hsym, Memory.read_write_wf hwf, if_pos rfl, if_pos rfl]
  · rw [if_neg hx]
    split
    · rw [Memory.read_write_wf hwf, if_neg fun e => hx (BitVec.eq_of_toNat_eq e.symm)]
    · rfl

/-- R120: of several leaves of a symbol the last one written counts. -/
theorem read_foldl_writeCode {sym : Symbol} (hsym : sym.toNat < Config.nsym) {table : Memory Code}
    (hwf : Memory.wf Code.none Config.nsym table = true) (codes : List (Symbol × List Bool)) :
    Memory.wf Code.none Config.nsym (codes.foldl (fun table c => writeCode table c.1 c.2) table) = true ∧
      Memory.read Code.none (codes.foldl (fun table c => writeCode table c.1 c.2) table) sym.toNat =
        ((codes.filter fun c => decide (c.1 = sym)).getLast?.map fun c => codeOfPath c.2).getD
          (Memory.read Code.none table sym.toNat) := by
  induction codes using List.reverseRecOn with
  | nil => exact ⟨hwf, rfl⟩
  | append_singleton codes c ih =>
    obtain ⟨hwf', hread⟩ := ih
    rw [List.foldl_concat]
    refine ⟨wf_writeCode hwf' _ _, ?_⟩
    rw [read_writeCode hwf' hsym, List.filter_append, hread]
    by_cases hc : c.1 = sym <;> simp [hc]

/-- R120: the code table after CODE_GEN's walk from ROOT. -/
def State.withCodes (s : State) : State := { s with code := walkCodes s.node (Config.maxCodeLen + 1) s.root [] [] }

/-- R119 to R122: CODE_GEN of the tree spelled from ROOT: the entry of a symbol is the path of its last leaf. -/
theorem State.codeAt_walkCodes {s : State} {tree : Tree} (hspells : Spells s.node s.root tree) (hleaves : tree.leaves ≤ 257)
    {sym : Symbol} (hsym : sym.toNat ≤ 256) :
    s.withCodes.codeAt sym.toNat =
      ((tree.codes.filter fun c => decide (c.1 = sym)).getLast?.map fun c => codeOfPath c.2).getD Code.none := by
  have hlt : sym.toNat < Config.nsym := Nat.lt_succ_of_le hsym
  rw [State.codeAt, if_pos hlt, State.withCodes]
  dsimp only
  rw [walkCodes_eq (levels := Config.maxCodeLen + 1) hspells hleaves]
  exact (read_foldl_writeCode hlt rfl tree.codes).2

/-- R120: the entry of a symbol that one leaf carries is the path of that leaf. -/
theorem State.codeAt_of_isPath {s : State} {tree : Tree} (hspells : Spells s.node s.root tree) (hleaves : tree.leaves ≤ 257)
    (hnodup : tree.symbols.Nodup) {sym : Symbol} (hsym : sym.toNat ≤ 256) {p : List Bool} (hpath : tree.IsPath p sym) :
    s.withCodes.codeAt sym.toNat = codeOfPath p := by
  have hmem := Tree.isPath_iff_mem_codes.mp hpath
  rw [State.codeAt_walkCodes hspells hleaves hsym]
  cases hlast : (tree.codes.filter fun c => decide (c.1 = sym)).getLast? with
  | none =>
    rw [List.getLast?_eq_none_iff, List.filter_eq_nil_iff] at hlast
    exact absurd (decide_eq_true rfl) (hlast _ hmem)
  | some c =>
    obtain ⟨hc, hcsym⟩ := List.mem_filter.mp (List.mem_of_getLast? hlast)
    have hc : c = (sym, p) := List.inj_on_of_nodup_map hnodup hc hmem (of_decide_eq_true hcsym)
    rw [hc]
    rfl

/-- R29, R120: a symbol that one leaf carries has a code, and its bits are the path of that leaf. -/
theorem State.codeAt_of_mem_symbols {s : State} {tree : Tree} (hspells : Spells s.node s.root tree)
    (hleaves : tree.leaves ≤ 257) (hnodup : tree.symbols.Nodup) {sym : Symbol} (hsym : sym.toNat ≤ 256) (hmem : sym ∈ tree.symbols) :
    (s.withCodes.codeAt sym.toNat).valid = true ∧ tree.IsPath (s.withCodes.codeAt sym.toNat).bitList sym := by
  obtain ⟨⟨_, p⟩, hc, rfl⟩ := List.mem_map.mp hmem
  have hpath := Tree.isPath_iff_mem_codes.mpr hc
  have hlen := Tree.length_lt_leaves hpath
  rw [State.codeAt_of_isPath hspells hleaves hnodup hsym hpath, bitList_codeOfPath (by omega)]
  exact ⟨rfl, hpath⟩

theorem codeGen_runs {s : State} (hp : s.phase = .cgGen) :
    Runs 1 s (State.finish { s.withCodes with codesValid := true }) :=
  Runs.single (by simp only [phaseStep, hp, cgGen]; rfl)

/-! ### HDR_WRITE -/

theorem State.emit_ser_leaf (s : State) (sym : Symbol) : s.emit (Tree.leaf sym).ser = (s.emit [true]).emit (bitsOf sym) :=
  (s.emit_emit [true] (bitsOf sym)).symm

theorem State.emit_ser_node (s : State) (l r : Tree) :
    s.emit (Tree.node l r).ser = ((s.emit [false]).emit l.ser).emit r.ser := by
  rw [State.emit_emit, State.emit_emit]
  rfl

/-- R126, R127: HW_WALK with the root of a tree on top of TS writes the tree. -/
theorem hwWalk_runs {t : Tree} {s : State} {n : NodeIdx} {rest : List NodeIdx} (hp : s.phase = .hwWalk) (hts : s.ts = n :: rest)
    (h : Spells s.node n t) :
    ∃ hwN, Runs (t.size + t.leaves) s { s.emit t.ser with ts := rest, hwN := hwN } := by
  induction t generalizing s n rest with
  | leaf sym =>
    obtain ⟨hleaf, hsym⟩ := h
    replace hleaf : (s.nodeAt n).leaf = true := hleaf
    refine ⟨n, Runs.head (t := { s.emit [true] with ts := rest, hwN := n, phase := .hwSym }) ?_ (Runs.single ?_)⟩
    · simp only [phaseStep, hp, hwWalk, hts, hleaf, if_true, State.wr_eq_emit]
      rfl
    · show hwSym _ = _
      have hfield : bitsOf (State.nodeAt { s.emit [true] with ts := rest, hwN := n, phase := .hwSym } n).sym = bitsOf sym :=
        congrArg bitsOf hsym
      rw [hwSym, State.wr_eq_emit, hfield, State.emit_ser_leaf, ← hp]
      rfl
  | node l r ihl ihr =>
    obtain ⟨hleaf, hsl, hsr⟩ := h
    replace hleaf : (s.nodeAt n).leaf = false := hleaf
    obtain ⟨hwN, hrunl⟩ := ihl (s := { s.emit [false] with ts := (s.nodeAt n).left :: (s.nodeAt n).right :: rest }) hp rfl hsl
    obtain ⟨hwN', hrunr⟩ := ihr (s := { (s.emit [false]).emit l.ser with ts := (s.nodeAt n).right :: rest, hwN := hwN }) hp rfl
      hsr
    have hstep : phaseStep s = { s.emit [false] with ts := (s.nodeAt n).left :: (s.nodeAt n).right :: rest } := by
      simp only [phaseStep, hp, hwWalk, hts, hleaf, Bool.false_eq_true, if_false, State.wr_eq_emit]
      rw [← hp]
      rfl
    have hcount : (Tree.node l r).size + (Tree.node l r).leaves = l.size + l.leaves + (r.size + r.leaves) + 1 := by
      rw [Tree.size, Tree.leaves]
      omega
    rw [hcount, State.emit_ser_node]
    exact ⟨hwN', Runs.head hstep (hrunl.trans hrunr)⟩

/-- R124: HDR_WRITE from its first phase. -/
theorem hdrWrite_runs {s : State} {tree : Tree} (hp : s.phase = .hwMagic) (hspells : Spells s.node s.root tree) :
    ∃ hwN, Runs (1 + (tree.size + tree.leaves) + 1) s (State.finish { s.emit (bitsOf Config.magic ++ tree.ser) with
      ts := [], hwN := hwN, phase := .hwWalk }) := by
  obtain ⟨hwN, hrun⟩ :=
    hwWalk_runs (s := { s.emit (bitsOf Config.magic) with ts := [s.root], phase := .hwWalk }) rfl rfl hspells
  have hmagic : Runs 1 s { s.emit (bitsOf Config.magic) with ts := [s.root], phase := .hwWalk } :=
    Runs.single (by simp only [phaseStep, hp, hwMagic, State.wr_eq_emit])
  refine ⟨hwN, (hmagic.trans hrun).trans (Runs.single ?_)⟩
  rw [← State.emit_emit]
  rfl

end Sys2Proof.Machine
end

section
/-! ENCODE from its first phase to its end (R135 to R141): the codes of the bytes, the end-marker's code and the pad. -/

namespace Sys2Proof.Machine

@[simp] theorem Code.length_bitList (c : Code) : c.bitList.length = c.len.toNat := by simp [Code.bitList]

theorem Code.drop_bitList {c : Code} {j : BitVec 9} (h : j < c.len) :
    c.bitList.drop j.toNat = c.bits.getLsbD j.toNat :: c.bitList.drop (j.toNat + 1) := by
  rw [List.drop_eq_getElem_cons (by simpa using BitVec.lt_def.mp h)]
  simp [Code.bitList]

/-- R138: EN_BITS with a bit of the code left. -/
theorem phaseStep_enBits_bit {s : State} (hp : s.phase = .enBits) (h : s.ej < (s.codeAt s.esym.toNat).len) :
    phaseStep s = { s.emit [(s.codeAt s.esym.toNat).bits.getLsbD s.ej.toNat] with ej := s.ej + 1#9 } := by
  simp only [phaseStep, hp, enBits, if_pos h, State.wr_eq_emit, bitsOf_ofBool]
  rw [← hp]
  rfl

/-- R138: EN_BITS with the code written. -/
theorem phaseStep_enBits_end {s : State} (hp : s.phase = .enBits) (h : ¬ s.ej < (s.codeAt s.esym.toNat).len) :
    phaseStep s = s.goto (if s.eomf then .enClose else .enRead) := by
  simp only [phaseStep, hp, enBits, if_neg h]
  split <;> rfl

/-- R138: EN_BITS writes what is left of the code. -/
theorem enBits_runs {d : Nat} {s : State} (hp : s.phase = .enBits) (hd : s.ej.toNat + d = (s.codeAt s.esym.toNat).len.toNat) :
    Runs d s { s.emit ((s.codeAt s.esym.toNat).bitList.drop s.ej.toNat) with ej := (s.codeAt s.esym.toNat).len } := by
  induction d generalizing s with
  | zero =>
    have hej : s.ej = (s.codeAt s.esym.toNat).len := BitVec.eq_of_toNat_eq hd
    rw [← hej, List.drop_of_length_le (by rw [Code.length_bitList, ← hej]), State.emit_nil]
    exact Runs.refl s
  | succ d ih =>
    have hlt : s.ej < (s.codeAt s.esym.toNat).len := BitVec.lt_def.mpr (by omega)
    have hej : (s.ej + 1#9).toNat = s.ej.toNat + 1 := by
      have := (s.codeAt s.esym.toNat).len.isLt
      rw [BitVec.toNat_add]
      exact Nat.mod_eq_of_lt (by simp; omega)
    have hrun := ih (s := { s.emit [(s.codeAt s.esym.toNat).bits.getLsbD s.ej.toNat] with ej := s.ej + 1#9 }) hp
      (by show (s.ej + 1#9).toNat + d = (s.codeAt s.esym.toNat).len.toNat; omega)
    rw [Code.drop_bitList hlt, ← List.singleton_append, ← State.emit_emit, ← hej]
    exact Runs.head (phaseStep_enBits_bit hp hlt) hrun

/-- R138: EN_BITS from the first bit of the code `c` to the phase after it. -/
theorem enBits_code_runs {s : State} {c : Code} {p : Phase} (hp : s.phase = .enBits) (hej : s.ej = 0#9)
    (hc : s.codeAt s.esym.toNat = c) (hnext : (if s.eomf then .enClose else .enRead) = p) :
    Runs (c.bitList.length + 1) s { s.emit c.bitList with ej := c.len, phase := p } := by
  subst hc
  have hrun := enBits_runs (d := (s.codeAt s.esym.toNat).bitList.length) hp (by simp [hej])
  rw [hej, BitVec.toNat_zero, List.drop_zero] at hrun
  have hend := phaseStep_enBits_end
    (s := { s.emit (s.codeAt s.esym.toNat).bitList with ej := (s.codeAt s.esym.toNat).len }) hp (BitVec.lt_irrefl _)
  exact hnext ▸ hrun.trans (Runs.single hend)

theorem lookUp_valid {s : State} (h : (s.codeAt s.esym.toNat).valid = true) :
    lookUp s = { s with ej := 0#9, phase := .enBits } := if_pos h

theorem toNat_byte_symbol (x : Byte) : (x.setWidth 9).toNat = x.toNat := by
  rw [BitVec.toNat_setWidth]
  omega

/-- R137, R138: EN_READ on a byte that has a code writes the code. -/
theorem enRead_byte_runs {s : State} {x : Byte} {rest : List Bool} (hp : s.phase = .enRead) (heomf : s.eomf = false)
    (hinput : s.input.drop s.pos = bitsOf x ++ rest) (hvalid : (s.codeAt x.toNat).valid = true) :
    Runs ((s.codeAt x.toNat).bitList.length + 2) s { (s.advance 8).emit (s.codeAt x.toNat).bitList with
      esym := x.setWidth 9, ej := (s.codeAt x.toNat).len } := by
  have hcode : s.codeAt (x.setWidth 9).toNat = s.codeAt x.toNat := congrArg s.codeAt (toNat_byte_symbol x)
  have hstep : phaseStep s = { s.advance 8 with esym := x.setWidth 9, ej := 0#9, phase := .enBits } := by
    simp only [phaseStep, hp, enRead, State.peek_of_drop (by decide : 0 < 8) hinput]
    exact lookUp_valid ((congrArg Code.valid hcode).trans hvalid)
  have hrun := enBits_code_runs (s := { s.advance 8 with esym := x.setWidth 9, ej := 0#9, phase := .enBits })
    (p := s.phase) rfl rfl hcode (by simp [heomf, hp])
  exact Runs.head hstep hrun

/-- R137, R138: EN_READ at the end of the input writes the end-marker's code. -/
theorem enRead_eof_runs {s : State} (hp : s.phase = .enRead) (hinput : s.input.length < s.pos + 8)
    (hvalid : (s.codeAt 256).valid = true) :
    Runs ((s.codeAt 256).bitList.length + 2) s { s.emit (s.codeAt 256).bitList with
      esym := 256#9, ej := (s.codeAt 256).len, eomf := true, phase := .enClose } := by
  have hstep : phaseStep s = { s with esym := 256#9, ej := 0#9, eomf := true, phase := .enBits } := by
    simp only [phaseStep, hp, enRead, State.peek_eq_none.mpr hinput]
    exact lookUp_valid hvalid
  exact Runs.head hstep (enBits_code_runs (s := { s with esym := 256#9, ej := 0#9, eomf := true, phase := .enBits })
    rfl rfl rfl rfl)

/-- The codes of the bytes, in order (R87). -/
def State.codesOf (s : State) (xs : List Byte) : List Bool := xs.flatMap fun x => (s.codeAt x.toNat).bitList

theorem State.codesOf_cons (s : State) (x : Byte) (xs : List Byte) :
    s.codesOf (x :: xs) = (s.codeAt x.toNat).bitList ++ s.codesOf xs := rfl

/-- The block after ENCODE has read `n` bits and written `bits` for them. -/
def State.encoded (s : State) (n : Nat) (bits : List Bool) (esym : Symbol) (ej : BitVec 9) : State :=
  { (s.advance n).emit bits with esym := esym, ej := ej }

theorem State.encoded_zero (s : State) : s.encoded 0 [] s.esym s.ej = s := by
  rw [State.encoded, State.advance_zero, State.emit_nil]

theorem State.encoded_encoded (s : State) (m n : Nat) (a b : List Bool) (e e' : Symbol) (j j' : BitVec 9) :
    (s.encoded m a e j).encoded n b e' j' = s.encoded (m + n) (a ++ b) e' j' := by
  rw [State.encoded, State.encoded, State.encoded, ← State.advance_advance, ← State.emit_emit]
  rfl

section
variable (s : State) (n : Nat) (bits : List Bool) (e : Symbol) (j : BitVec 9)

@[simp] theorem State.encoded_phase : (s.encoded n bits e j).phase = s.phase := rfl
@[simp] theorem State.encoded_eomf : (s.encoded n bits e j).eomf = s.eomf := rfl
@[simp] theorem State.encoded_input : (s.encoded n bits e j).input = s.input := rfl
@[simp] theorem State.encoded_pos : (s.encoded n bits e j).pos = s.pos + n := rfl
@[simp] theorem State.encoded_codeAt : (s.encoded n bits e j).codeAt = s.codeAt := rfl

end

/-- R137, R138: EN_READ and EN_BITS over the bytes of the input. -/
theorem enRead_bytes_runs {xs : List Byte} {tail : List Bool} {s : State} (hp : s.phase = .enRead) (heomf : s.eomf = false)
    (hinput : s.input.drop s.pos = bitsOfBytes xs ++ tail) (hvalid : ∀ x ∈ xs, (s.codeAt x.toNat).valid = true) :
    ∃ esym ej, Runs ((s.codesOf xs).length + 2 * xs.length) s (s.encoded (8 * xs.length) (s.codesOf xs) esym ej) := by
  induction xs generalizing s with
  | nil => exact ⟨s.esym, s.ej, s.encoded_zero.symm⟩
  | cons x xs ih =>
    rw [bitsOfBytes_cons, List.append_assoc] at hinput
    obtain ⟨hx, hxs⟩ := List.forall_mem_cons.mp hvalid
    have hbyte : Runs _ s (s.encoded 8 (s.codeAt x.toNat).bitList (x.setWidth 9) (s.codeAt x.toNat).len) :=
      enRead_byte_runs hp heomf hinput hx
    have hrest := State.drop_advance hinput
    obtain ⟨esym, ej, hrun⟩ := ih (s := s.encoded 8 (s.codeAt x.toNat).bitList (x.setWidth 9) (s.codeAt x.toNat).len)
      (by rw [State.encoded_phase, hp]) (by rw [State.encoded_eomf, heomf])
      (by rw [State.encoded_input, State.encoded_pos]; exact hrest) (by rw [State.encoded_codeAt]; exact hxs)
    rw [State.codesOf, State.encoded_codeAt, ← State.codesOf, State.encoded_encoded, ← State.codesOf_cons,
      Nat.add_comm 8] at hrun
    have hcount : (s.codesOf (x :: xs)).length + 2 * (x :: xs).length =
        (s.codeAt x.toNat).bitList.length + 2 + ((s.codesOf xs).length + 2 * xs.length) := by
      rw [State.codesOf_cons, List.length_append, List.length_cons]
      ring
    rw [hcount]
    exact ⟨esym, ej, hbyte.trans hrun⟩

/-- R135, R140, R141: ENCODE from its first phase. -/
theorem encode_runs {s : State} {xs : List Byte} {tail : List Bool} (hp : s.phase = .enRewind)
    (hinput : s.input = bitsOfBytes xs ++ tail) (htail : tail.length < 8)
    (hvalid : ∀ x ∈ xs, (s.codeAt x.toNat).valid = true) (heom : (s.codeAt 256).valid = true) :
    Runs (1 + ((s.codesOf xs).length + 2 * xs.length) + ((s.codeAt 256).bitList.length + 2) + 1) s
      (State.finish (State.close { s.emit (s.codesOf xs ++ (s.codeAt 256).bitList) with
        pos := 8 * xs.length, inBits := BitVec.ofNat 32 (8 * xs.length), esym := 256#9, ej := (s.codeAt 256).len
        eomf := true, phase := .enClose })) := by
  have hrewind : Runs 1 s { s with pos := 0, inBits := 0#32, eomf := false, phase := .enRead } :=
    Runs.single (by simp only [phaseStep, hp, enRewind]; rfl)
  obtain ⟨esym, ej, hbytes⟩ := enRead_bytes_runs (s := { s with pos := 0, inBits := 0#32, eomf := false, phase := .enRead })
    rfl rfl hinput hvalid
  simp only [State.encoded, State.advance, Nat.zero_add, BitVec.zero_add] at hbytes
  have hlen : s.input.length < 8 * xs.length + 8 := by
    rw [hinput, List.length_append, length_bitsOfBytes]
    omega
  have hrun := (hrewind.trans hbytes).trans (enRead_eof_runs rfl hlen heom)
  rw [← State.emit_emit]
  exact hrun.trans (Runs.single rfl)

end Sys2Proof.Machine
end

section
/-! COMPRESS (R150): the five engines of its list, one after the other. -/

namespace Sys2Proof.Machine

/-! ### The table that FREQ_ACCUM leaves -/

theorem State.freqSum_eq_sum (s : State) (k : Nat) : s.freqSum k = ∑ i ∈ Finset.range k, (s.freqAt i).toNat := rfl

theorem byte_eq_ofNat_iff {x : Byte} {i : Nat} (hi : i < 256) : x = BitVec.ofNat 8 i ↔ i = x.toNat := by
  rw [← BitVec.toNat_inj, BitVec.toNat_ofNat, Nat.mod_eq_of_lt hi, eq_comm]

theorem sum_count_bytes (xs : List Byte) : ∑ i ∈ Finset.range 256, xs.count (BitVec.ofNat 8 i) = xs.length := by
  induction xs with
  | nil => simp
  | cons x xs ih =>
    have hx : ∀ i ∈ Finset.range 256, (if x == BitVec.ofNat 8 i then 1 else 0) = if i = x.toNat then 1 else 0 :=
      fun i hi => by simp [byte_eq_ofNat_iff (Finset.mem_range.mp hi)]
    simp only [List.count_cons, Finset.sum_add_distrib, ih, List.length_cons]
    rw [Finset.sum_congr rfl hx, Finset.sum_ite_eq', if_pos (Finset.mem_range.mpr x.isLt)]

/-- The symbols that ENCODE codes for the bytes: theirs and the end-marker (R87). -/
def symbolsOf (xs : List Byte) : List Symbol := 256#9 :: xs.map (BitVec.setWidth 9)

section
variable {s : State} {xs : List Byte} (hfreq : ∀ b : Byte, s.freqAt b.toNat = BitVec.ofNat 32 (xs.count b))
  (hlen : xs.length ≤ 2 ^ 32 - 2)
include hfreq hlen

theorem State.freqAt_toNat_of_counts (b : Byte) : (s.freqAt b.toNat).toNat = xs.count b := by
  have hcount : xs.count b ≤ xs.length := List.count_le_length
  rw [hfreq, BitVec.toNat_ofNat, Nat.mod_eq_of_lt (by omega)]

/-- R11, R12: the counts and the end-marker's 1 fit a weight. -/
theorem State.freqSum_of_counts : s.freqSum 257 = xs.length + 1 := by
  rw [State.freqSum_eq_sum, Finset.sum_range_succ, State.freqAt_eom, ← sum_count_bytes xs]
  refine congrArg (· + 1) (Finset.sum_congr rfl fun i hi => ?_)
  rw [← State.freqAt_toNat_of_counts hfreq hlen, BitVec.toNat_ofNat, Nat.mod_eq_of_lt (Finset.mem_range.mp hi)]

/-- R112: the symbols to be coded are live. -/
theorem State.exists_live_of_mem_symbolsOf {sym : Symbol} (h : sym ∈ symbolsOf xs) :
    ∃ k ∈ s.liveSymbols, BitVec.ofNat 9 k = sym := by
  obtain rfl | h := List.mem_cons.mp h
  · exact ⟨256, List.mem_filter.mpr ⟨List.mem_range.mpr (by decide), by simp⟩, rfl⟩
  obtain ⟨x, hx, rfl⟩ := List.mem_map.mp h
  refine ⟨x.toNat, List.mem_filter.mpr ⟨List.mem_range.mpr (x.isLt.trans (by decide)), decide_eq_true fun e => ?_⟩,
    BitVec.ofNat_toNat 9 x⟩
  have hcount := State.freqAt_toNat_of_counts hfreq hlen x
  rw [e] at hcount
  exact absurd hcount (List.count_pos_iff.mpr hx).ne

end

/-! ### The sequencer -/

/-- R100: the end of an engine that has a successor in the command's list. -/
theorem State.finish_next {s : State} {e : Engine} (h : (engines s.activeCmd)[s.seq.toNat + 1]? = some e) :
    s.finish = { s with seq := s.seq + 1#3, phase := e.first } := by
  simp only [State.finish, h]

/-- R100: the end of the last engine. -/
theorem State.finish_last {s : State} (h : (engines s.activeCmd)[s.seq.toNat + 1]? = none) :
    s.finish = { s with phase := .idle, done := true } := by
  simp only [State.finish, h]

/-- R95, R99: a command that starts. -/
theorem State.dispatch_started {s : State} {op : BitVec 8} {e : Engine} {es : List Engine} (hidle : s.busy = false)
    (hengines : engines op = e :: es) (hneeds : s.needs op = true) :
    s.dispatch op = { s.beginDispatch op with seq := 0#3, phase := e.first } := by
  simp only [State.dispatch, hidle, hengines, hneeds, Bool.false_eq_true, if_false, if_true]

/-! ### The engines of COMPRESS -/

/-- What the first three engines of a COMPRESS of the bytes `xs` leave in the tables, and the tree that they spell. -/
structure TablesFor (xs : List Byte) (tree : Tree) (u : State) : Prop where
  freq : ∀ b : Byte, u.freqAt b.toNat = BitVec.ofNat 32 (xs.count b)
  full : FullTree .built u.node u.root.toNat u.ncount.toNat
  spells : Spells u.node u.root tree
  nodup : tree.symbols.Nodup
  valid : ∀ sym ∈ symbolsOf xs, (u.codeAt sym.toNat).valid = true
  path : ∀ sym ∈ symbolsOf xs, tree.IsPath (u.codeAt sym.toNat).bitList sym

/-- R150: FREQ_ACCUM, TREE_BUILD and CODE_GEN. -/
theorem compress_tables_runs {s : State} {xs : List Byte} {tail : List Bool} (hcmd : s.activeCmd = 0x09#8) (hseq : s.seq = 0#3)
    (hp : s.phase = .faInit) (hmem : s.memoryOk = true) (hinput : s.input.drop s.pos = bitsOfBytes xs ++ tail)
    (htail : tail.length < 8) (hlen : xs.length ≤ 2 ^ 32 - 2) :
    ∃ k tree u, Runs k s u ∧ TablesFor xs tree u ∧
      u = { s.advance (8 * xs.length) with
        freq := u.freq, total := BitVec.ofNat 32 xs.length, node := u.node, root := u.root, ncount := u.ncount, code := u.code
        treeValid := true, treeSrc := .built, codesValid := true, seq := 3#3, phase := .hwMagic } := by
  obtain ⟨freq, hrun, hwf, hread⟩ := freqAccum_runs hp hmem hinput htail hlen
  rw [State.finish_next (e := .treeBuild) (by simp [hcmd, hseq, engines])] at hrun
  obtain ⟨s1, hs1⟩ : ∃ t, t = { s.advance (8 * xs.length) with
    freq := freq, total := BitVec.ofNat 32 xs.length, treeValid := false, codesValid := false, seq := s.seq + 1#3
    phase := .tbBuild } := ⟨_, rfl⟩
  have hrun : Runs (xs.length + 2) s s1 := hs1 ▸ hrun
  have hmem1 : s1.memoryOk = true := by
    obtain ⟨⟨-, hnode⟩, hcode⟩ := State.memoryOk_iff.mp hmem
    rw [hs1]
    exact State.memoryOk_iff.mpr ⟨⟨hwf, hnode⟩, hcode⟩
  have hfreq1 : ∀ b : Byte, s1.freqAt b.toNat = BitVec.ofNat 32 (xs.count b) := fun b => by
    rw [hs1, State.freqAt, if_pos b.isLt]
    exact hread b
  have hsum : s1.freqSum 257 ≤ Config.weightMax := by
    rw [State.freqSum_of_counts hfreq1 hlen, Config.weightMax]
    omega
  obtain ⟨node, root, ncount, tree, hrun1, hfull, hspells, hsyms⟩ := treeBuild_runs (by rw [hs1]) hmem1 hsum
  rw [State.finish_next (e := .codeGen) (by simp [hs1, hcmd, hseq, engines])] at hrun1
  have hrun2 := codeGen_runs (s := { s1 with
    node := node, root := root, ncount := ncount, treeValid := true, treeSrc := .built, codesValid := false
    seq := s1.seq + 1#3, phase := Engine.codeGen.first }) rfl
  rw [State.finish_next (e := .hdrWrite) (by simp [State.withCodes, hs1, hcmd, hseq, engines])] at hrun2
  have hnodup : tree.symbols.Nodup := hsyms.nodup_iff.mpr s1.liveSymbols_nodup
  have hleaves : tree.leaves ≤ 257 := by
    rw [← tree.length_symbols, hsyms.length_eq, List.length_map]
    exact s1.liveSymbols_length.2
  have hlive : ∀ sym ∈ symbolsOf xs, sym.toNat ≤ 256 ∧ sym ∈ tree.symbols := fun sym hsym => by
    obtain ⟨k, hk, rfl⟩ := State.exists_live_of_mem_symbolsOf hfreq1 hlen hsym
    have hlt := s1.liveSymbols_lt k hk
    rw [BitVec.toNat_ofNat]
    exact ⟨by omega, hsyms.mem_iff.mpr (List.mem_map_of_mem hk)⟩
  have hcode := fun sym hsym =>
    State.codeAt_of_mem_symbols (s := { s1 with node := node, root := root }) hspells hleaves hnodup (hlive sym hsym).1
      (hlive sym hsym).2
  refine ⟨_, tree, _, (hrun.trans hrun1).trans hrun2,
    ⟨hfreq1, hfull, hspells, hnodup, fun sym hsym => (hcode sym hsym).1, fun sym hsym => (hcode sym hsym).2⟩, ?_⟩
  rw [hs1, hseq]
  rfl

/-- R80, R87: the stream that a COMPRESS of the bytes writes, but for the pad. -/
def State.streamOf (s : State) (tree : Tree) (xs : List Byte) : List Bool :=
  bitsOf Config.magic ++ tree.ser ++ (s.codesOf xs ++ (s.codeAt 256).bitList)

theorem byte_mem_symbolsOf {xs : List Byte} {x : Byte} (h : x ∈ xs) : x.setWidth 9 ∈ symbolsOf xs :=
  List.mem_cons_of_mem _ (List.mem_map_of_mem h)

/-- R150: HDR_WRITE and ENCODE. -/
theorem compress_stream_runs {s : State} {tree : Tree} {xs : List Byte} {tail : List Bool} (hcmd : s.activeCmd = 0x09#8)
    (hseq : s.seq = 3#3) (hp : s.phase = .hwMagic) (hspells : Spells s.node s.root tree)
    (hinput : s.input = bitsOfBytes xs ++ tail) (htail : tail.length < 8) (hvalid : ∀ sym ∈ symbolsOf xs, (s.codeAt sym.toNat).valid = true) :
    ∃ k u, Runs k s u ∧ u = { (s.emit (s.streamOf tree xs)).close with
      ts := [], hwN := u.hwN, pos := 8 * xs.length, inBits := BitVec.ofNat 32 (8 * xs.length), esym := 256#9
      ej := (s.codeAt 256).len, eomf := true, seq := 4#3, phase := .idle, done := true } := by
  obtain ⟨hwN, hrun⟩ := hdrWrite_runs hp hspells
  rw [State.finish_next (e := .encode) (by simp [State.emit, hcmd, hseq, engines])] at hrun
  obtain ⟨s1, hs1⟩ : ∃ t, t = { s.emit (bitsOf Config.magic ++ tree.ser) with
    ts := [], hwN := hwN, seq := s.seq + 1#3, phase := .enRewind } := ⟨_, rfl⟩
  have hrun : Runs (1 + (tree.size + tree.leaves) + 1) s s1 := hs1 ▸ hrun
  have hcodes : s1.codeAt = s.codeAt := by rw [hs1]; rfl
  have hbytes : ∀ x ∈ xs, (s1.codeAt x.toNat).valid = true := fun x hx => by
    have := hvalid _ (byte_mem_symbolsOf hx)
    rwa [hcodes, ← toNat_byte_symbol x]
  have hrun' := encode_runs (s := s1) (by rw [hs1]) (by rw [hs1]; exact hinput) htail hbytes
    (by rw [hcodes]; exact hvalid 256#9 List.mem_cons_self)
  rw [State.finish_last (by simp [hs1, State.emit, State.close, hcmd, hseq, engines])] at hrun'
  refine ⟨_, _, hrun.trans hrun', ?_⟩
  rw [State.codesOf, hcodes, ← State.codesOf, hs1, hseq]
  simp [State.streamOf, State.emit, State.close, BitVec.ofNat_add, BitVec.add_assoc]

/-- Settles O24: the dispatch, the runs of the five engines, and the codes as paths of the tree that they built. -/
theorem compressWritesTheStream : Obligations.CompressWritesTheStream := by
  intro s xs tail hquiet hmem hpos hinput htail hlen
  obtain ⟨hquiet, hidle⟩ : s.quiet = true ∧ s.busy = false := by simpa [State.quietIdle] using hquiet
  obtain ⟨t, ht⟩ : ∃ t, t = { s.beginDispatch 0x09#8 with seq := 0#3, phase := .faInit } := ⟨_, rfl⟩
  have hdispatch : s.dispatch 0x09#8 = t :=
    (State.dispatch_started (e := .freqAccum) hidle rfl rfl).trans ht.symm
  have hexec : exec .compress s = .next t := congrArg Host.Outcome.next hdispatch
  have htquiet : t.quiet = true := by rw [ht]; exact hquiet
  have htinput : t.input.drop t.pos = bitsOfBytes xs ++ tail := by rw [ht]; simp [hinput, hpos]
  obtain ⟨k, tree, t1, hrun, htables, ht1⟩ :=
    compress_tables_runs (by rw [ht]; rfl) (by rw [ht]) (by rw [ht]) (by rw [ht]; exact hmem) htinput htail hlen
  obtain ⟨k1, u, hrun1, hu⟩ :=
    compress_stream_runs (s := t1) (by rw [ht1, ht]; rfl) (by rw [ht1]) (by rw [ht1]) htables.spells
      (by rw [ht1, ht]; exact hinput) htail htables.valid
  obtain ⟨hfreq, hnode, hroot, hncount⟩ : u.freq = t1.freq ∧ u.node = t1.node ∧ u.root = t1.root ∧ u.ncount = t1.ncount := by
    rw [hu]
    simp [State.emit]
  refine ⟨t, k + k1, u, tree, fun sym => (t1.codeAt sym.toNat).bitList,
    (List.range ((8 - (s.output ++ t1.streamOf tree xs).length % 8) % 8)).map (Config.padBit s.draws), hexec,
    (hrun.trans hrun1).after htquiet, ?_, ?_, ?_, htables.nodup, fun x hx => htables.path _ (byte_mem_symbolsOf hx),
    htables.path _ List.mem_cons_self, ?_⟩
  · intro b
    rw [State.freqAt, hfreq]
    exact htables.freq b
  · rw [hnode, hroot, hncount]
    exact treeOk_iff.mpr htables.full
  · rw [hnode, hroot]
    exact htables.spells
  have hbody : (xs.flatMap fun x => (t1.codeAt (x.zeroExtend 9).toNat).bitList) = t1.codesOf xs := by
    simp only [State.codesOf, BitVec.truncate_eq_setWidth, toNat_byte_symbol]
  have hstream : bitsOf 0xFACE8201#32 ++ tree.ser ++ (t1.codesOf xs ++ (t1.codeAt (256#9).toNat).bitList) =
      t1.streamOf tree xs := rfl
  dsimp only
  rw [hbody, hstream]
  refine ⟨by rw [List.length_map, List.length_range], ?_⟩
  generalize t1.streamOf tree xs = stream at hu
  rw [hu, ht1, ht]
  simp [State.emit, State.close, State.beginDispatch, State.completed, State.advance, hpos]

end Sys2Proof.Machine
end

section
/-! The eleven commands at dispatch (R95 to R99), the end of an engine (R100, R149), and NOP (R101). -/

namespace Sys2Proof.Machine

/-! ### Dispatch -/

/-- R73, R95: a command's meaning is the dispatch of its opcode. -/
theorem exec_of_opcode {i : Instr} {op : BitVec 8} (h : i.opcode? = some op) (s : State) : exec i s = .next (s.dispatch op) := by
  cases i <;> cases h <;> rfl

/-- R95, R99: the state in which a command's first engine starts. -/
theorem exec_started {s : State} {i : Instr} {op : BitVec 8} {p : Phase} (hidle : s.busy = false) (hop : i.opcode? = some op)
    (hfirst : (engines op).head?.map Engine.first = some p) (hneeds : s.needs op = true) :
    exec i s = .next { s.beginDispatch op with seq := 0#3, phase := p } := by
  obtain ⟨e, he, rfl⟩ := Option.map_eq_some_iff.mp hfirst
  rw [exec_of_opcode hop, State.dispatch_started hidle (List.eq_cons_of_mem_head? he) hneeds]

theorem errcodeWord_notReady : errcodeWord false false dispatchCode Cause.notReady.code = 0x00000202#32 := by decide

/-- R97, R98: a command of the map whose precondition fails. -/
theorem exec_unready {s : State} {i : Instr} {op : BitVec 8} (hidle : s.busy = false) (hop : i.opcode? = some op)
    (hengines : engines op ≠ []) (hneeds : s.needs op = false) :
    exec i s = .next { s.beginDispatch op with err := true, errcode := 0x00000202#32, errinfo := op.setWidth 32 } := by
  have hphase : s.phase = .idle := by simpa [State.busy] using hidle
  rw [exec_of_opcode hop]
  obtain ⟨hbusy, -⟩ | ⟨-, hnil, -⟩ | ⟨-, -, -, hd⟩ | ⟨-, hready, -⟩ := s.dispatch_cases op
  · exact absurd hbusy (Bool.eq_false_iff.mp hidle)
  · exact absurd hnil hengines
  · rw [hd, State.dispatchError, State.takeError, errcodeWord_notReady, ← hphase]
    rfl
  · exact absurd hready (Bool.eq_false_iff.mp hneeds)

/-- Settles O8: each row's opcode, precondition and first phase are those of the dispatch. -/
theorem dispatchStartsTheFirstEngine : Obligations.DispatchStartsTheFirstEngine := by
  intro s hidle row hrow hneeds
  fin_cases hrow <;> exact exec_started hidle rfl rfl hneeds

/-- Settles O9: the precondition of each row is the flag that it names. -/
theorem unreadyCommandsRaiseNotReady : Obligations.UnreadyCommandsRaiseNotReady := by
  intro s hidle row hrow hunready
  fin_cases hrow <;> exact exec_unready hidle rfl (List.cons_ne_nil _ _) hunready

/-- Settles O11: a write to CMD and a command's exec are both a dispatch, which a busy block drops. -/
theorem commandsWhileBusyAreDropped : Obligations.CommandsWhileBusyAreDropped := by
  intro s hbusy
  refine ⟨fun v => writeGives_of_busWrite rfl fun rest => ?_, fun i hi => ?_⟩
  · exact State.dispatch_busy (s := { s with turns := rest, resetLine := false }) hbusy (v.setWidth 8)
  · obtain ⟨op, hop⟩ := Option.ne_none_iff_exists'.mp hi
    rw [exec_of_opcode hop, State.dispatch_busy hbusy]

/-! ### The end of an engine -/

/-- R100: the phase that follows the end of an engine with a successor. -/
theorem State.finish_next_phase {s : State} {p : Phase}
    (h : (engines s.activeCmd)[s.seq.toNat + 1]?.map Engine.first = some p) :
    s.finish = { s with seq := s.seq + 1#3, phase := p } := by
  obtain ⟨e, he, rfl⟩ := Option.map_eq_some_iff.mp h
  exact State.finish_next he

/-- R149: the commands below COMPRESS have one engine each. -/
theorem engines_length_of_single {op : BitVec 8} (h : op ≤ 0x08#8) : (engines op).length = 1 := by
  replace h : op.toNat ≤ 8 := h
  unfold engines
  interval_cases op.toNat <;> rfl

/-- Settles O12: the place after SEQ in the engine list holds the next engine, or the list ends there. -/
theorem finishFollowsTheEngineList : Obligations.FinishFollowsTheEngineList := by
  intro s
  constructor
  · intro row hrow hcmd hseq
    refine State.finish_next_phase ?_
    rw [hcmd, hseq]
    fin_cases hrow <;> rfl
  · rintro (hsingle | ⟨hcmd, hseq⟩ | ⟨hcmd, hseq⟩) <;> refine State.finish_last ?_
    · exact List.getElem?_eq_none (by rw [engines_length_of_single hsingle]; omega)
    · rw [hcmd, hseq]; rfl
    · rw [hcmd, hseq]; rfl

/-- Settles O13: the dispatch starts NOP_RUN, and the one step of NOP_RUN is the end of NOP's only engine. -/
theorem nopCompletes : Obligations.NopCompletes := by
  intro s hquiet
  obtain ⟨hquiet, hidle⟩ : s.quiet = true ∧ s.busy = false := by simpa [State.quietIdle] using hquiet
  refine ⟨_, exec_started hidle rfl rfl rfl, rfl, Runs.after (Runs.single ?_) hquiet⟩
  exact State.finish_last (s := { s.beginDispatch 0x00#8 with seq := 0#3, phase := .nopRun }) rfl

end Sys2Proof.Machine
end

section
/-! What a running engine needs (R97, R149 to R151): dispatch checks it for the first engine of a command, and each engine of a
composite command hands it on to the next. -/

namespace Sys2Proof.Machine

/-! ### The preconditions, engine by engine -/

/-- R97, R149: what an engine needs while it runs; HDR_WRITE in a COMPRESS keeps the codes for ENCODE. -/
def State.ReadyFor (s : State) : Engine → Prop
  | .codeGen => s.treeValid = true
  | .hdrWrite => s.treeValid = true ∧ (s.activeCmd = 0x09#8 → s.codesValid = true)
  | .encode => s.codesValid = true
  | .decode => s.treeValid = true
  | _ => True

theorem State.preconditionsOk_iff {s : State} : s.preconditionsOk = true ↔
    (s.codesValid = true → s.treeValid = true) ∧ ∀ e, s.phase.engine = some e → s.ReadyFor e := by
  unfold State.preconditionsOk
  rw [Bool.and_eq_true]
  refine and_congr (by cases s.codesValid <;> simp) ?_
  cases s.phase.engine with
  | none => simp
  | some e =>
    simp only [Option.some.injEq, forall_eq']
    cases e <;> simp [State.ReadyFor, imp_iff_not_or]

theorem State.ReadyFor.congr {s t : State} {e : Engine} (h : s.ReadyFor e) (hcmd : t.activeCmd = s.activeCmd)
    (hsame : SameValidity s t) : t.ReadyFor e := by
  unfold State.ReadyFor at h ⊢
  rwa [hcmd, hsame.treeValid, hsame.codesValid]

/-- R30: outside an engine only the codes' tree is asked for. -/
theorem State.preconditionsOk_of_idle {s : State} (hidle : s.phase = .idle) (hcodes : s.codesValid = true → s.treeValid = true) :
    s.preconditionsOk = true :=
  State.preconditionsOk_iff.mpr ⟨hcodes, fun e he => by rw [hidle] at he; cases he⟩

/-! ### Dispatch -/

/-- R97: the dispatch precondition is what the command's first engine needs. -/
theorem State.readyFor_of_needs {s : State} {op : BitVec 8} {e : Engine} {es : List Engine} (hengines : engines op = e :: es)
    (hneeds : s.needs op = true) (hcmd : s.activeCmd = op) : s.ReadyFor e := by
  subst hcmd
  unfold engines at hengines
  split at hengines <;> cases hengines
  case h_5 hop => simpa [State.needs, State.ReadyFor, hop] using hneeds
  case h_6 hop => exact ⟨by simpa [State.needs, hop] using hneeds, fun hcompress => by rw [hcompress] at hop; cases hop⟩
  case h_7 hop => simpa [State.needs, State.ReadyFor, hop] using hneeds
  case h_9 hop => simpa [State.needs, State.ReadyFor, hop] using hneeds
  all_goals trivial

theorem State.preconditionsOk_dispatch {s : State} (h : s.preconditionsOk = true) (op : BitVec 8) :
    (s.dispatch op).preconditionsOk = true := by
  obtain ⟨hcodes, -⟩ := State.preconditionsOk_iff.mp h
  obtain ⟨-, hd⟩ | ⟨-, -, hd⟩ | ⟨-, -, -, hd⟩ | ⟨-, hneeds, e, es, hengines, hd⟩ := s.dispatch_cases op <;> rw [hd]
  · exact h
  · exact State.preconditionsOk_of_idle rfl hcodes
  · exact State.preconditionsOk_of_idle rfl hcodes
  · refine State.preconditionsOk_iff.mpr ⟨hcodes, fun e' he' => ?_⟩
    obtain rfl : e = e' := Option.some.inj (e.first_engine.symm.trans he')
    exact State.readyFor_of_needs hengines hneeds rfl

/-! ### From engine to engine -/

/-- R149: the second engine follows the first in the list of the command. -/
inductive Successive (op : BitVec 8) : Engine → Engine → Prop where
  | build (hop : op = 0x09#8) : Successive op .freqAccum .treeBuild
  | codes (hop : op = 0x09#8) : Successive op .treeBuild .codeGen
  | header (hop : op = 0x09#8) : Successive op .codeGen .hdrWrite
  | body (hop : op = 0x09#8) : Successive op .hdrWrite .encode
  | decode (hop : op = 0x0A#8) : Successive op .hdrRead .decode

theorem successive_of_getElem? {op : BitVec 8} {k : Nat} {e e' : Engine} :
    (engines op)[k]? = some e → (engines op)[k + 1]? = some e' → Successive op e e' := by
  unfold engines
  split <;> intro h h'
  case h_10 hop =>
    have hop : op = 0x09#8 := BitVec.eq_of_toNat_eq hop
    obtain _ | _ | _ | _ | _ | k := k <;> cases h <;> cases h'
    · exact .build hop
    · exact .codes hop
    · exact .header hop
    · exact .body hop
  case h_11 hop =>
    obtain _ | _ | k := k <;> cases h <;> cases h'
    exact .decode (BitVec.eq_of_toNat_eq hop)
  all_goals cases h'

/-- R117: a TREE_BUILD that does not fail leaves a valid tree. -/
theorem tbBuild_treeValid {s : State} (h : (tbBuild s).phase ≠ .idle) : (tbBuild s).treeValid = true := by
  unfold tbBuild at h ⊢
  dsimp only at h ⊢
  split at h
  · exact absurd rfl h
  · rw [if_neg ‹_›, State.finish_treeValid]

/-- R133: HDR_READ hands over from HR_BIT only, with no position pending, and then the tree is valid. -/
theorem hdrRead_treeValid {s : State} (he : s.phase.engine = some .hdrRead) (hnext : (phaseStep s).phase = .deStart) :
    (phaseStep s).treeValid = true := by
  unfold phaseStep at hnext ⊢
  cases hp : s.phase <;> rw [hp] at he <;> cases he <;> simp only [hp] at hnext ⊢
  case hrMagic =>
    unfold hrMagic at hnext
    dsimp only at hnext
    split at hnext
    · cases hnext
    · split at hnext <;> cases hnext
  case hrBit =>
    unfold hrBit at hnext ⊢
    split at hnext
    · simp
    · split at hnext
      · cases hnext
      · split at hnext
        · cases hnext
        · split at hnext <;> cases hnext
  case hrSym =>
    unfold hrSym at hnext
    split at hnext <;> cases hnext

theorem Phase.engine_eq_treeBuild {p : Phase} : p.engine = some .treeBuild ↔ p = .tbBuild := by
  cases p <;> simp [Phase.engine]

theorem Phase.engine_eq_codeGen {p : Phase} : p.engine = some .codeGen ↔ p = .cgGen := by
  cases p <;> simp [Phase.engine]

/-- R125 to R127: HDR_WRITE leaves the validity flags as they are. -/
theorem hdrWrite_validity {s : State} (he : s.phase.engine = some .hdrWrite) : SameValidity s (phaseStep s) := by
  have hcleared : ∀ p ∈ [Phase.fcClear, .faInit, .tbBuild, .hrMagic], p.engine ≠ some .hdrWrite := by decide
  cases phaseStep_validity s with
  | same hsame => exact hsame
  | cleared hphase => exact absurd he (hcleared _ hphase)
  | built hphase => rw [hphase] at he; cases he
  | parsed hphase => rw [hphase] at he; cases he
  | coded hphase => rw [hphase] at he; cases he

/-- R149: an engine of a composite command establishes what its successor needs. -/
theorem phaseStep_readyFor_next {s : State} {e e' : Engine} (hsucc : Successive s.activeCmd e e') (he : s.phase.engine = some e)
    (hnext : (phaseStep s).phase = e'.first) (hready : s.ReadyFor e) : (phaseStep s).ReadyFor e' := by
  cases hsucc with
  | build => trivial
  | codes =>
    have hstep : phaseStep s = tbBuild s := by simp only [phaseStep, Phase.engine_eq_treeBuild.mp he]
    rw [hstep] at hnext ⊢
    exact tbBuild_treeValid (by rw [hnext]; decide)
  | header =>
    have hstep : phaseStep s = cgGen s := by simp only [phaseStep, Phase.engine_eq_codeGen.mp he]
    rw [hstep, cgGen]
    exact ⟨(State.finish_treeValid _).trans hready, fun _ => State.finish_codesValid _⟩
  | body hop => exact (hdrWrite_validity he).codesValid.trans (hready.2 hop)
  | decode => exact hdrRead_treeValid he hnext

/-! ### Every step -/

/-- R100, R149: the engine that runs after a core step is the one that ran, or its successor in the command's list. -/
theorem CoreMove.engine {s t : State} {e e' : Engine} (hmove : CoreMove s t) (he : s.phase.engine = some e)
    (hlist : (engines s.activeCmd)[s.seq.toNat]? = some e) (he' : t.phase.engine = some e') :
    e' = e ∨ (Successive s.activeCmd e e' ∧ t.phase = e'.first) := by
  cases hmove with
  | stay hp hengine =>
    rw [hengine, ← hp, he] at he'
    exact .inl (Option.some.inj he').symm
  | @finish u hsame =>
    obtain ⟨e'', hnext, hfin⟩ | ⟨-, hfin⟩ := u.finish_cases <;> rw [hfin] at he' ⊢
    · obtain rfl : e'' = e' := Option.some.inj (e''.first_engine.symm.trans he')
      rw [hsame.activeCmd, hsame.seq] at hnext
      exact .inr ⟨successive_of_getElem? hlist hnext, rfl⟩
    · cases he'
  | raise => cases he'

/-- R97: what an engine needs stays through its own steps. -/
theorem ValidityMove.readyFor {s t : State} {e : Engine} (hmove : ValidityMove s t) (hcmd : t.activeCmd = s.activeCmd)
    (he : s.phase.engine = some e) (hready : s.ReadyFor e) : t.ReadyFor e := by
  cases hmove with
  | same hsame => exact hready.congr hcmd hsame
  | cleared hphase =>
    generalize s.phase = p at hphase he
    fin_cases hphase <;> cases he <;> trivial
  | built hphase => rw [hphase] at he; cases he; trivial
  | parsed hphase => rw [hphase] at he; cases he; trivial
  | coded hphase hsame => rw [hphase] at he; cases he; exact hsame.treeValid.trans hready

/-- R30: a core step sets CODES_VALID for a valid tree only, and clears it with the tree. -/
theorem ValidityMove.codes_have_tree {s t : State} (hmove : ValidityMove s t) (hcodes : s.codesValid = true → s.treeValid = true)
    (hready : s.phase.engine = some .codeGen → s.treeValid = true) : t.codesValid = true → t.treeValid = true := by
  intro h
  cases hmove with
  | same hsame => exact hsame.treeValid.trans (hcodes (hsame.codesValid.symm.trans h))
  | cleared _ hsame => cases hsame.codesValid.symm.trans h
  | built _ hsame => exact hsame.treeValid
  | parsed _ hsame => exact hsame.treeValid
  | coded hphase hsame => exact hsame.treeValid.trans (hready (Phase.engine_eq_codeGen.mpr hphase))

theorem phaseStep_preconditionsOk {s : State} (hbusy : s.busy = true) (hseq : s.sequencerOk = true)
    (hpre : s.preconditionsOk = true) : (phaseStep s).preconditionsOk = true := by
  obtain ⟨hcodes, hready⟩ := State.preconditionsOk_iff.mp hpre
  have hphase : s.phase ≠ .idle := of_decide_eq_true hbusy
  obtain ⟨e, he⟩ := Option.ne_none_iff_exists'.mp (mt Phase.engine_eq_none.mp hphase)
  have hlist := ((State.sequencerOk_iff.mp hseq).2.resolve_left hphase).trans he
  have hvalidity := phaseStep_validity s
  refine State.preconditionsOk_iff.mpr ⟨hvalidity.codes_have_tree hcodes (hready _), fun e' he' => ?_⟩
  obtain rfl | ⟨hsucc, hnext⟩ := (phaseStep_move s).engine he hlist he'
  · exact hvalidity.readyFor (phaseStep_outside s).activeCmd he (hready e' he)
  · exact phaseStep_readyFor_next hsucc he hnext (hready e he)

/-- Settles O49, by cases on what the step did: dispatch checks the first engine's precondition, and a core step keeps the running
engine's or establishes its successor's. -/
theorem stepKeepsEnginePreconditions : Obligations.StepKeepsEnginePreconditions := by
  intro s t hseq hpre hstep
  cases stepEvent_of_step hstep with
  | outside => exact hpre
  | reset => exact State.preconditionsOk_of_idle rfl fun h => by cases h
  | @command _ v rest => exact State.preconditionsOk_dispatch (s := { s with turns := rest }) hpre (v.setWidth 8)
  | acknowledge => exact hpre
  | frequency _ hidle =>
    refine State.preconditionsOk_of_idle ?_ fun h => by cases h
    simpa [State.busy] using hidle
  | core turns hbusy => exact phaseStep_preconditionsOk (s := { s with turns := turns }) hbusy hseq hpre

end Sys2Proof.Machine
end

section
/-! The frequency accumulator (R102 to R107): its two phases, the counts while it runs, and FREQ_CLEAR and FREQ_ACCUM from dispatch to
completion. -/

namespace Sys2Proof.Machine

/-! ### The phases -/

/-- R105: the table after a byte is counted, at every index. -/
theorem freqAt_countByte_index {s : State} (h : s.memoryOk = true) (r : Byte) (k : Nat) :
    (countByte s r).freqAt k = if k = r.toNat then s.freqAt k + 1#32 else s.freqAt k := by
  refine (State.freqAt_setFreq h r.toNat _ k).trans ?_
  by_cases hk : k = r.toNat
  · subst hk
    rw [if_pos ⟨rfl, r.isLt⟩, if_pos rfl]
  · rw [if_neg fun e => hk e.1, if_neg hk]

theorem faRead_eof {s : State} (h : s.peek 8 = none) : faRead s = s.finish := by
  simp only [faRead, h]

theorem faRead_overflow {s : State} {r : Byte} (h : s.peek 8 = some r) (htotal : s.total = Config.totalMax) :
    faRead s = (s.advance 8).raise .freqOverflow (r.setWidth 32) false false := by
  simp only [faRead, h]
  exact if_pos htotal

theorem faRead_counts {s : State} {r : Byte} (h : s.peek 8 = some r) (htotal : s.total ≠ Config.totalMax) :
    faRead s = (countByte (s.advance 8) r).goto .faRead := by
  simp only [faRead, h]
  exact if_neg htotal

/-- R102, R104: the cleared table. -/
theorem State.freqAt_clearTable (s : State) {k : Nat} (hk : k < 256) : s.clearTable.freqAt k = 0#32 := by
  rw [State.freqAt, if_pos hk]
  rfl

/-- R155: the cause table's row for FREQ_OVERFLOW. -/
theorem errcodeWord_freqOverflow : errcodeWord false false Phase.faRead.code Cause.freqOverflow.code = 0x00001203#32 := by decide

/-- Settles O41, by the three answers of FA_READ: EOF, a byte past the bound of TOTAL, a byte to count. -/
theorem frequencyPhases : Obligations.FrequencyPhases := by
  intro s hquiet hmem
  refine ⟨fun hp => ?_, fun hp heof => ?_, fun hp hlen r hbits => ?_⟩ <;> rw [step_quiet hquiet] <;> simp only [phaseStep, hp]
  · exact ⟨_, rfl, fun k hk => s.freqAt_clearTable hk, rfl⟩
  · rw [faRead_eof (State.peek_eq_none.mpr heof)]
  have hpeek : s.peek 8 = some r := State.peek_eq_some.mpr ⟨hlen, hbits⟩
  refine ⟨fun htotal => ?_, fun htotal => ⟨_, rfl, fun k => ?_, ?_⟩⟩
  · rw [faRead_overflow hpeek htotal, State.raise, State.takeError, State.advance_phase, hp, errcodeWord_freqOverflow]
    rfl
  · rw [faRead_counts hpeek htotal]
    exact freqAt_countByte_index (s := s.advance 8) hmem r k
  · rw [faRead_counts hpeek htotal, countByte_eq, ← hp]
    rfl

/-! ### The counts while FREQ_ACCUM runs (R106) -/

theorem State.countsOk_iff {s : State} : s.countsOk = true ↔
    (s.phase = .faRead → s.freqSum 256 = s.total.toNat ∧ s.total.toNat ≤ 2 ^ 32 - 2) := by
  simp [State.countsOk, imp_iff_not_or]

theorem State.countsOk_of_phase_ne {s : State} (h : s.phase ≠ .faRead) : s.countsOk = true :=
  State.countsOk_iff.mpr fun hp => absurd hp h

theorem Engine.first_ne_faRead (e : Engine) : e.first ≠ .faRead := by cases e <;> decide

/-- R99, R104: FA_READ is no engine's first phase, so no engine's end leads there. -/
theorem State.finish_phase_ne_faRead (s : State) : s.finish.phase ≠ .faRead := by
  obtain ⟨e, -, hfin⟩ | ⟨-, hfin⟩ := s.finish_cases <;> rw [hfin]
  · exact e.first_ne_faRead
  · exact Phase.noConfusion

theorem Phase.engine_eq_freqAccum {p : Phase} : p.engine = some .freqAccum ↔ p = .faInit ∨ p = .faRead := by
  cases p <;> simp [Phase.engine]

/-- R104, R105: a core step leads to FA_READ from FREQ_ACCUM's own phases only. -/
theorem CoreMove.of_faRead {s t : State} (hmove : CoreMove s t) (ht : t.phase = .faRead) : s.phase = .faInit ∨ s.phase = .faRead := by
  cases hmove with
  | stay hp hengine =>
    rw [ht, ← hp] at hengine
    exact Phase.engine_eq_freqAccum.mp hengine.symm
  | @finish u => exact absurd ht u.finish_phase_ne_faRead
  | raise => cases ht

theorem State.freqSum_clearTable (s : State) : s.clearTable.freqSum 256 = 0 := by
  rw [State.freqSum_eq_sum]
  exact Finset.sum_eq_zero fun i hi => by rw [s.freqAt_clearTable (Finset.mem_range.mp hi)]; rfl

/-- R106: no entry exceeds the sum of the table. -/
theorem State.freqAt_le_freqSum (s : State) {i k : Nat} (h : i < k) : (s.freqAt i).toNat ≤ s.freqSum k := by
  rw [State.freqSum_eq_sum]
  exact Finset.single_le_sum (f := fun i => (s.freqAt i).toNat) (fun _ _ => Nat.zero_le _) (Finset.mem_range.mpr h)

/-- R106: a counted byte adds one to the sum, while the sum fits an entry. -/
theorem freqSum_countByte {s : State} (hmem : s.memoryOk = true) (hsum : s.freqSum 256 < 2 ^ 32 - 1) (r : Byte) :
    (countByte s r).freqSum 256 = s.freqSum 256 + 1 := by
  have hentry : ∀ i ∈ Finset.range 256,
      ((countByte s r).freqAt i).toNat = (s.freqAt i).toNat + if i = r.toNat then 1 else 0 := fun i hi => by
    have hle := s.freqAt_le_freqSum (Finset.mem_range.mp hi)
    rw [freqAt_countByte_index hmem]
    split
    · rw [BitVec.toNat_add, BitVec.toNat_ofNat]
      omega
    · rfl
  rw [State.freqSum_eq_sum, Finset.sum_congr rfl hentry, Finset.sum_add_distrib, Finset.sum_ite_eq',
    if_pos (Finset.mem_range.mpr r.isLt), State.freqSum_eq_sum]

theorem faRead_countsOk {s : State} (hmem : s.memoryOk = true) (hsum : s.freqSum 256 = s.total.toNat)
    (hmax : s.total.toNat ≤ 2 ^ 32 - 2) : (faRead s).countsOk = true := by
  cases hpeek : s.peek 8 with
  | none =>
    rw [faRead_eof hpeek]
    exact State.countsOk_of_phase_ne s.finish_phase_ne_faRead
  | some r =>
    by_cases htotal : s.total = Config.totalMax
    · rw [faRead_overflow hpeek htotal]
      exact State.countsOk_of_phase_ne Phase.noConfusion
    have hlt : s.total.toNat < 2 ^ 32 - 2 := lt_of_le_of_ne hmax fun e => htotal (BitVec.eq_of_toNat_eq e)
    have hnext : (s.total + 1#32).toNat = s.total.toNat + 1 := by
      rw [BitVec.toNat_add, BitVec.toNat_ofNat]
      omega
    have hcount : (countByte (s.advance 8) r).freqSum 256 = s.freqSum 256 + 1 :=
      freqSum_countByte (s := s.advance 8) hmem (hsum.trans_lt (by omega)) r
    rw [faRead_counts hpeek htotal]
    refine State.countsOk_iff.mpr fun _ => ?_
    change (countByte (s.advance 8) r).freqSum 256 = (s.total + 1#32).toNat ∧ (s.total + 1#32).toNat ≤ 2 ^ 32 - 2
    rw [hcount, hnext, hsum]
    exact ⟨rfl, hlt⟩

theorem phaseStep_countsOk {s : State} (hmem : s.memoryOk = true) (hcounts : s.countsOk = true) :
    (phaseStep s).countsOk = true := by
  by_cases ht : (phaseStep s).phase = .faRead
  · obtain hp | hp := (phaseStep_move s).of_faRead ht <;> simp only [phaseStep, hp]
    · exact State.countsOk_iff.mpr fun _ => ⟨s.freqSum_clearTable, Nat.zero_le _⟩
    · obtain ⟨hsum, hmax⟩ := State.countsOk_iff.mp hcounts hp
      exact faRead_countsOk hmem hsum hmax
  · exact State.countsOk_of_phase_ne ht

theorem State.countsOk_dispatch {s : State} (h : s.countsOk = true) (op : BitVec 8) : (s.dispatch op).countsOk = true := by
  obtain ⟨-, hd⟩ | ⟨-, -, hd⟩ | ⟨-, -, -, hd⟩ | ⟨-, -, e, es, -, hd⟩ := s.dispatch_cases op <;> rw [hd]
  · exact h
  · exact State.countsOk_of_phase_ne Phase.noConfusion
  · exact State.countsOk_of_phase_ne Phase.noConfusion
  · exact State.countsOk_of_phase_ne e.first_ne_faRead

/-- Settles O51, by cases on what the step did: only the core's FA_INIT and FA_READ lead to FA_READ, the one with an empty table, the
other with one more byte in the table and in TOTAL. -/
theorem stepKeepsCountsExact : Obligations.StepKeepsCountsExact := by
  intro s t hmem hcounts hstep
  cases stepEvent_of_step hstep with
  | outside => exact hcounts
  | reset => exact State.countsOk_of_phase_ne Phase.noConfusion
  | @command _ v rest => exact State.countsOk_dispatch (s := { s with turns := rest }) hcounts (v.setWidth 8)
  | acknowledge => exact hcounts
  | frequency _ hidle =>
    have hp : s.phase = .idle := by simpa [State.busy] using hidle
    exact State.countsOk_of_phase_ne (by simp [hp])
  | core turns => exact phaseStep_countsOk (s := { s with turns := turns }) hmem hcounts

/-! ### The commands -/

/-- Settles O14: the dispatch starts FC_CLEAR, whose one step clears the table and ends the command's only engine. -/
theorem freqClearCompletes : Obligations.FreqClearCompletes := by
  intro s hquiet
  obtain ⟨hquiet, hidle⟩ : s.quiet = true ∧ s.busy = false := by simpa [State.quietIdle] using hquiet
  obtain ⟨t, ht⟩ : ∃ t, t = { s.beginDispatch 0x01#8 with seq := 0#3, phase := .fcClear } := ⟨_, rfl⟩
  have hfinish : t.clearTable.finish = { t.clearTable with phase := .idle, done := true } :=
    State.finish_last (by rw [ht]; rfl)
  refine ⟨t, t.clearTable.finish, ?_, Runs.after (Runs.single ?_) ?_, fun k hk => ?_, rfl, ?_⟩
  · exact (exec_started hidle rfl rfl rfl).trans (congrArg _ ht.symm)
  · rw [ht]; rfl
  · rw [ht]; exact hquiet
  · rw [hfinish]
    exact t.freqAt_clearTable hk
  · rw [hfinish, ht]
    rfl

/-- R105: what the counted bytes leave in the table depends on the table alone. -/
theorem State.countBytes_freq_congr {s t : State} (h : t.freq = s.freq) (xs : List Byte) :
    (t.countBytes xs).freq = (s.countBytes xs).freq := by
  induction xs generalizing s t with
  | nil => exact h
  | cons r rs ih => exact ih (by simp [countByte, State.freqAt, h])

/-- R107: a cleared table counts the bytes from 0, whatever the other memories hold. -/
theorem State.freqAt_countBytes_of_empty {s : State} (h : s.freq = []) (xs : List Byte) (b : Byte) :
    (s.countBytes xs).freqAt b.toNat = BitVec.ofNat 32 (xs.count b) := by
  have hcount := State.freqAt_countBytes State.memoryOk_reset xs b
  have hzero : State.reset.freqAt b.toNat = 0#32 := State.reset.freqAt_clearTable b.isLt
  rw [hzero, BitVec.zero_add] at hcount
  rw [← hcount, State.freqAt, State.freqAt, State.countBytes_freq_congr (s := State.reset) h]

/-- Settles O15: the dispatch, FA_INIT, and FA_READ by induction on the bytes (`faRead_runs`), whose end is that of the command's only
engine. -/
theorem freqAccumCountsTheInput : Obligations.FreqAccumCountsTheInput := by
  intro s xs tail hquiet hinput htail hlen
  obtain ⟨hquiet, hidle⟩ : s.quiet = true ∧ s.busy = false := by simpa [State.quietIdle] using hquiet
  obtain ⟨t, ht⟩ : ∃ t, t = { s.beginDispatch 0x02#8 with seq := 0#3, phase := .faInit } := ⟨_, rfl⟩
  obtain ⟨t', ht'⟩ : ∃ t', t' = t.clearTable.goto .faRead := ⟨_, rfl⟩
  have hinit : phaseStep t = t' := by rw [ht', ht]; rfl
  have hread : Runs (xs.length + 1) t' (t'.countBytes xs).finish :=
    faRead_runs htail (by rw [ht']; rfl) (by rw [ht', ht]; exact hinput) (by rw [ht']; simpa using hlen)
  have hfinish : (t'.countBytes xs).finish = { t'.countBytes xs with phase := .idle, done := true } :=
    State.finish_last (by rw [State.countBytes_eq, ht', ht]; rfl)
  refine ⟨t, _, ?_, (Runs.head hinit hread).after (by rw [ht]; exact hquiet), fun b => ?_, rfl, ?_⟩
  · exact (exec_started hidle rfl rfl rfl).trans (congrArg _ ht.symm)
  · rw [hfinish]
    exact State.freqAt_countBytes_of_empty (by rw [ht']; rfl) xs b
  · rw [hfinish, State.countBytes_eq]
    generalize (t'.countBytes xs).freq = freq
    rw [ht', ht]
    simp [State.beginDispatch, State.completed, State.advance, State.goto, State.clearTable, State.invalidate]

end Sys2Proof.Machine
end

section
/-! TREE_BUILD builds the Huffman tree of the table (R111 to R117): every pass merges the two least live pairs, and the weights of the
live nodes always add up to the sum of the table, so that a sum beyond 32 bits overflows at some pass. -/

namespace Sys2Proof.Machine

/-! ### One pass: the two least live nodes (R113, R114) -/

/-- No two indices have the same pair, so the lesser of two pairs is strictly before the other. -/
theorem before_of_pairOf_le {m : Memory Node} {i j : Nat} (h : pairOf m i ≤ pairOf m j) (hne : i ≠ j) : before m i j = true :=
  before_iff.mpr (h.lt_of_ne fun e => hne (congrArg (fun p => (ofLex p).2) e))

theorem weightAt_congr {m m' : Memory Node} {i : Nat} (h : Memory.read Node.zero m' i = Memory.read Node.zero m i) :
    weightAt m' i = weightAt m i := congrArg (fun x => x.weight.toNat) h

theorem before_congr {m m' : Memory Node} {i j : Nat} (hi : Memory.read Node.zero m' i = Memory.read Node.zero m i)
    (hj : Memory.read Node.zero m' j = Memory.read Node.zero m j) : before m' i j = before m i j := by
  rw [Bool.eq_iff_iff, before_iff, before_iff, pairOf, pairOf, weightAt_congr hi, weightAt_congr hj, pairOf, pairOf]

/-- R111: the store after the merge of `a` and `b` at index `k`. -/
def mergeAt (m : Memory Node) (k a b : Nat) : Memory Node :=
  Memory.write Node.zero m k (mergedNode (weightAt m a + weightAt m b) a b)

section
variable {m : Memory Node} {q : List Nat} {k a b : Nat}

theorem Forest.next_le (h : Forest m q k) : k ≤ 1024 := by
  have hroom := h.room
  rw [Config.maxNodes] at hroom
  omega

theorem Forest.read_mergeAt_self (h : Forest m q k) :
    Memory.read Node.zero (mergeAt m k a b) k = mergedNode (weightAt m a + weightAt m b) a b := by
  rw [mergeAt, Memory.read_write_wf h.wf, if_pos rfl]

theorem Forest.read_mergeAt_below (h : Forest m q k) {i : Nat} (hi : i < k) :
    Memory.read Node.zero (mergeAt m k a b) i = Memory.read Node.zero m i := by
  rw [mergeAt, Memory.read_write_wf h.wf, if_neg hi.ne]

end

/-- R113, R114: `a` and `b` have the two least pairs of the live set `q`, in this order, and `rest` stays live. -/
structure TwoLeast (m : Memory Node) (q : List Nat) (a b : Nat) (rest : List Nat) : Prop where
  perm : q.Perm (a :: b :: rest)
  first : pairOf m a ≤ pairOf m b
  second : ∀ j ∈ rest, pairOf m b ≤ pairOf m j

/-- R111: the two nodes that one pass of the merge loop removes are the two least. -/
theorem mergeLoop_succ_twoLeast (fuel : Nat) (m : Memory Node) {q : List Nat} (k : Nat) (h : 2 ≤ q.length) :
    ∃ a b rest, TwoLeast m q a b rest ∧ mergeLoop (fuel + 1) m q k =
      if Config.weightMax < weightAt m a + weightAt m b then ⟨m, k, true⟩
      else mergeLoop fuel (mergeAt m k a b) (rest ++ [k]) (k + 1) := by
  match q, h with
  | i :: j :: q, _ =>
    have hperm := List.perm_cons_erase (qmin_mem m i (j :: q))
    rw [mergeLoop]
    dsimp only
    cases he : (i :: j :: q).erase (qmin m i (j :: q)) with
    | nil => simpa [he] using hperm.length_eq
    | cons i' q' =>
      have hsub : i' :: q' ⊆ i :: j :: q := he ▸ List.erase_subset
      have hb := qmin_mem m i' q'
      rw [he] at hperm
      exact ⟨_, _, _, ⟨hperm.trans ((List.perm_cons_erase hb).cons _), pairOf_qmin_le m i (j :: q) _ (hsub hb),
        fun x hx => pairOf_qmin_le m i' q' x (List.mem_of_mem_erase hx)⟩, rfl⟩

/-! ### The whole loop -/

/-- R111: how the merge loop gets from the live set `q` and the next free index `k` to its result. -/
inductive MergeRun : Memory Node → List Nat → Nat → BuildResult → Prop
  | done {m : Memory Node} {k : Nat} (hforest : Forest m [k - 1] k) : MergeRun m [k - 1] k ⟨m, k, false⟩
  | overflow {m : Memory Node} {q rest : List Nat} {k a b : Nat} (hforest : Forest m q k) (hleast : TwoLeast m q a b rest)
      (hw : Config.weightMax < weightAt m a + weightAt m b) : MergeRun m q k ⟨m, k, true⟩
  | merge {m : Memory Node} {q rest : List Nat} {k a b : Nat} {r : BuildResult} (hforest : Forest m q k)
      (hleast : TwoLeast m q a b rest) (hw : weightAt m a + weightAt m b ≤ Config.weightMax)
      (hrest : MergeRun (mergeAt m k a b) (rest ++ [k]) (k + 1) r) : MergeRun m q k r

/-- R116: with a pass for every live node the loop runs to its end. -/
theorem Forest.mergeRun {fuel : Nat} {m : Memory Node} {q : List Nat} {k : Nat} (h : Forest m q k) (hfuel : q.length ≤ fuel) :
    MergeRun m q k (Machine.mergeLoop fuel m q k) := by
  induction fuel generalizing m q k with
  | zero => exact absurd (List.length_pos_of_mem h.newest) (by omega)
  | succ fuel ih =>
    by_cases hq : q.length ≤ 1
    · obtain ⟨x, rfl⟩ := List.length_eq_one_iff.mp (le_antisymm hq (List.length_pos_of_mem h.newest))
      obtain rfl : k - 1 = x := List.mem_singleton.mp h.newest
      exact .done h
    · obtain ⟨a, b, rest, hleast, hloop⟩ := mergeLoop_succ_twoLeast fuel m k (show 2 ≤ q.length by omega)
      rw [hloop]
      split
      · exact .overflow h hleast ‹_›
      · refine .merge h hleast (Nat.le_of_not_lt ‹_›) (ih (h.merge hleast.perm _) ?_)
        have hlen := hleast.perm.length_eq
        simp only [List.length_append, List.length_cons, List.length_nil] at hlen ⊢
        omega

section
variable {m : Memory Node} {q : List Nat} {k : Nat} {r : BuildResult}

/-- R111: no later merge touches an entry made earlier. -/
theorem MergeRun.entries_kept (h : MergeRun m q k r) : ∀ i < k, Memory.read Node.zero r.node i = Memory.read Node.zero m i := by
  induction h with
  | done => exact fun _ _ => rfl
  | overflow => exact fun _ _ => rfl
  | merge hforest _ _ _ ih => exact fun i hi => (ih i (by omega)).trans (hforest.read_mergeAt_below hi)

/-- R116: a loop that ends has made a node for every live node but one; R115: one that overflows stops at a merge that was due. -/
theorem MergeRun.next_bounds (h : MergeRun m q k r) :
    k ≤ r.next ∧ (r.overflow = false → r.next + 1 = k + q.length) ∧ (r.overflow = true → r.next + 1 < k + q.length) := by
  induction h with
  | done => simp
  | overflow _ hleast => simp [hleast.perm.length_eq]
  | merge _ hleast _ _ ih =>
    have hlen := hleast.perm.length_eq
    obtain ⟨hk, hdone, hover⟩ := ih
    simp only [List.length_append, List.length_cons, List.length_nil] at hlen hdone hover
    exact ⟨by omega, fun h => by have := hdone h; omega, fun h => by have := hover h; omega⟩

/-- R115, R117: a merge that does not overflow keeps the sum of the live weights. -/
theorem Forest.sum_weights_merge {a b : Nat} {rest : List Nat} (h : Forest m q k) (hq : q.Perm (a :: b :: rest))
    (hw : weightAt m a + weightAt m b ≤ Config.weightMax) :
    ((rest ++ [k]).map (weightAt (mergeAt m k a b))).sum = (q.map (weightAt m)).sum := by
  have hrest : ∀ i ∈ rest, weightAt (mergeAt m k a b) i = weightAt m i :=
    fun i hi => weightAt_congr (h.read_mergeAt_below (h.live_lt (hq.mem_iff.mpr (by simp [hi]))))
  have hnew : weightAt (mergeAt m k a b) k = weightAt m a + weightAt m b := by
    rw [Config.weightMax] at hw
    rw [weightAt, h.read_mergeAt_self]
    exact Nat.mod_eq_of_lt (by omega)
  rw [(hq.map (weightAt m)).sum_eq, List.map_append, List.sum_append, List.map_congr_left hrest, List.map_singleton,
    List.sum_singleton, hnew, List.map_cons, List.map_cons, List.sum_cons, List.sum_cons]
  omega

/-- R117: the root has the sum of the weights that the loop started from. -/
theorem MergeRun.root_weight (h : MergeRun m q k r) (hover : r.overflow = false) :
    weightAt r.node (r.next - 1) = (q.map (weightAt m)).sum := by
  induction h with
  | done => simp
  | overflow => cases hover
  | merge hforest hleast hw _ ih => rw [ih hover, hforest.sum_weights_merge hleast.perm hw]

end

/-! ### Every entry made is a merge of the two least pairs -/

/-- R111, R113, R114: entry `k` is the merge of `a` and `b`, whose pairs were the two least of the entries below `k` that were no
entry's child then. -/
structure LeastMerge (m : Memory Node) (k a b : Nat) : Prop where
  entry : Memory.read Node.zero m k = mergedNode (weightAt m a + weightAt m b) a b
  fits : weightAt m a + weightAt m b ≤ Config.weightMax
  left_lt : a < k
  right_lt : b < k
  children : before m a b = true
  least : ∀ j < k, j ∉ (childSlots m k).map (Slot.child m) → j ≠ a → j ≠ b → before m b j = true

/-- The children of the entries below `k` stand in these entries. -/
theorem childrenBelow_congr {m m' : Memory Node} {k : Nat} (hk : k ≤ 1024)
    (h : ∀ i < k, Memory.read Node.zero m' i = Memory.read Node.zero m i) :
    (childSlots m' k).map (Slot.child m') = (childSlots m k).map (Slot.child m) := by
  rw [childSlots_congr (m := m) fun i hi => by rw [h i hi]]
  exact List.map_congr_left fun sl hsl => Slot.child_congr (h _ (childSlots_parent hk hsl).1)

/-- What entry `k` was merged from stands in the entries up to `k`. -/
theorem LeastMerge.congr {m m' : Memory Node} {k a b : Nat} (hk : k ≤ 1024)
    (h : ∀ i < k + 1, Memory.read Node.zero m' i = Memory.read Node.zero m i) (hm : LeastMerge m k a b) :
    LeastMerge m' k a b := by
  obtain ⟨hentry, hfits, ha, hb, hchildren, hleast⟩ := hm
  have hread : ∀ {i}, i < k → Memory.read Node.zero m' i = Memory.read Node.zero m i := fun hi => h _ (by omega)
  have hwa := weightAt_congr (hread ha)
  have hwb := weightAt_congr (hread hb)
  refine ⟨?_, ?_, ha, hb, ?_, fun j hj hfree hja hjb => ?_⟩
  · rw [hwa, hwb, h k (by omega), hentry]
  · rwa [hwa, hwb]
  · rwa [before_congr (hread ha) (hread hb)]
  · rw [before_congr (hread hb) (hread hj)]
    rw [childrenBelow_congr hk fun _ => hread] at hfree
    exact hleast j hj hfree hja hjb

/-- R111: the entry that a pass writes; the live nodes are those below it that are no child. -/
theorem Forest.leastMerge {m : Memory Node} {q rest : List Nat} {k a b : Nat} (h : Forest m q k) (hq : TwoLeast m q a b rest)
    (hw : weightAt m a + weightAt m b ≤ Config.weightMax) : LeastMerge (mergeAt m k a b) k a b := by
  have hlt : ∀ {i}, i ∈ a :: b :: rest → i < k := fun hi => h.live_lt (hq.perm.mem_iff.mpr hi)
  have ha : a < k := hlt (by simp)
  have hb : b < k := hlt (by simp)
  have hnodup : (a :: b :: rest).Nodup :=
    hq.perm.nodup_iff.mp (List.nodup_append'.mp (h.nodes.nodup_iff.mpr List.nodup_range)).2.1
  have hread : ∀ {i}, i < k → Memory.read Node.zero (mergeAt m k a b) i = Memory.read Node.zero m i := fun hi =>
    h.read_mergeAt_below hi
  have hwa := weightAt_congr (hread ha)
  have hwb := weightAt_congr (hread hb)
  refine ⟨by rw [hwa, hwb, h.read_mergeAt_self], by rwa [hwa, hwb], ha, hb, ?_, fun j hj hfree hja hjb => ?_⟩
  · rw [before_congr (hread ha) (hread hb)]
    exact before_of_pairOf_le hq.first (List.ne_of_not_mem_cons (List.nodup_cons.mp hnodup).1)
  · rw [childrenBelow_congr h.next_le fun _ => hread] at hfree
    have hlive : j ∈ q := (List.mem_append.mp (h.nodes.mem_iff.mpr (List.mem_range.mpr hj))).resolve_left hfree
    have hrest : j ∈ rest := by simpa [hja, hjb] using hq.perm.mem_iff.mp hlive
    rw [before_congr (hread hb) (hread hj)]
    exact before_of_pairOf_le (hq.second j hrest) (Ne.symm hjb)

/-- R111: every entry that the loop makes is a merge of the two least pairs then live. -/
theorem MergeRun.leastMerge {m : Memory Node} {q : List Nat} {k : Nat} {r : BuildResult} (h : MergeRun m q k r) :
    ∀ i, k ≤ i → i < r.next → ∃ a b, LeastMerge r.node i a b := by
  induction h with
  | done => exact fun i hk hi => absurd hk hi.not_ge
  | overflow => exact fun i hk hi => absurd hk hi.not_ge
  | @merge _ _ _ k a b _ hforest hleast hw hrun ih =>
    intro i hk hi
    obtain rfl | hk := hk.eq_or_lt
    · exact ⟨a, b, (hforest.leastMerge hleast hw).congr hforest.next_le hrun.entries_kept⟩
    · exact ih i hk hi

/-! ### What TREE_BUILD makes of a table -/

section
variable {s : State} (hmem : s.memoryOk = true)
include hmem

/-- R111: TREE_BUILD's run of the loop, from the leaves of the live symbols. -/
theorem State.buildTree_mergeRun :
    MergeRun (placeLeaves s.freqAt 0 s.liveSymbols s.node) (List.range s.liveSymbols.length) s.liveSymbols.length s.buildTree := by
  obtain ⟨⟨-, hwf⟩, -⟩ := State.memoryOk_iff.mp hmem
  obtain ⟨hpos, hlen⟩ := s.liveSymbols_length
  exact (forest_placeLeaves s.freqAt hwf hpos (by rw [Config.maxNodes]; omega)).mergeRun List.length_range.le

/-- R112: the leaves of the tree. -/
theorem State.buildTree_leaf (j : Nat) (hj : j < s.liveSymbols.length) :
    Memory.read Node.zero s.buildTree.node j = leafNode s.liveSymbols[j] (s.freqAt s.liveSymbols[j]) := by
  obtain ⟨⟨-, hwf⟩, -⟩ := State.memoryOk_iff.mp hmem
  have hlen : s.liveSymbols.length ≤ Config.maxNodes := s.liveSymbols_length.2.trans (by decide)
  obtain ⟨-, -, hleaf⟩ := placeLeaves_read s.freqAt (ks := s.liveSymbols) (i := 0) hwf (by omega)
  rw [(State.buildTree_mergeRun hmem).entries_kept j hj, ← hleaf j hj, Nat.zero_add]

/-- R117: the weight of the root is the sum of the counts. -/
theorem State.buildTree_root_weight (hover : s.buildTree.overflow = false) :
    weightAt s.buildTree.node (s.buildTree.next - 1) = s.freqSum 257 := by
  obtain ⟨⟨-, hwf⟩, -⟩ := State.memoryOk_iff.mp hmem
  rw [(State.buildTree_mergeRun hmem).root_weight hover,
    (grown_placeLeaves s.freqAt hwf (s.liveSymbols_length.2.trans (by decide))).weight, s.sum_liveSymbols]

/-- R115: no root holds a sum beyond 32 bits. -/
theorem State.buildTree_overflow (hsum : 2 ^ 32 - 1 < s.freqSum 257) : s.buildTree.overflow = true := by
  by_contra hover
  have hroot := State.buildTree_root_weight hmem (Bool.eq_false_iff.mpr hover)
  have hweight : weightAt s.buildTree.node (s.buildTree.next - 1) < 2 ^ 32 := BitVec.isLt _
  omega

end

/-- R113: an entry below a merge that no earlier merge has taken, and that is not one of the two taken, comes after both. -/
theorem LeastMerge.before_of_unlinked {m : Memory Node} {n a b : Nat} {k j : NodeIdx} (h : LeastMerge m k.toNat a b)
    (hleaves : ∀ i < n, (Memory.read Node.zero m i).leaf = true) (hj : j < k) (hja : j.toNat ≠ a) (hjb : j.toNat ≠ b)
    (hfree : ∀ i : NodeIdx, n ≤ i.toNat → i < k →
      (Memory.read Node.zero m i.toNat).left ≠ j ∧ (Memory.read Node.zero m i.toNat).right ≠ j) :
    before m b j.toNat = true := by
  refine h.least j.toNat hj (fun hchild => ?_) hja hjb
  obtain ⟨sl, hsl, hchild⟩ := List.mem_map.mp hchild
  obtain ⟨hparent, hinternal, hroot⟩ := childSlots_parent k.isLt.le hsl
  have hn : n ≤ sl.parent := Nat.le_of_not_lt fun hlt => by simp [hleaves _ hlt] at hinternal
  cases sl with
  | root => exact hroot rfl
  | left p => exact (hfree p hn hparent).1 (BitVec.eq_of_toNat_eq hchild)
  | right p => exact (hfree p hn hparent).2 (BitVec.eq_of_toNat_eq hchild)

/-- The fields of a merged entry; its weight does not wrap. -/
theorem LeastMerge.fields {m : Memory Node} {k a b : Nat} (h : LeastMerge m k a b) (hk : k < 1024) :
    (Memory.read Node.zero m k).leaf = false ∧ (Memory.read Node.zero m k).sym = 0#9 ∧
      (Memory.read Node.zero m k).left.toNat = a ∧ (Memory.read Node.zero m k).right.toNat = b ∧
      weightAt m k = weightAt m a + weightAt m b := by
  have hfits := h.fits
  rw [Config.weightMax] at hfits
  rw [weightAt, h.entry]
  exact ⟨rfl, rfl, toNat_ofNat_nodeIdx (h.left_lt.trans hk), toNat_ofNat_nodeIdx (h.right_lt.trans hk),
    Nat.mod_eq_of_lt (by omega)⟩

/-! ### The command -/

/-- R110: the state in which TREE_BUILD's one phase runs. -/
def State.treeBuildStarted (s : State) : State := { s.beginDispatch 0x03#8 with seq := 0#3, phase := .tbBuild }

/-- R111: the step of TREE_BUILD that makes a tree. -/
theorem treeBuildStarted_builds {s : State} (hover : s.buildTree.overflow = false) :
    phaseStep s.treeBuildStarted = { s.completed 0x03#8 0#3 0 0 with
      treeValid := true, treeSrc := .built, codesValid := false, node := s.buildTree.node
      root := BitVec.ofNat 10 (s.buildTree.next - 1), ncount := BitVec.ofNat 10 s.buildTree.next } := by
  have hover : s.treeBuildStarted.buildTree.overflow = false := hover
  change tbBuild s.treeBuildStarted = _
  simp only [tbBuild, hover, Bool.false_eq_true, if_false]
  exact State.finish_last rfl

theorem errcodeWord_weightOverflow : errcodeWord false false Phase.tbBuild.code Cause.weightOverflow.code = 0x00002004#32 := by decide

/-- R115: the step of TREE_BUILD that a weight overflows in. -/
theorem treeBuildStarted_overflows {s : State} (hover : s.buildTree.overflow = true) :
    phaseStep s.treeBuildStarted = { s.completed 0x03#8 0#3 0 0 with
      done := false, err := true, errcode := 0x00002004#32, errinfo := BitVec.ofNat 32 s.buildTree.next
      treeValid := false, codesValid := false, node := s.buildTree.node, root := 0#10
      ncount := BitVec.ofNat 10 s.buildTree.next } := by
  have hover : s.treeBuildStarted.buildTree.overflow = true := hover
  change tbBuild s.treeBuildStarted = _
  simp only [tbBuild, hover, if_true]
  rw [← errcodeWord_weightOverflow]
  rfl

/-- Settles O16: no merge overflows (`State.buildTree_grown`), so the run of the loop (`MergeRun`) makes one entry for every leaf but
one, each a merge of the two least live pairs, and the root has the sum of the counts. -/
theorem treeBuildBuildsTheHuffmanTree : Obligations.TreeBuildBuildsTheHuffmanTree := by
  intro s hquiet hmem hsum live
  have hlive : live = s.liveSymbols := rfl
  clear_value live
  subst hlive
  obtain ⟨hquiet, hidle⟩ : s.quiet = true ∧ s.busy = false := by simpa [State.quietIdle] using hquiet
  obtain ⟨hover, -⟩ := State.buildTree_grown hmem hsum
  have hrun := State.buildTree_mergeRun hmem
  have hleaf := State.buildTree_leaf hmem
  have hweight := State.buildTree_root_weight hmem hover
  have hfull := State.buildTree_fullTree hmem hover
  have hnext := hrun.next_bounds.2.1 hover
  obtain ⟨hpos, hlen⟩ := s.liveSymbols_length
  rw [List.length_range] at hnext
  have hncount : (BitVec.ofNat 10 s.buildTree.next).toNat = s.buildTree.next := toNat_ofNat_nodeIdx (by omega)
  have hroot : (BitVec.ofNat 10 (s.buildTree.next - 1)).toNat = s.buildTree.next - 1 := toNat_ofNat_nodeIdx (by omega)
  refine ⟨_, _, exec_started hidle rfl rfl rfl, (Runs.single (treeBuildStarted_builds hover)).after hquiet, rfl,
    hncount.trans (by omega), hroot.trans (by omega), fun j hj => ?_, fun k hkL hk => ?_, ?_, ?_⟩
  · rw [State.nodeAt, toNat_ofNat_nodeIdx (by omega)]
    exact hleaf j hj
  · obtain ⟨a, b, hmerge⟩ := hrun.leastMerge k.toNat hkL (by omega)
    obtain ⟨hinternal, hsym, ha, hb, hw⟩ := hmerge.fields k.isLt
    rw [State.nodeAt, ha, hb]
    refine ⟨hinternal, hsym, hw, hmerge.children, fun j hj hjl hjr hfree => ?_⟩
    refine hmerge.before_of_unlinked (fun i hi => ?_) hj (fun e => ?_) (fun e => ?_) hfree
    · rw [hleaf i hi]; rfl
    · exact hjl (BitVec.eq_of_toNat_eq (e.trans ha.symm))
    · exact hjr (BitVec.eq_of_toNat_eq (e.trans hb.symm))
  · rw [hroot]
    exact hweight
  · rw [hroot, hncount]
    exact treeOk_iff.mpr hfull

/-- Settles O17: the root of a loop that ends would hold the whole sum (`State.buildTree_overflow`), so the loop stops at a merge that
was due. -/
theorem treeBuildRaisesWeightOverflow : Obligations.TreeBuildRaisesWeightOverflow := by
  intro s hquiet hmem hsum
  obtain ⟨hquiet, hidle⟩ : s.quiet = true ∧ s.busy = false := by simpa [State.quietIdle] using hquiet
  have hover := State.buildTree_overflow hmem hsum
  obtain ⟨hk, -, hnext⟩ := (State.buildTree_mergeRun hmem).next_bounds
  have hnext := hnext hover
  rw [List.length_range, ← Nat.two_mul] at hnext
  exact ⟨_, _, s.buildTree.next, exec_started hidle rfl rfl rfl, (Runs.single (treeBuildStarted_overflows hover)).after hquiet, hk,
    Nat.lt_sub_of_add_lt hnext, rfl⟩

end Sys2Proof.Machine
end

section
/-! The code table as a result (R119 to R123): what CODE_GEN leaves for each symbol, and that no code continues another. -/

namespace Sys2Proof.Machine

/-! ### The codes of a tree -/

/-- R29, R87, R120: the entry of a path: its length and, above its last bit, zeros. -/
theorem codeOfPath_fields {p : List Bool} (h : p.length ≤ 256) :
    (codeOfPath p).valid = true ∧ (codeOfPath p).len.toNat = p.length ∧
      ∀ k, k < 256 → (codeOfPath p).bits.getLsbD k = p.getD k false := by
  refine ⟨rfl, Nat.mod_eq_of_lt (by omega), fun k hk => ?_⟩
  rw [codeOfPath, getLsbD_bitsOfPath, decide_eq_true hk, Bool.true_and]

/-- R123: distinct leaves lie on paths that diverge: a path that continues a path to a leaf ends at that leaf. -/
theorem Tree.IsPath.eq_of_prefix {t : Tree} {p q : List Bool} {a b : Symbol} (hp : t.IsPath p a) (hq : t.IsPath q b)
    (h : p <+: q) : a = b := by
  induction t generalizing p q with
  | leaf x =>
    match p, q, hp, hq with
    | [], [], hp, hq => exact hp.symm.trans hq
  | node l r ihl ihr =>
    match p, q, hp, hq with
    | false :: p, false :: q, hp, hq => exact ihl hp hq (List.cons_prefix_cons.mp h).2
    | true :: p, true :: q, hp, hq => exact ihr hp hq (List.cons_prefix_cons.mp h).2
    | false :: p, true :: q, _, _ => exact absurd (List.cons_prefix_cons.mp h).1 (by decide)
    | true :: p, false :: q, _, _ => exact absurd (List.cons_prefix_cons.mp h).1 (by decide)

/-- R29, R120: a valid code's bits are the path of a leaf that carries its symbol. -/
theorem State.isPath_of_valid {s : State} {tree : Tree} (hspells : Spells s.node s.root tree) (hleaves : tree.leaves ≤ 257)
    {sym : Symbol} (hsym : sym.toNat ≤ 256) (hvalid : (s.withCodes.codeAt sym.toNat).valid = true) :
    tree.IsPath (s.withCodes.codeAt sym.toNat).bitList sym := by
  rw [State.codeAt_walkCodes hspells hleaves hsym] at hvalid ⊢
  cases hlast : (tree.codes.filter fun c => decide (c.1 = sym)).getLast? with
  | none => simp [hlast, Code.none] at hvalid
  | some c =>
    obtain ⟨hc, hcsym⟩ := List.mem_filter.mp (List.mem_of_getLast? hlast)
    have hpath : tree.IsPath c.2 sym := Tree.isPath_iff_mem_codes.mpr (of_decide_eq_true hcsym ▸ hc)
    have hlen := Tree.length_lt_leaves hpath
    simpa [bitList_codeOfPath (show c.2.length ≤ 256 by omega)] using hpath

/-! ### The command -/

/-- R119: the state in which CODE_GEN's one phase runs. -/
def State.codeGenStarted (s : State) : State := { s.beginDispatch 0x04#8 with seq := 0#3, phase := .cgGen }

/-- R100, R120: the state that CODE_GEN ends in: the code table and CODES_VALID are its only results. -/
def State.codeGenEnded (s : State) : State := { s.withCodes.completed 0x04#8 0#3 0 0 with codesValid := true }

@[simp] theorem State.codeAt_codeGenEnded (s : State) : s.codeGenEnded.codeAt = s.withCodes.codeAt := rfl

/-- R119, R120: a quiet block with a tree runs CODE_GEN in one core step. -/
theorem codeGen_completes {s : State} (hquiet : s.quietIdle = true) (htree : s.treeValid = true) :
    exec .codeGen s = .next s.codeGenStarted ∧ After 1 s.codeGenStarted s.codeGenEnded := by
  obtain ⟨hquiet, hidle⟩ : s.quiet = true ∧ s.busy = false := by simpa [State.quietIdle] using hquiet
  have hfinish : State.finish { s.codeGenStarted.withCodes with codesValid := true } = s.codeGenEnded := State.finish_last rfl
  exact ⟨exec_started hidle rfl rfl htree, Runs.after (hfinish ▸ codeGen_runs rfl) hquiet⟩

/-- Settles O18: the walk's table holds the path of the last leaf of each symbol, and a path of a tree of at most 257 leaves fits an
entry. -/
theorem codeGenRecordsLeafPaths : Obligations.CodeGenRecordsLeafPaths := by
  intro s tree hquiet htree hspells hleaves
  obtain ⟨hexec, hafter⟩ := codeGen_completes hquiet htree
  refine ⟨_, _, hexec, hafter, rfl, fun sym hsym => ?_⟩
  rw [State.codeAt_codeGenEnded, State.codeAt_walkCodes hspells hleaves hsym]
  cases hlast : (tree.codes.filter fun c => decide (c.1 = sym)).getLast? with
  | none => exact ⟨rfl, rfl, rfl⟩
  | some c =>
    have hc := (List.mem_filter.mp (List.mem_of_getLast? hlast)).1
    have hlen := Tree.length_lt_leaves (Tree.isPath_iff_mem_codes.mpr hc)
    exact codeOfPath_fields (by omega)

/-- Settles O19: the bits of two valid codes are paths to leaves of different symbols, so neither continues the other; of
several leaves of one symbol only the last has its path in the table, so the proof needs no distinct symbols. -/
theorem codesAreAPrefixCode : Obligations.CodesAreAPrefixCode := by
  intro s tree hquiet htree hspells hleaves _
  obtain ⟨hexec, hafter⟩ := codeGen_completes hquiet htree
  refine ⟨_, _, hexec, hafter, fun a b ha hb hne hvalida hvalidb hprefix => hne ?_⟩
  have hpatha := State.isPath_of_valid hspells hleaves ha hvalida
  have hpathb := State.isPath_of_valid hspells hleaves hb hvalidb
  exact hpatha.eq_of_prefix hpathb hprefix

end Sys2Proof.Machine
end

section
/-! The header codec (R124 to R134): the phases of HDR_WRITE and HDR_READ, the header that HDR_WRITE writes, and the tree that
HDR_READ rebuilds from it. -/

namespace Sys2Proof.Machine

/-! ### The phases of HDR_WRITE -/

theorem hwWalk_empty {s : State} (hts : s.ts = []) : hwWalk s = s.finish := by
  simp only [hwWalk, hts]

theorem hwWalk_internal {s : State} {n : NodeIdx} {rest : List NodeIdx} (hts : s.ts = n :: rest)
    (hleaf : (s.nodeAt n).leaf = false) :
    hwWalk s = { s.wr 0#1 with ts := (s.nodeAt n).left :: (s.nodeAt n).right :: rest, phase := .hwWalk } := by
  simp only [hwWalk, hts, hleaf, Bool.false_eq_true, if_false]

theorem hwWalk_leaf {s : State} {n : NodeIdx} {rest : List NodeIdx} (hts : s.ts = n :: rest)
    (hleaf : (s.nodeAt n).leaf = true) : hwWalk s = { s.wr 1#1 with ts := rest, hwN := n, phase := .hwSym } := by
  simp only [hwWalk, hts, hleaf, if_true]

/-- Settles O42, by the phase and, in HW_WALK, by the node on top of TS. -/
theorem headerWritePhases : Obligations.HeaderWritePhases := by
  intro s hquiet
  refine ⟨fun hp => ?_, fun hp hts => ?_, fun hp n rest hts => ⟨fun hleaf => ?_, fun hleaf => ?_⟩, fun hp => ?_⟩ <;>
    rw [step_quiet hquiet] <;> simp only [phaseStep, hp]
  · rfl
  · rw [hwWalk_empty hts]
  · rw [hwWalk_internal hts hleaf, ← hp]
    rfl
  · rw [hwWalk_leaf hts hleaf]
    rfl
  · rfl

/-! ### The phases of HDR_READ -/

theorem hrMagic_eof {s : State} (h : s.peek 32 = none) :
    hrMagic s = State.raise { s.invalidate with ncount := 0#10 } .badMagic 0#32 true false := by
  have h' : State.peek { s.invalidate with ncount := 0#10 } 32 = none := h
  simp only [hrMagic, h']

theorem hrMagic_wrong {s : State} {r : Word} (h : s.peek 32 = some r) (hr : r ≠ Config.magic) :
    hrMagic s = State.raise (State.advance { s.invalidate with ncount := 0#10 } 32) .badMagic r false false := by
  have h' : State.peek { s.invalidate with ncount := 0#10 } 32 = some r := h
  simp only [hrMagic, h', if_neg hr]

theorem hrMagic_right {s : State} (h : s.peek 32 = some Config.magic) :
    hrMagic s = { s.invalidate.advance 32 with ncount := 0#10, root := 0#10, pend := [.root], phase := .hrBit } := by
  have h' : State.peek { s.invalidate with ncount := 0#10 } 32 = some Config.magic := h
  simp only [hrMagic, h', if_true]
  rfl

theorem hrBit_done {s : State} (hpend : s.pend = []) :
    hrBit s = State.finish { s with treeValid := true, treeSrc := .parsed } := by
  simp only [hrBit, hpend]

theorem hrBit_overflow {s : State} (hpend : s.pend ≠ []) (hfull : s.ncount = 513#10) :
    hrBit s = s.raise .hdrOverflow 513#32 false false := by
  obtain ⟨slot, rest, hpend⟩ := List.exists_cons_of_ne_nil hpend
  simp only [hrBit, hpend, if_pos hfull]

theorem hrBit_eof {s : State} (hpend : s.pend ≠ []) (hroom : s.ncount ≠ 513#10) (h : s.peek 1 = none) :
    hrBit s = s.raise .truncHdrBit (s.ncount.setWidth 32) true false := by
  obtain ⟨slot, rest, hpend⟩ := List.exists_cons_of_ne_nil hpend
  simp only [hrBit, hpend, if_neg hroom, h]

theorem hrSym_eof {s : State} (h : s.peek 9 = none) :
    hrSym s = s.raise .truncHdrSym (s.ncount.setWidth 32) true false := by
  simp only [hrSym, h]

theorem hrSym_reads {s : State} {r : Symbol} (h : s.peek 9 = some r) :
    hrSym s = ((s.advance 9).setNode s.hleaf { s.nodeAt s.hleaf with sym := r }).goto .hrBit := by
  simp only [hrSym, h]

/-- R155: the cause table's rows of HDR_READ. -/
theorem errcodeWord_header :
    errcodeWord false true Phase.hrMagic.code Cause.badMagic.code = 0x00016006#32 ∧
      errcodeWord false false Phase.hrMagic.code Cause.badMagic.code = 0x00006006#32 ∧
      errcodeWord false false Phase.hrBit.code Cause.hdrOverflow.code = 0x00006109#32 ∧
      errcodeWord false true Phase.hrBit.code Cause.truncHdrBit.code = 0x00016107#32 ∧
      errcodeWord false true Phase.hrSym.code Cause.truncHdrSym.code = 0x00016208#32 := by decide

/-- R156: an error raised in a phase whose row of the cause table is known. -/
theorem State.raise_eq {s : State} {p : Phase} {c : Cause} {atEof midcode : Bool} {word : Word} (hp : s.phase = p)
    (hword : errcodeWord midcode atEof p.code c.code = word) (info : Word) :
    s.raise c info atEof midcode = { s with errcode := word, errinfo := info, err := true, phase := .idle } := by
  rw [State.raise, State.takeError, hp, hword]

/-- Settles O43, by the phase and the answer of its RD. -/
theorem headerReadPhases : Obligations.HeaderReadPhases := by
  intro s hquiet hmem
  obtain ⟨hmagicEof, hmagicWrong, hoverflow, hbitEof, hsymEof⟩ := errcodeWord_header
  rw [step_quiet hquiet]
  refine ⟨fun hp => ?_, fun hp => ?_, fun hp => ?_⟩ <;> simp only [phaseStep, hp]
  · refine ⟨fun heof => ?_, fun hlen r hbits => ⟨fun hr => ?_, fun hr => ?_⟩⟩
    · rw [hrMagic_eof (State.peek_eq_none.mpr heof)]
      exact congrArg _ (State.raise_eq (s := { s.invalidate with ncount := 0#10 }) hp hmagicEof _)
    · rw [hrMagic_wrong (State.peek_eq_some.mpr ⟨hlen, hbits⟩) hr]
      exact congrArg _ (State.raise_eq (s := State.advance { s.invalidate with ncount := 0#10 } 32) hp hmagicWrong _)
    · subst hr
      rw [hrMagic_right (State.peek_eq_some.mpr ⟨hlen, hbits⟩)]
      rfl
  · refine ⟨fun hpend => ?_, fun hpend hfull => ?_, fun hpend hroom heof => ?_⟩
    · rw [hrBit_done hpend, ← hp]
    · rw [hrBit_overflow hpend hfull, State.raise_eq hp hoverflow]
    · rw [hrBit_eof hpend hroom (State.peek_eq_none.mpr heof), State.raise_eq hp hbitEof]
  · refine ⟨fun heof => ?_, fun hlen hhleaf r hbits => ⟨_, rfl, fun j => ?_, ?_⟩⟩
    · rw [hrSym_eof (State.peek_eq_none.mpr heof), State.raise_eq hp hsymEof]
    · rw [hrSym_reads (State.peek_eq_some.mpr ⟨hlen, hbits⟩)]
      refine (State.nodeAt_setNode (s := s.advance 9) hmem s.hleaf _ j).trans ?_
      by_cases hj : j = s.hleaf
      · subst hj
        rw [if_pos ⟨rfl, hhleaf⟩, if_pos rfl]
      · rw [if_neg fun h => hj h.1, if_neg hj]
        rfl
    · rw [hrSym_reads (State.peek_eq_some.mpr ⟨hlen, hbits⟩), State.setNode_eq]
      rfl

/-! ### The size of a header (R82, R128) -/

theorem Tree.size_add_one (t : Tree) : t.size + 1 = 2 * t.leaves := by
  induction t with
  | leaf sym => rfl
  | node l r ihl ihr =>
    rw [Tree.size, Tree.leaves]
    omega

theorem Tree.length_ser_add_one (t : Tree) : t.ser.length + 1 = 11 * t.leaves := by
  induction t with
  | leaf sym => simp [Tree.ser, Tree.leaves]
  | node l r ihl ihr =>
    rw [Tree.ser, Tree.leaves, List.length_cons, List.length_append]
    omega

theorem Tree.length_layout (t : Tree) (n : Nat) : (t.layout n).length = t.size := by
  induction t generalizing n with
  | leaf sym => rfl
  | node l r ihl ihr =>
    rw [Tree.layout, Tree.size, List.length_cons, List.length_append, ihl, ihr]
    omega

/-- The core steps of both header engines: the magic, a step for each node, one for each symbol, and the end (R183). -/
theorem Tree.header_steps (t : Tree) : 1 + (t.size + t.leaves) + 1 = 1 + (2 * t.leaves - 1) + t.leaves + 1 := by
  have := t.size_add_one
  omega

theorem Tree.header_bits (t : Tree) : (bitsOf Config.magic ++ t.ser).length = 32 + 11 * t.leaves - 1 := by
  have := t.length_ser_add_one
  rw [List.length_append, length_bitsOf]
  omega

/-! ### HDR_WRITE -/

/-- Settles O20: the dispatch, the walk of the tree (`hdrWrite_runs`), and the end of the command's only engine. -/
theorem hdrWriteSerializesTheTree : Obligations.HdrWriteSerializesTheTree := by
  intro s tree hquiet htree hspells
  obtain ⟨hquiet, hidle⟩ : s.quiet = true ∧ s.busy = false := by simpa [State.quietIdle] using hquiet
  obtain ⟨t, ht⟩ : ∃ t, t = { s.beginDispatch 0x05#8 with seq := 0#3, phase := .hwMagic } := ⟨_, rfl⟩
  obtain ⟨hwN, hrun⟩ := hdrWrite_runs (s := t) (tree := tree) (by rw [ht]) (by rw [ht]; exact hspells)
  rw [State.finish_last (by rw [ht]; rfl), tree.header_steps] at hrun
  refine ⟨t, _, ?_, hrun.after (by rw [ht]; exact hquiet), ?_, ?_⟩
  · rw [ht]
    exact exec_started hidle rfl rfl htree
  · have := tree.length_ser_add_one
    omega
  · rw [State.emit, tree.header_bits, ht]
    simp [State.beginDispatch, State.completed, Config.magic]

end Sys2Proof.Machine
end

section
/-! HDR_READ rebuilds the tree that its header serializes (R129 to R133): the parser takes the serialization of a subtree as it
takes a token, by induction on the tree, and the entries it leaves are the subtree's in pre-order. -/

namespace Sys2Proof.Machine

/-! ### The layout of a tree in the node store -/

/-- The entries of the store from `n` on are those of the tree, in pre-order (R133). -/
def LaidOut (m : Memory Node) (n : Nat) (t : Tree) : Prop :=
  ((List.range' n t.size).map fun j => Memory.read Node.zero m (BitVec.ofNat 10 j).toNat) = t.layout n

theorem laidOut_leaf {m : Memory Node} {n : Nat} {sym : Symbol} : LaidOut m n (.leaf sym) ↔
    Memory.read Node.zero m (BitVec.ofNat 10 n).toNat = ⟨true, sym, 0#32, 0#10, 0#10⟩ := by
  simp [LaidOut, Tree.size, Tree.layout]

theorem laidOut_node {m : Memory Node} {n : Nat} {l r : Tree} : LaidOut m n (.node l r) ↔
    Memory.read Node.zero m (BitVec.ofNat 10 n).toNat =
        ⟨false, 0#9, 0#32, BitVec.ofNat 10 (n + 1), BitVec.ofNat 10 (n + 1 + l.size)⟩ ∧
      LaidOut m (n + 1) l ∧ LaidOut m (n + 1 + l.size) r := by
  have hsplit : List.range' n (Tree.node l r).size =
      n :: (List.range' (n + 1) l.size ++ List.range' (n + 1 + l.size) r.size) := by
    rw [Tree.size, Nat.add_assoc, Nat.add_comm 1, List.range'_succ, List.range'_append_1]
  rw [LaidOut, hsplit, Tree.layout, List.map_cons, List.map_append, List.cons.injEq]
  refine and_congr_right fun _ => ⟨fun h => List.append_inj h ?_, fun ⟨hl, hr⟩ => congrArg₂ _ hl hr⟩
  rw [List.length_map, List.length_range', Tree.length_layout]

/-- R133: entries laid out in pre-order unfold to the tree. -/
theorem LaidOut.spells {m : Memory Node} {n : Nat} {t : Tree} (h : LaidOut m n t) : Spells m (BitVec.ofNat 10 n) t := by
  induction t generalizing n with
  | leaf sym =>
    rw [Spells, laidOut_leaf.mp h]
    exact ⟨rfl, rfl⟩
  | node l r ihl ihr =>
    obtain ⟨hroot, hl, hr⟩ := laidOut_node.mp h
    rw [Spells, hroot]
    exact ⟨rfl, ihl hl, ihr hr⟩

theorem LaidOut.getElem {m : Memory Node} {n : Nat} {t : Tree} (h : LaidOut m n t) {j : Nat} (hj : j < (t.layout n).length) :
    Memory.read Node.zero m (BitVec.ofNat 10 (n + j)).toNat = (t.layout n)[j] := by
  rw [LaidOut] at h
  simp only [← h, List.getElem_map, List.getElem_range', Nat.one_mul]

/-- The layout depends on the tree's own entries alone. -/
theorem LaidOut.congr {m m' : Memory Node} {n : Nat} {t : Tree} (h : LaidOut m n t) (hn : n + t.size ≤ 1024)
    (hread : ∀ j : NodeIdx, n ≤ j.toNat → j.toNat < n + t.size →
      Memory.read Node.zero m' j.toNat = Memory.read Node.zero m j.toNat) :
    LaidOut m' n t := by
  refine Eq.trans (List.map_congr_left fun j hj => ?_) h
  obtain ⟨hlo, hhi⟩ := List.mem_range'_1.mp hj
  have hj' : (BitVec.ofNat 10 j).toNat = j := toNat_ofNat_nodeIdx (by omega)
  exact hread _ (by omega) (by omega)

/-- Entry `j` of a store once node `n` fills the child position `sl` (R131). -/
def linkedEntry (m : Memory Node) (sl : Slot) (n j : NodeIdx) : Node :=
  if sl = .left j then { Memory.read Node.zero m j.toNat with left := n }
  else if sl = .right j then { Memory.read Node.zero m j.toNat with right := n }
  else Memory.read Node.zero m j.toNat

/-- The store `m'` is `m` with the tree's nodes from `n` on, its root in the child position `sl`. -/
structure TreePlaced (m m' : Memory Node) (sl : Slot) (n : Nat) (t : Tree) : Prop where
  laidOut : LaidOut m' n t
  others : ∀ j : NodeIdx, j.toNat < n ∨ n + t.size ≤ j.toNat →
    Memory.read Node.zero m' j.toNat = linkedEntry m sl (BitVec.ofNat 10 n) j

/-- R83: an internal node begun, then its two subtrees. -/
theorem TreePlaced.node {m m1 m2 m3 : Memory Node} {sl : Slot} {n : Nat} {l r : Tree} (hn : n + (Tree.node l r).size ≤ 1024)
    (hnew : Memory.read Node.zero m1 (BitVec.ofNat 10 n).toNat = begunNode false)
    (hold : ∀ j : NodeIdx, j ≠ BitVec.ofNat 10 n → Memory.read Node.zero m1 j.toNat = linkedEntry m sl (BitVec.ofNat 10 n) j)
    (hl : TreePlaced m1 m2 (.left (BitVec.ofNat 10 n)) (n + 1) l)
    (hr : TreePlaced m2 m3 (.right (BitVec.ofNat 10 n)) (n + 1 + l.size) r) : TreePlaced m m3 sl n (.node l r) := by
  rw [Tree.size] at hn
  have hroot : (BitVec.ofNat 10 n).toNat = n := toNat_ofNat_nodeIdx (by omega)
  have hne : ∀ j : NodeIdx, j.toNat ≠ n → j ≠ BitVec.ofNat 10 n := fun j hj e => hj (e ▸ hroot)
  have hkept_l : ∀ j : NodeIdx, j.toNat < n ∨ n + 1 + l.size ≤ j.toNat →
      Memory.read Node.zero m2 j.toNat = Memory.read Node.zero m1 j.toNat := fun j hj => by
    rw [hl.others j (by omega), linkedEntry, if_neg fun e => hne j (by omega) (Slot.left.inj e).symm, if_neg nofun]
  have hkept_r : ∀ j : NodeIdx, j.toNat ≠ n → j.toNat < n + 1 + l.size ∨ n + 1 + l.size + r.size ≤ j.toNat →
      Memory.read Node.zero m3 j.toNat = Memory.read Node.zero m2 j.toNat := fun j hj hj' => by
    rw [hr.others j (by omega), linkedEntry, if_neg nofun, if_neg fun e => hne j hj (Slot.right.inj e).symm]
  refine ⟨laidOut_node.mpr ⟨?_, ?_, hr.laidOut⟩, fun j hj => ?_⟩
  · rw [hr.others _ (by omega), linkedEntry, if_neg nofun, if_pos rfl, hl.others _ (by omega), linkedEntry, if_pos rfl, hnew]
    rfl
  · exact hl.laidOut.congr (by omega) fun j hlo hhi => hkept_r j (by omega) (by omega)
  · rw [Tree.size] at hj
    rw [hkept_r j (by omega) (by omega), hkept_l j (by omega), hold j (hne j (by omega))]

/-! ### The parser -/

theorem phaseStep_of_exec_hdrInternal {s t : State} (h : exec .hdrInternal s = .next t) : phaseStep s = t := by
  by_cases htoken : s.headerToken = some .hdrInternal
  · rw [exec_headerToken htoken] at h
    exact Host.Outcome.next.inj h
  · simp [exec, execHdrInternal, htoken] at h

theorem phaseStep_of_exec_hdrLeaf {sym : Nat} {s t : State} (h : exec (.hdrLeaf sym) s = .next t) : phaseStep s = t := by
  by_cases htoken : s.headerToken = some (.hdrLeaf sym)
  · rw [exec_headerToken htoken] at h
    exact Host.Outcome.next.inj h
  · simp [exec, execHdrLeaf, htoken] at h

theorem hrBit_memoryOk {s : State} (h : s.memoryOk = true) : (hrBit s).memoryOk = true := by
  unfold hrBit
  split
  · exact (State.memoryOk_congr (by simp) (by simp) (by simp)).trans h
  · split
    · exact h
    · split
      · exact h
      · split <;> exact State.memoryOk_startNode (s := s.advance 1) h _ _ _

theorem hrSym_memoryOk {s : State} (h : s.memoryOk = true) : (hrSym s).memoryOk = true := by
  unfold hrSym
  split
  · exact h
  · exact State.memoryOk_setNode (s := s.advance 9) h _ _

/-- HDR_READ's steps keep the memories canonical. -/
theorem hdrRead_phaseStep_memoryOk {s : State} (hp : s.phase = .hrBit ∨ s.phase = .hrSym) (h : s.memoryOk = true) :
    (phaseStep s).memoryOk = true := by
  rcases hp with hp | hp <;> simp only [phaseStep, hp]
  · exact hrBit_memoryOk h
  · exact hrSym_memoryOk h

theorem State.pos_le_of_drop {s : State} {b : Bool} {bits : List Bool} (h : s.input.drop s.pos = b :: bits) :
    s.pos ≤ s.input.length := by
  by_contra hpos
  rw [List.drop_eq_nil_of_le (by omega)] at h
  cases h

theorem State.drop_read {s : State} {bits rest : List Bool} (h : s.input.drop s.pos = bits ++ rest) :
    s.input.drop (s.pos + bits.length) = rest := by
  rw [← List.drop_drop, h, List.drop_left]

/-- The block after the parser has read `bits` bits of a header: what it has written (R131, R132). -/
def State.parsedTo (s : State) (bits : Nat) (node : Memory Node) (n : Nat) (pend : List Slot) (hleaf : NodeIdx) : State :=
  { s.advance bits with node := node, ncount := BitVec.ofNat 10 n, pend := pend, hleaf := hleaf }

theorem State.parsedTo_parsedTo (s : State) (a b : Nat) (m m' : Memory Node) (n n' : Nat) (p p' : List Slot) (h h' : NodeIdx) :
    (s.parsedTo a m n p h).parsedTo b m' n' p' h' = s.parsedTo (a + b) m' n' p' h' := by
  simp only [State.parsedTo, ← State.advance_advance]
  rfl

section
variable {s : State} {n : Nat} {sl : Slot} {pend : List Slot} {tail : List Bool}

/-- R83: an INTERNAL token in one core step: node `n` is begun in the position on top of PEND. -/
theorem hrBit_internal_runs (hp : s.phase = .hrBit) (hmem : s.memoryOk = true) (hncount : s.ncount = BitVec.ofNat 10 n)
    (hpend : s.pend = sl :: pend) (hroom : n < 513) (hparent : sl ≠ .root → sl.parent < n)
    (hbits : s.input.drop s.pos = false :: tail) :
    ∃ t node, Runs 1 s t ∧ t.memoryOk = true ∧
      t = s.parsedTo 1 node (n + 1) (.left (BitVec.ofNat 10 n) :: .right (BitVec.ofNat 10 n) :: pend) s.hleaf ∧
      Memory.read Node.zero node (BitVec.ofNat 10 n).toNat = begunNode false ∧
      ∀ j, j ≠ BitVec.ofNat 10 n → Memory.read Node.zero node j.toNat = linkedEntry s.node sl (BitVec.ofNat 10 n) j := by
  have hn : s.ncount.toNat = n := by rw [hncount]; exact toNat_ofNat_nodeIdx (by omega)
  obtain ⟨t, hexec, hnew, hold, ht⟩ := internalTokenStartsAnInternalNode s sl pend tail hmem hp hpend (by rwa [hn])
    (by rwa [hn]) (State.pos_le_of_drop hbits) hbits
  have hstep := phaseStep_of_exec_hdrInternal hexec
  rw [hncount] at hnew hold ht
  refine ⟨t, t.node, Runs.single hstep, hstep ▸ hdrRead_phaseStep_memoryOk (.inl hp) hmem, ?_, hnew, hold⟩
  rw [State.parsedTo, BitVec.ofNat_add]
  exact ht

/-- R84, R132: a LEAF token in two core steps. -/
theorem hrBit_leaf_runs {sym : Symbol} (hp : s.phase = .hrBit) (hmem : s.memoryOk = true)
    (hncount : s.ncount = BitVec.ofNat 10 n) (hpend : s.pend = sl :: pend) (hroom : n < 513)
    (hparent : sl ≠ .root → sl.parent < n) (hbits : s.input.drop s.pos = (Tree.leaf sym).ser ++ tail) :
    ∃ t node hleaf, Runs 2 s t ∧ t.memoryOk = true ∧ t = s.parsedTo 10 node (n + 1) pend hleaf ∧
      TreePlaced s.node node sl n (.leaf sym) := by
  have hn : s.ncount.toNat = n := by rw [hncount]; exact toNat_ofNat_nodeIdx (by omega)
  obtain ⟨t, u, hexec, htphase, hexec', hnew, hold, hu⟩ := leafTokenPlacesALeaf s sl pend sym tail hmem hp hpend (by rwa [hn])
    (by rwa [hn]) (State.pos_le_of_drop hbits) hbits
  have hstep := phaseStep_of_exec_hdrLeaf hexec
  have hstep' := phaseStep_of_exec_hdrLeaf hexec'
  have htmem : t.memoryOk = true := hstep ▸ hdrRead_phaseStep_memoryOk (.inl hp) hmem
  rw [hncount] at hnew hold hu
  refine ⟨u, u.node, BitVec.ofNat 10 n, Runs.head hstep (Runs.single hstep'),
    hstep' ▸ hdrRead_phaseStep_memoryOk (.inr htphase) htmem, ?_, laidOut_leaf.mpr hnew, fun j hj => hold j fun e => ?_⟩
  · rw [State.parsedTo, BitVec.ofNat_add]
    exact hu
  · rw [Tree.size, e, toNat_ofNat_nodeIdx (by omega)] at hj
    omega

/-- R131, R132: HR_BIT with the serialization of a tree at the port parses the tree into the position on top of PEND. -/
theorem hrBit_tree_runs {tree : Tree} (hp : s.phase = .hrBit) (hmem : s.memoryOk = true)
    (hncount : s.ncount = BitVec.ofNat 10 n) (hpend : s.pend = sl :: pend) (hroom : n + tree.size ≤ 513)
    (hparent : sl ≠ .root → sl.parent < n) (hbits : s.input.drop s.pos = tree.ser ++ tail) :
    ∃ t node hleaf, Runs (tree.size + tree.leaves) s t ∧ t.memoryOk = true ∧
      t = s.parsedTo tree.ser.length node (n + tree.size) pend hleaf ∧ TreePlaced s.node node sl n tree := by
  induction tree generalizing s n sl pend tail with
  | leaf sym =>
    rw [show (Tree.leaf sym).ser.length = 10 by simp [Tree.ser]]
    exact hrBit_leaf_runs hp hmem hncount hpend hroom hparent hbits
  | node l r ihl ihr =>
    rw [Tree.size] at hroom
    have hn : (BitVec.ofNat 10 n).toNat = n := toNat_ofNat_nodeIdx (by omega)
    have hbits : s.input.drop s.pos = [false] ++ (l.ser ++ (r.ser ++ tail)) := by simpa [Tree.ser] using hbits
    obtain ⟨s1, m1, hrun1, hmem1, hs1, hnew, hold⟩ := hrBit_internal_runs hp hmem hncount hpend (by omega) hparent hbits
    have hbits1 : s1.input.drop s1.pos = l.ser ++ (r.ser ++ tail) := by
      rw [hs1]
      exact State.drop_read hbits
    obtain ⟨s2, m2, hleaf2, hrun2, hmem2, hs2, hl⟩ := ihl (n := n + 1) (by rw [hs1]; exact hp) hmem1 (by rw [hs1]; rfl)
      (by rw [hs1]; rfl) (by omega) (fun _ => by rw [Slot.parent, hn]; omega) hbits1
    have hbits2 : s2.input.drop s2.pos = r.ser ++ tail := by
      rw [hs2]
      exact State.drop_read hbits1
    rw [hs1, State.parsedTo_parsedTo] at hs2
    obtain ⟨s3, m3, hleaf3, hrun3, hmem3, hs3, hr⟩ := ihr (n := n + 1 + l.size) (by rw [hs2]; exact hp) hmem2
      (by rw [hs2]; rfl) (by rw [hs2]; rfl) (by omega) (fun _ => by rw [Slot.parent, hn]; omega) hbits2
    rw [hs2, State.parsedTo_parsedTo] at hs3
    have hsteps : (Tree.node l r).size + (Tree.node l r).leaves = 1 + (l.size + l.leaves) + (r.size + r.leaves) := by
      rw [Tree.size, Tree.leaves]
      omega
    have hlen : (Tree.node l r).ser.length = 1 + l.ser.length + r.ser.length := by
      rw [Tree.ser, List.length_cons, List.length_append]
      omega
    have hcount : n + (Tree.node l r).size = n + 1 + l.size + r.size := by
      rw [Tree.size]
      omega
    rw [hs1] at hl
    rw [hs2] at hr
    refine ⟨s3, m3, hleaf3, ?_, hmem3, ?_, .node ?_ hnew hold hl hr⟩
    · rw [hsteps]
      exact (hrun1.trans hrun2).trans hrun3
    · rw [hlen, hcount]
      exact hs3
    · rw [hcount]
      omega

end

/-- R129: HDR_READ of a header from its first phase. -/
theorem hdrRead_runs {s : State} {tree : Tree} {rest : List Bool} (hp : s.phase = .hrMagic) (hmem : s.memoryOk = true)
    (hleaves : tree.leaves ≤ 257) (hbits : s.input.drop s.pos = bitsOf Config.magic ++ (tree.ser ++ rest)) :
    ∃ node hleaf, Runs (1 + (tree.size + tree.leaves) + 1) s
        (State.finish { s.invalidate.parsedTo (32 + tree.ser.length) node tree.size [] hleaf with
          treeValid := true, treeSrc := .parsed, root := 0#10, phase := .hrBit }) ∧
      TreePlaced s.node node .root 0 tree := by
  have hsize := tree.size_add_one
  obtain ⟨s1, hs1⟩ : ∃ t, t =
    State.parsedTo { s.invalidate with root := 0#10, phase := .hrBit } 32 s.node 0 [.root] s.hleaf := ⟨_, rfl⟩
  have hmagic : phaseStep s = s1 := by
    simp only [phaseStep, hp, hrMagic_right (State.peek_of_drop (by decide) hbits), hs1]
    rfl
  have hbits1 : s1.input.drop s1.pos = tree.ser ++ rest := by
    rw [hs1]
    exact State.drop_advance hbits
  obtain ⟨s2, node, hleaf, hrun, -, hs2, hplaced⟩ := hrBit_tree_runs (s := s1) (n := 0) (by rw [hs1]; rfl)
    (by rw [hs1]; exact hmem) (by rw [hs1]; rfl) (by rw [hs1]; rfl) (by omega) (fun h => absurd rfl h) hbits1
  rw [hs1, State.parsedTo_parsedTo, Nat.zero_add] at hs2
  rw [hs1] at hplaced
  have hp2 : s2.phase = .hrBit := by rw [hs2]; rfl
  have hpend2 : s2.pend = [] := by rw [hs2]; rfl
  have hstep : phaseStep s2 = hrBit s2 := by simp only [phaseStep, hp2]
  rw [hrBit_done hpend2] at hstep
  refine ⟨node, hleaf, ((Runs.single hmagic).trans hrun).trans (Runs.single (hstep.trans ?_)), hplaced⟩
  rw [hs2]
  rfl

/-- Settles O21: the dispatch, the parse of the header (`hdrRead_runs`), and the end of the command's only engine. -/
theorem hdrReadRebuildsTheTree : Obligations.HdrReadRebuildsTheTree := by
  intro s tree rest hquiet hmem hleaves hbits
  obtain ⟨hquiet, hidle⟩ : s.quiet = true ∧ s.busy = false := by simpa [State.quietIdle] using hquiet
  obtain ⟨t, ht⟩ : ∃ t, t = { s.beginDispatch 0x07#8 with seq := 0#3, phase := .hrMagic } := ⟨_, rfl⟩
  rw [List.append_assoc] at hbits
  obtain ⟨node, hleaf, hrun, hplaced⟩ := hdrRead_runs (s := t) (tree := tree) (rest := rest) (by rw [ht])
    (by rw [ht]; exact hmem) hleaves (by rw [ht]; exact hbits)
  rw [State.finish_last (by rw [ht]; rfl), tree.header_steps] at hrun
  rw [ht] at hplaced
  have hsize : tree.size = 2 * tree.leaves - 1 := by
    have := tree.size_add_one
    omega
  have hlen : 32 + tree.ser.length = 32 + 11 * tree.leaves - 1 := by
    have := tree.length_ser_add_one
    omega
  refine ⟨t, _, ?_, hrun.after (by rw [ht]; exact hquiet), ?_, fun j hj => ?_, fun j hj => ?_, hplaced.laidOut.spells⟩
  · rw [ht]
    exact exec_started hidle rfl rfl rfl
  · rw [ht, hsize, hlen]
    simp [State.beginDispatch, State.completed, State.parsedTo, State.advance, State.invalidate]
  · rw [← hplaced.laidOut.getElem hj, Nat.zero_add]
    rfl
  · exact hplaced.others j (by omega)

end Sys2Proof.Machine
end

section
/-! The encoder (R135 to R141): its four phases, and ENCODE from dispatch to completion. -/

namespace Sys2Proof.Machine

/-! ### The phases -/

theorem enRead_eof {s : State} (h : s.peek 8 = none) : enRead s = lookUp { s with esym := 256#9, eomf := true } := by
  simp only [enRead, h]
  rfl

theorem enRead_byte {s : State} {r : Byte} (h : s.peek 8 = some r) :
    enRead s = lookUp { s.advance 8 with esym := r.setWidth 9 } := by
  simp only [enRead, h]

/-- R155: the cause table's row for NO_CODE. -/
theorem errcodeWord_noCode : errcodeWord false false Phase.enRead.code Cause.noCode.code = 0x00005105#32 := by decide

/-- R137: the look-up of a symbol that has no code. -/
theorem lookUp_invalid {s : State} (hp : s.phase = .enRead) (h : (s.codeAt s.esym.toNat).valid = false) :
    lookUp s = { s with errcode := 0x00005105#32, errinfo := s.esym.setWidth 32, err := true, phase := .idle } := by
  simp only [lookUp, h, Bool.false_eq_true, if_false]
  exact State.raise_eq hp errcodeWord_noCode _

/-- R15, R60: CLOSE appends bits up to a byte boundary. -/
theorem State.close_pads (s : State) : ∃ pad : List Bool, pad.length = (8 - s.output.length % 8) % 8 ∧
    s.close = { s with output := s.output ++ pad, draws := s.draws + 1 } :=
  ⟨_, by rw [List.length_map, List.length_range], rfl⟩

/-- Settles O44, by the phase; in EN_READ by the answer of its RD and by whether the symbol has a code, in EN_BITS by the bits left. -/
theorem encoderPhases : Obligations.EncoderPhases := by
  intro s hquiet
  rw [step_quiet hquiet]
  refine ⟨fun hp => ?_, fun hp heof => ?_, fun hp hlen r hbits => ?_,
    fun hp => ⟨fun hbit => ?_, fun hend heomf => ?_, fun hend heomf => ?_⟩, fun hp => ?_⟩
  · simp only [phaseStep, hp]
    rfl
  · simp only [phaseStep, hp]
    rw [enRead_eof (State.peek_eq_none.mpr heof)]
    exact ⟨fun hvalid => congrArg _ (lookUp_valid hvalid), fun hvalid => congrArg _ (lookUp_invalid hp hvalid)⟩
  · have hcode : s.codeAt (r.setWidth 9).toNat = s.codeAt r.toNat := congrArg s.codeAt (toNat_byte_symbol r)
    have hinfo : (r.setWidth 9).setWidth 32 = r.zeroExtend 32 := BitVec.setWidth_setWidth (by decide)
    simp only [phaseStep, hp]
    rw [enRead_byte (State.peek_eq_some.mpr ⟨hlen, hbits⟩), ← hcode, ← hinfo]
    exact ⟨fun hvalid => congrArg _ (lookUp_valid hvalid), fun hvalid => congrArg _ (lookUp_invalid hp hvalid)⟩
  · rw [phaseStep_enBits_bit hp hbit]
    rfl
  · rw [phaseStep_enBits_end hp hend, if_pos heomf]
    rfl
  · rw [phaseStep_enBits_end hp hend, if_neg (by simp [heomf])]
    rfl
  · obtain ⟨pad, hpad, hclose⟩ := s.close_pads
    simp only [phaseStep, hp]
    exact ⟨pad, hpad, congrArg (fun t => Host.Outcome.next t.finish) hclose⟩

/-! ### The command -/

/-- Settles O22: the dispatch, the run of the four phases over the input (`encode_runs`), the pad of its CLOSE, and the end of the
command's only engine. -/
theorem encodeWritesTheCodes : Obligations.EncodeWritesTheCodes := by
  intro s xs tail hquiet hcodes hinput htail hvalid heom body
  obtain ⟨hquiet, hidle⟩ : s.quiet = true ∧ s.busy = false := by simpa [State.quietIdle] using hquiet
  obtain ⟨t, ht⟩ : ∃ t, t = { s.beginDispatch 0x06#8 with seq := 0#3, phase := .enRewind } := ⟨_, rfl⟩
  have hcodeAt : t.codeAt = s.codeAt := by rw [ht]; rfl
  have hbody : t.codesOf xs ++ (t.codeAt 256).bitList = body := by rw [State.codesOf, hcodeAt]
  have hrun := encode_runs (s := t) (by rw [ht]) (by rw [ht]; exact hinput) htail (by rw [hcodeAt]; exact hvalid)
    (by rw [hcodeAt]; exact heom)
  have hsteps : 1 + ((t.codesOf xs).length + 2 * xs.length) + ((t.codeAt 256).bitList.length + 2) + 1 =
      1 + (xs.length + 1) + (body.length + (xs.length + 1)) + 1 := by
    rw [← hbody, List.length_append]
    omega
  rw [State.finish_last (by rw [ht]; rfl), hsteps, hbody, hcodeAt] at hrun
  obtain ⟨pad, hpad, hclose⟩ := State.close_pads { t.emit body with
    pos := 8 * xs.length, inBits := BitVec.ofNat 32 (8 * xs.length), esym := 256#9, ej := (s.codeAt 256).len
    eomf := true, phase := .enClose }
  rw [hclose] at hrun
  refine ⟨t, _, pad, ?_, hrun.after (by rw [ht]; exact hquiet), ?_, ?_⟩
  · rw [ht]
    exact exec_started hidle rfl rfl hcodes
  · rw [hpad, ht]
    rfl
  · rw [ht]
    simp [State.emit, State.beginDispatch, State.completed]

end Sys2Proof.Machine
end

section
/-! The decoder (R142 to R148): its four phases, and DECODE from dispatch to completion. -/

namespace Sys2Proof.Machine

/-! ### The phases -/

/-- R144: the child that a bit of the stream leads to. -/
def Node.child (x : Node) (b : Bool) : NodeIdx := if b then x.right else x.left

theorem State.childOn_ofBool (s : State) (b : Bool) : s.childOn (BitVec.ofBool b) = (s.nodeAt s.cur).child b := by
  cases b <;> rfl

theorem arrival_internal {x : Node} (h : x.leaf = false) : arrival x = .deBit := by
  simp [arrival, h]

theorem arrival_leaf {x : Node} (h : x.leaf = true) : arrival x = if x.sym = 256#9 then .deClose else .deEmit :=
  if_pos h

theorem arrival_eq (x : Node) :
    arrival x = if x.leaf = false then .deBit else if x.sym = 256#9 then .deClose else .deEmit := by
  cases h : x.leaf with
  | false => exact arrival_internal h
  | true => exact arrival_leaf h

theorem deStart_internal {s : State} (h : (s.nodeAt s.root).leaf = false) :
    deStart s = { s with cur := s.root, phase := .deBit } := by
  simp [deStart, h]

theorem deStart_eom {s : State} (h : (s.nodeAt s.root).leaf = true) (hsym : (s.nodeAt s.root).sym = 256#9) :
    deStart s = { s with phase := .deClose } := by
  simp only [deStart, h, hsym, if_true]
  rfl

/-- R155: the cause table's rows for BAD_ROOT and NO_TERMINATOR. -/
theorem errcodeWord_decode :
    errcodeWord false false Phase.deStart.code Cause.badRoot.code = 0x0000700A#32 ∧
      errcodeWord false true Phase.deBit.code Cause.noTerminator.code = 0x0001710B#32 ∧
      errcodeWord true true Phase.deBit.code Cause.noTerminator.code = 0x0003710B#32 := by decide

theorem deStart_badRoot {s : State} (hp : s.phase = .deStart) (h : (s.nodeAt s.root).leaf = true)
    (hsym : (s.nodeAt s.root).sym ≠ 256#9) :
    deStart s = { s with
      errcode := 0x0000700A#32, errinfo := (s.nodeAt s.root).sym.setWidth 32, err := true, phase := .idle } := by
  rw [deStart, if_pos h]
  exact (if_neg hsym).trans (State.raise_eq hp errcodeWord_decode.1 _)

theorem deBit_eof {s : State} (hp : s.phase = .deBit) (h : s.peek 1 = none) :
    deBit s = { s with
      errcode := if s.cur = s.root then 0x0001710B#32 else 0x0003710B#32
      errinfo := s.cur.setWidth 32, err := true, phase := .idle } := by
  obtain ⟨-, hroot, hinside⟩ := errcodeWord_decode
  simp only [deBit, h]
  refine State.raise_eq hp ?_ _
  by_cases hcur : s.cur = s.root
  · rw [decide_eq_false (not_not.mpr hcur), if_pos hcur, hroot]
  · rw [decide_eq_true hcur, if_neg hcur, hinside]

/-- R144: the block after DE_BIT has read `n` bits, which lead it to the node `c`. -/
def State.arrivedAt (s : State) (n : Nat) (c : NodeIdx) : State :=
  { s.advance n with cur := c, phase := arrival (s.nodeAt c) }

theorem deBit_of_bit {s : State} {b : Bool} {tail : List Bool} (h : s.input.drop s.pos = b :: tail) :
    deBit s = s.arrivedAt 1 ((s.nodeAt s.cur).child b) := by
  simp only [deBit, State.peek_one h, State.childOn_ofBool]
  rfl

theorem deEmit_eq (s : State) : deEmit s =
    { s.emit (bitsOf ((s.nodeAt s.cur).sym.extractLsb' 0 8)) with cur := s.root, phase := .deBit } := by
  rw [deEmit, State.wr_eq_emit, BitVec.setWidth_eq_extractLsb' (by decide)]

/-- Settles O45, by the phase; in DE_START by the root, in DE_BIT by the answer of its RD. -/
theorem decoderPhases : Obligations.DecoderPhases := by
  intro s hquiet
  rw [step_quiet hquiet]
  refine ⟨fun hp => ⟨fun hleaf hsym => ?_, fun hleaf hsym => ?_, fun hleaf => ?_⟩, fun hp heof => ?_,
    fun hp r tail _ hbits => ?_, fun hp => ?_, fun hp => ?_⟩ <;> simp only [phaseStep, hp]
  · rw [deStart_eom hleaf hsym]
  · rw [deStart_badRoot hp hleaf hsym]
  · rw [deStart_internal hleaf]
  · rw [deBit_eof hp (State.peek_eq_none.mpr heof)]
  · rw [deBit_of_bit hbits, State.arrivedAt, arrival_eq]
    rfl
  · rw [deEmit_eq]
    simp [State.emit]
  · obtain ⟨pad, hpad, hclose⟩ := s.close_pads
    exact ⟨pad, hpad, congrArg (fun t => Host.Outcome.next t.finish) hclose⟩

/-! ### A body -/

theorem Tree.isPath_leaf {x sym : Symbol} {p : List Bool} : (Tree.leaf x).IsPath p sym ↔ p = [] ∧ x = sym := by
  cases p <;> simp [Tree.IsPath]

theorem State.arrivedAt_arrivedAt (s : State) (m n : Nat) (c c' : NodeIdx) :
    (s.arrivedAt m c).arrivedAt n c' = s.arrivedAt (m + n) c' := by
  rw [State.arrivedAt, State.arrivedAt, State.arrivedAt, ← State.advance_advance]
  rfl

/-- R144: DE_BIT along a path of the subtree at CUR comes to the path's leaf and reads the path's bits. -/
theorem deBit_path_runs {tree : Tree} {s : State} {p rest : List Bool} {sym : Symbol} (hp : s.phase = arrival (s.nodeAt s.cur))
    (hspells : Spells s.node s.cur tree) (hpath : tree.IsPath p sym) (hbits : s.input.drop s.pos = p ++ rest) :
    ∃ c, Runs p.length s (s.arrivedAt p.length c) ∧ (s.nodeAt c).leaf = true ∧ (s.nodeAt c).sym = sym := by
  induction tree generalizing s p with
  | leaf x =>
    obtain ⟨rfl, rfl⟩ := Tree.isPath_leaf.mp hpath
    have hnone : s.arrivedAt 0 s.cur = s := by rw [State.arrivedAt, State.advance_zero, ← hp]
    exact ⟨s.cur, hnone.symm ▸ Runs.refl s, hspells.1, hspells.2⟩
  | node l r ihl ihr =>
    obtain ⟨hleaf, hl, hr⟩ := hspells
    cases p with
    | nil => exact hpath.elim
    | cons b p =>
      have hstep : phaseStep s = s.arrivedAt 1 ((s.nodeAt s.cur).child b) := by
        have hp : s.phase = .deBit := hp.trans (arrival_internal hleaf)
        simp only [phaseStep, hp, deBit_of_bit hbits]
      have hbits' : s.input.drop (s.pos + 1) = p ++ rest := State.drop_read (bits := [b]) hbits
      have hsub : ∃ c, Runs p.length (s.arrivedAt 1 ((s.nodeAt s.cur).child b))
          ((s.arrivedAt 1 ((s.nodeAt s.cur).child b)).arrivedAt p.length c) ∧
          (s.nodeAt c).leaf = true ∧ (s.nodeAt c).sym = sym := by
        cases b with
        | false => exact ihl rfl hl hpath hbits'
        | true => exact ihr rfl hr hpath hbits'
      obtain ⟨c, hrun, hend⟩ := hsub
      rw [State.arrivedAt_arrivedAt, Nat.add_comm] at hrun
      exact ⟨c, Runs.head hstep hrun, hend⟩

/-- The block after DECODE has read `n` bits of a body and written `bits`. -/
def State.decoded (s : State) (n : Nat) (bits : List Bool) : State := (s.advance n).emit bits

theorem State.decoded_decoded (s : State) (m n : Nat) (a b : List Bool) :
    (s.decoded m a).decoded n b = s.decoded (m + n) (a ++ b) := by
  rw [State.decoded, State.decoded, State.decoded, ← State.advance_advance, ← State.emit_emit]
  rfl

/-- R145: the bits that DECODE writes for the words of a body: the low 8 bits of each symbol. -/
def symbolBytes (ws : List (List Bool × Symbol)) : List Bool := ws.flatMap fun w => bitsOf (w.2.extractLsb' 0 8)

theorem length_symbolBytes (ws : List (List Bool × Symbol)) : (symbolBytes ws).length = 8 * ws.length := by
  simp [symbolBytes, Nat.mul_comm]

section
variable {tree : Tree} {s : State} {rest : List Bool}

/-- R144, R145: a word of the body, from the root back to the root. -/
theorem deBit_word_runs {p : List Bool} {sym : Symbol} (hp : s.phase = .deBit) (hcur : s.cur = s.root)
    (hleaf : (s.nodeAt s.root).leaf = false) (hspells : Spells s.node s.root tree) (hpath : tree.IsPath p sym)
    (hsym : sym ≠ 256#9) (hbits : s.input.drop s.pos = p ++ rest) :
    Runs (p.length + 1) s (s.decoded p.length (bitsOf (sym.extractLsb' 0 8))) := by
  rw [← hcur] at hleaf hspells
  obtain ⟨c, hrun, hend, rfl⟩ := deBit_path_runs (hp.trans (arrival_internal hleaf).symm) hspells hpath hbits
  rw [State.arrivedAt, arrival_leaf hend, if_neg hsym] at hrun
  refine hrun.trans (Runs.single ?_)
  show deEmit _ = _
  rw [deEmit_eq, ← hp]
  simp only [State.decoded, State.emit, State.advance, ← hcur]
  rfl

/-- R144, R145: the words of a body, one after the other. -/
theorem deBit_words_runs {ws : List (List Bool × Symbol)} (hp : s.phase = .deBit) (hcur : s.cur = s.root)
    (hleaf : (s.nodeAt s.root).leaf = false) (hspells : Spells s.node s.root tree)
    (hws : ∀ w ∈ ws, tree.IsPath w.1 w.2 ∧ w.2 ≠ 256#9) (hbits : s.input.drop s.pos = ws.flatMap Prod.fst ++ rest) :
    Runs ((ws.flatMap Prod.fst).length + ws.length) s (s.decoded (ws.flatMap Prod.fst).length (symbolBytes ws)) := by
  induction ws generalizing s with
  | nil =>
    have hnone : s.decoded 0 [] = s := by rw [State.decoded, State.emit_nil, State.advance_zero]
    exact hnone.symm ▸ Runs.refl s
  | cons w ws ih =>
    obtain ⟨⟨hpath, hsym⟩, hws⟩ := List.forall_mem_cons.mp hws
    rw [List.flatMap_cons, List.append_assoc] at hbits
    have hword := deBit_word_runs hp hcur hleaf hspells hpath hsym hbits
    have hwords := ih (s := s.decoded w.1.length (bitsOf (w.2.extractLsb' 0 8))) hp hcur hleaf hspells hws
      (State.drop_read hbits)
    rw [State.decoded_decoded] at hwords
    have hsteps : ((w :: ws).flatMap Prod.fst).length + (w :: ws).length =
        w.1.length + 1 + ((ws.flatMap Prod.fst).length + ws.length) := by
      rw [List.flatMap_cons, List.length_append, List.length_cons]
      omega
    rw [hsteps, List.flatMap_cons, List.length_append]
    exact hword.trans hwords

/-- R143 to R145: DECODE from its first phase to the end-marker's leaf, which ends the body. -/
theorem deStart_body_runs {ws : List (List Bool × Symbol)} {last : List Bool} (hp : s.phase = .deStart)
    (hspells : Spells s.node s.root tree) (hws : ∀ w ∈ ws, tree.IsPath w.1 w.2 ∧ w.2 ≠ 256#9)
    (hlast : tree.IsPath last 256#9) (hbits : s.input.drop s.pos = ws.flatMap Prod.fst ++ last ++ rest) :
    ∃ cur, Runs (1 + (ws.flatMap Prod.fst ++ last).length + ws.length) s
      { s.decoded (ws.flatMap Prod.fst ++ last).length (symbolBytes ws) with cur := cur, phase := .deClose } := by
  cases tree with
  | leaf x =>
    obtain ⟨rfl, rfl⟩ := Tree.isPath_leaf.mp hlast
    have hnil : ws = [] := List.eq_nil_iff_forall_not_mem.mpr fun w hw =>
      (hws w hw).2 (Tree.isPath_leaf.mp (hws w hw).1).2.symm
    subst hnil
    refine ⟨s.cur, Runs.single ?_⟩
    simp only [phaseStep, hp, deStart_eom hspells.1 hspells.2]
    simp [State.decoded, State.emit, State.advance, symbolBytes]
  | node l r =>
    rw [List.append_assoc] at hbits
    have hleaf : (s.nodeAt s.root).leaf = false := hspells.1
    have hstart : phaseStep s = { s with cur := s.root, phase := .deBit } := by
      simp only [phaseStep, hp, deStart_internal hleaf]
    have hwords := deBit_words_runs (s := { s with cur := s.root, phase := .deBit }) rfl rfl hleaf hspells hws hbits
    obtain ⟨c, hend, hrunc, hsym⟩ := deBit_path_runs
      (s := State.decoded { s with cur := s.root, phase := .deBit } (ws.flatMap Prod.fst).length (symbolBytes ws))
      (arrival_internal hleaf).symm hspells hlast (State.drop_read hbits)
    rw [State.arrivedAt, arrival_leaf hrunc, if_pos hsym] at hend
    have hsteps : 1 + (ws.flatMap Prod.fst ++ last).length + ws.length =
        (ws.flatMap Prod.fst).length + ws.length + 1 + last.length := by
      rw [List.length_append]
      omega
    rw [hsteps, List.length_append, State.decoded, ← State.advance_advance]
    exact ⟨c, (Runs.head hstart hwords).trans hend⟩

/-- R142 to R146: DECODE from its first phase over a body, with the pad of its CLOSE. -/
theorem decode_runs {ws : List (List Bool × Symbol)} {last : List Bool} (hp : s.phase = .deStart)
    (hspells : Spells s.node s.root tree) (hws : ∀ w ∈ ws, tree.IsPath w.1 w.2 ∧ w.2 ≠ 256#9)
    (hlast : tree.IsPath last 256#9) (hbits : s.input.drop s.pos = ws.flatMap Prod.fst ++ last ++ rest) :
    ∃ cur pad, pad.length = (8 - (s.output ++ symbolBytes ws).length % 8) % 8 ∧
      Runs (2 + (ws.flatMap Prod.fst ++ last).length + ws.length) s
        (State.finish { s.decoded (ws.flatMap Prod.fst ++ last).length (symbolBytes ws) with
          output := s.output ++ symbolBytes ws ++ pad, draws := s.draws + 1, cur := cur, phase := .deClose }) := by
  obtain ⟨cur, hrun⟩ := deStart_body_runs hp hspells hws hlast hbits
  obtain ⟨pad, hpad, hclose⟩ := State.close_pads
    { s.decoded (ws.flatMap Prod.fst ++ last).length (symbolBytes ws) with cur := cur, phase := .deClose }
  refine ⟨cur, pad, hpad, ?_⟩
  rw [show 2 + (ws.flatMap Prod.fst ++ last).length + ws.length =
    1 + (ws.flatMap Prod.fst ++ last).length + ws.length + 1 by omega]
  exact hrun.trans (Runs.single (congrArg State.finish hclose))

end

/-! ### The commands -/

/-- Settles O23: the dispatch, the run of the four phases over the body (`decode_runs`), the pad of its CLOSE, and the end of the
command's only engine. -/
theorem decodeEmitsTheSymbols : Obligations.DecodeEmitsTheSymbols := by
  intro s tree ws last rest hquiet htree hspells hws hlast hbits _ bytes read
  obtain ⟨hquiet, hidle⟩ : s.quiet = true ∧ s.busy = false := by simpa [State.quietIdle] using hquiet
  obtain ⟨t, ht⟩ : ∃ t, t = { s.beginDispatch 0x08#8 with seq := 0#3, phase := .deStart } := ⟨_, rfl⟩
  obtain ⟨cur, pad, hpad, hrun⟩ :=
    decode_runs (s := t) (by rw [ht]) (by rw [ht]; exact hspells) hws hlast (by rw [ht]; exact hbits)
  rw [State.finish_last (by rw [ht]; rfl)] at hrun
  refine ⟨t, _, pad, ?_, hrun.after (by rw [ht]; exact hquiet), ?_, ?_⟩
  · rw [ht]
    exact exec_started hidle rfl rfl htree
  · rw [hpad, ht]
    rfl
  · rw [ht]
    simp only [State.decoded, State.emit, length_symbolBytes]
    simp [State.advance, State.beginDispatch, State.completed, bytes, read, symbolBytes]

/-- Settles O25: the dispatch, the parse of the header (`hdrRead_runs`), which holds the tree that the body is written in, and the
run of DECODE over the body (`decode_runs`). -/
theorem decompressReadsTheStream : Obligations.DecompressReadsTheStream := by
  intro s tree ws last rest hquiet hmem hleaves hws hlast hbits bytes read
  obtain ⟨hquiet, hidle⟩ : s.quiet = true ∧ s.busy = false := by simpa [State.quietIdle] using hquiet
  obtain ⟨t, ht⟩ : ∃ t, t = { s.beginDispatch 0x0A#8 with seq := 0#3, phase := .hrMagic } := ⟨_, rfl⟩
  have htbits : t.input.drop t.pos = bitsOf Config.magic ++ (tree.ser ++ (ws.flatMap Prod.fst ++ last ++ rest)) := by
    simp only [List.append_assoc] at hbits ⊢
    rw [ht]
    exact hbits
  obtain ⟨node, hleaf, hheader, hplaced⟩ := hdrRead_runs (by rw [ht]) (by rw [ht]; exact hmem) hleaves htbits
  rw [State.finish_next (e := .decode) (by rw [ht]; rfl)] at hheader
  obtain ⟨t1, ht1⟩ : ∃ t1, t1 = { t.invalidate.parsedTo (32 + tree.ser.length) node tree.size [] hleaf with
    treeValid := true, treeSrc := .parsed, root := 0#10, seq := 1#3, phase := .deStart } := ⟨_, rfl⟩
  have hheader : Runs (1 + (tree.size + tree.leaves) + 1) t t1 := by
    rw [ht1, show (1#3) = t.seq + 1#3 by rw [ht]; rfl]
    exact hheader
  have hbody : t1.input.drop t1.pos = ws.flatMap Prod.fst ++ last ++ rest := by
    rw [← List.append_assoc] at htbits
    have hread := State.drop_read htbits
    rw [List.length_append, length_bitsOf] at hread
    rw [ht1]
    exact hread
  have hspells : Spells t1.node t1.root tree := by
    rw [ht1]
    exact hplaced.laidOut.spells
  obtain ⟨cur, pad, hpad, hrun⟩ := decode_runs (by rw [ht1]) hspells hws hlast hbody
  rw [State.finish_last (by rw [ht1, ht]; rfl)] at hrun
  have hsize : tree.size = 2 * tree.leaves - 1 := by
    have := tree.size_add_one
    omega
  have hlen : tree.ser.length = 11 * tree.leaves - 1 := by
    have := tree.length_ser_add_one
    omega
  refine ⟨t, _, _, pad, ?_, (hheader.trans hrun).after (by rw [ht]; exact hquiet), ?_, hspells, ?_⟩
  · rw [ht]
    exact exec_started hidle rfl rfl rfl
  · rw [hpad, ht1, ht]
    rfl
  · rw [ht1, ht]
    simp only [State.decoded, State.emit, length_symbolBytes, hsize, hlen]
    simp [State.advance, State.parsedTo, State.invalidate, State.beginDispatch, State.completed, bytes, read, symbolBytes,
      BitVec.ofNat_add, BitVec.add_assoc, Nat.add_assoc]

end Sys2Proof.Machine
end

section
/-! The canonical form of the internal memories in a core step (R25, R27, R29). -/

namespace Sys2Proof.Machine

theorem State.memoryOk_finish {s : State} (h : s.memoryOk = true) : s.finish.memoryOk = true :=
  (State.memoryOk_congr (by simp) (by simp) (by simp)).trans h

theorem MergeRun.wf {m : Memory Node} {q : List Nat} {k : Nat} {r : BuildResult} (h : MergeRun m q k r) :
    Memory.wf Node.zero Config.maxNodes r.node = true := by
  induction h with
  | done hforest => exact hforest.wf
  | overflow hforest => exact hforest.wf
  | merge _ _ _ _ ih => exact ih

theorem tbBuild_memoryOk {s : State} (h : s.memoryOk = true) : (tbBuild s).memoryOk = true := by
  obtain ⟨⟨hfreq, -⟩, hcode⟩ := State.memoryOk_iff.mp h
  have hnode := (State.buildTree_mergeRun h).wf
  unfold tbBuild
  dsimp only
  split
  · exact State.memoryOk_iff.mpr ⟨⟨hfreq, hnode⟩, hcode⟩
  · exact State.memoryOk_finish (State.memoryOk_iff.mpr ⟨⟨hfreq, hnode⟩, hcode⟩)

theorem cgGen_memoryOk {s : State} (h : s.memoryOk = true) : (cgGen s).memoryOk = true := by
  obtain ⟨htables, -⟩ := State.memoryOk_iff.mp h
  exact State.memoryOk_finish (State.memoryOk_iff.mpr ⟨htables, wf_walkCodes _ _ _ _ rfl⟩)

theorem faRead_memoryOk {s : State} (h : s.memoryOk = true) : (faRead s).memoryOk = true := by
  unfold faRead
  split
  · exact State.memoryOk_finish h
  split
  · exact h
  · exact memoryOk_countByte (s := s.advance 8) h _

theorem hwWalk_memoryOk {s : State} (h : s.memoryOk = true) : (hwWalk s).memoryOk = true := by
  unfold hwWalk
  split
  · exact State.memoryOk_finish h
  split <;> exact h

theorem lookUp_memoryOk {s : State} (h : s.memoryOk = true) : (lookUp s).memoryOk = true := by
  unfold lookUp
  split <;> exact h

theorem enRead_memoryOk {s : State} (h : s.memoryOk = true) : (enRead s).memoryOk = true := by
  unfold enRead
  split <;> exact lookUp_memoryOk h

theorem enBits_memoryOk {s : State} (h : s.memoryOk = true) : (enBits s).memoryOk = true := by
  unfold enBits
  dsimp only
  split
  · exact h
  split <;> exact h

theorem hrMagic_memoryOk {s : State} (h : s.memoryOk = true) : (hrMagic s).memoryOk = true := by
  unfold hrMagic
  dsimp only
  split
  · exact h
  split <;> exact h

theorem deStart_memoryOk {s : State} (h : s.memoryOk = true) : (deStart s).memoryOk = true := by
  unfold deStart
  split
  · split <;> exact h
  · exact h

theorem deBit_memoryOk {s : State} (h : s.memoryOk = true) : (deBit s).memoryOk = true := by
  unfold deBit
  split <;> exact h

theorem phaseStep_memoryOk {s : State} (h : s.memoryOk = true) : (phaseStep s).memoryOk = true := by
  unfold phaseStep
  cases hp : s.phase <;> dsimp only
  case nopRun => exact State.memoryOk_finish h
  case fcClear => exact State.memoryOk_finish (State.memoryOk_clearTable h)
  case faInit => exact State.memoryOk_clearTable h
  case faRead => exact faRead_memoryOk h
  case tbBuild => exact tbBuild_memoryOk h
  case cgGen => exact cgGen_memoryOk h
  case hwWalk => exact hwWalk_memoryOk h
  case enRead => exact enRead_memoryOk h
  case enBits => exact enBits_memoryOk h
  case enClose => exact State.memoryOk_finish (s := s.close) h
  case hrMagic => exact hrMagic_memoryOk h
  case hrBit => exact hrBit_memoryOk h
  case hrSym => exact hrSym_memoryOk h
  case deStart => exact deStart_memoryOk h
  case deBit => exact deBit_memoryOk h
  case deClose => exact State.memoryOk_finish (s := s.close) h
  all_goals exact h

end Sys2Proof.Machine
end

section
/-! Every command ends (R182): a core step ends the command, or hands over to a later engine of its list, or leaves less work for
the running engine. The work of an engine is measured by what it has still to read of the input, or to walk of the tree. -/

namespace Sys2Proof.Machine

/-! ### The measure -/

/-- R55: the bits of the input that are not read yet. -/
def State.unread (s : State) : Nat := s.input.length - s.pos

/-- R117, R133: the place of a node in the order of the tree, which falls from a node to its children. -/
def State.rank (s : State) (n : NodeIdx) : Nat :=
  match s.treeSrc with
  | .built => n.toNat
  | .parsed => s.ncount.toNat - n.toNat

/-- R126: what HDR_WRITE has still to visit: a node counts for more than its two children together. -/
def State.walkWork (s : State) (ts : List NodeIdx) : Nat := (ts.map fun n => 3 ^ s.rank n).sum

/-- A bound on the core steps that the running engine can still take. A symbol takes ENCODE at most 513 steps, one in EN_READ and
512 in EN_BITS (R137, R138); a bit takes DECODE at most two (R144, R145). -/
def State.engineWork (s : State) : Nat :=
  match s.phase with
  | .idle | .nopRun | .fcClear | .tbBuild | .cgGen | .enClose | .deClose => 0
  | .faInit => s.unread + 1
  | .faRead | .hrMagic | .hrBit | .hrSym => s.unread
  | .hwMagic => 2 * s.walkWork [s.root] + 1
  | .hwWalk => 2 * s.walkWork s.ts
  | .hwSym => 2 * s.walkWork s.ts + 1
  | .enRewind => 513 * (s.input.length + 1) + 1
  | .enRead => 513 * (s.unread + 1)
  | .enBits => (if s.eomf then 0 else 513 * (s.unread + 1)) + (512 - s.ej.toNat)
  | .deStart | .deEmit => 2 * s.unread + 2
  | .deBit => 2 * s.unread + 1

/-- R149: the engines of the command's list from the running one on. -/
def State.enginesLeft (s : State) : Nat := (engines s.activeCmd).length - s.seq.toNat

/-- The engines left, and then the work of the running one. -/
def State.measure (s : State) : ℕ ×ₗ ℕ := toLex (s.enginesLeft, s.engineWork)

/-- A core step from `s` to `t` ends the command or brings its end nearer. -/
def Progress (s t : State) : Prop := t.phase = .idle ∨ t.measure < s.measure

theorem Progress.finish {s u : State} (hsame : SameControl s u) : Progress s u.finish := by
  obtain ⟨e, he, hfin⟩ | ⟨-, hfin⟩ := u.finish_cases <;> rw [hfin]
  · right
    have hlt := (List.getElem?_eq_some_iff.mp he).1
    have hlen := engines_length_le u.activeCmd
    have hseq : (u.seq + 1#3).toNat = u.seq.toNat + 1 := by
      rw [BitVec.toNat_add, BitVec.toNat_ofNat]
      omega
    refine Prod.Lex.toLex_lt_toLex.mpr (.inl ?_)
    show (engines u.activeCmd).length - (u.seq + 1#3).toNat < s.enginesLeft
    rw [State.enginesLeft, hseq, ← hsame.activeCmd, ← hsame.seq]
    omega
  · exact .inl rfl

theorem Progress.raise {s u : State} {c : Cause} {info : Word} {atEof midcode : Bool} :
    Progress s (u.raise c info atEof midcode) := .inl rfl

theorem Progress.work {s t : State} (hsame : SameControl s t) (hwork : t.engineWork < s.engineWork) : Progress s t := by
  refine .inr (Prod.Lex.toLex_lt_toLex.mpr (.inr ⟨?_, hwork⟩))
  rw [State.enginesLeft, State.enginesLeft, hsame.activeCmd, hsame.seq]

/-- R57: an answered RD leaves less of the input. -/
theorem State.unread_advance {s : State} {n : Nat} {v : BitVec n} (h : s.peek n = some v) :
    (s.advance n).unread + n = s.unread := by
  have hle := (State.peek_eq_some.mp h).1
  rw [State.unread, State.unread, State.advance_input, State.advance_pos]
  omega

theorem State.unread_congr {s t : State} (hi : t.input = s.input) (hp : t.pos = s.pos) : t.unread = s.unread := by
  rw [State.unread, State.unread, hi, hp]

section
variable {s : State}

theorem State.engineWork_reading (hp : s.phase ∈ [.faRead, .hrMagic, .hrBit, .hrSym]) : s.engineWork = s.unread := by
  unfold State.engineWork
  generalize s.phase = p at hp
  fin_cases hp <;> rfl

theorem State.engineWork_faInit (hp : s.phase = .faInit) : s.engineWork = s.unread + 1 := by
  simp only [State.engineWork, hp]

theorem State.engineWork_hwMagic (hp : s.phase = .hwMagic) : s.engineWork = 2 * s.walkWork [s.root] + 1 := by
  simp only [State.engineWork, hp]

theorem State.engineWork_hwWalk (hp : s.phase = .hwWalk) : s.engineWork = 2 * s.walkWork s.ts := by
  simp only [State.engineWork, hp]

theorem State.engineWork_hwSym (hp : s.phase = .hwSym) : s.engineWork = 2 * s.walkWork s.ts + 1 := by
  simp only [State.engineWork, hp]

theorem State.engineWork_enRewind (hp : s.phase = .enRewind) : s.engineWork = 513 * (s.input.length + 1) + 1 := by
  simp only [State.engineWork, hp]

theorem State.engineWork_enRead (hp : s.phase = .enRead) : s.engineWork = 513 * (s.unread + 1) := by
  simp only [State.engineWork, hp]

theorem State.engineWork_enBits (hp : s.phase = .enBits) :
    s.engineWork = (if s.eomf then 0 else 513 * (s.unread + 1)) + (512 - s.ej.toNat) := by
  simp only [State.engineWork, hp]

theorem State.engineWork_deStart (hp : s.phase = .deStart) : s.engineWork = 2 * s.unread + 2 := by
  simp only [State.engineWork, hp]

theorem State.engineWork_deEmit (hp : s.phase = .deEmit) : s.engineWork = 2 * s.unread + 2 := by
  simp only [State.engineWork, hp]

theorem State.engineWork_deBit (hp : s.phase = .deBit) : s.engineWork = 2 * s.unread + 1 := by
  simp only [State.engineWork, hp]

/-- R144: the work of the phase that DE_BIT goes on in. -/
theorem State.engineWork_arrival_le {x : Node} (hp : s.phase = arrival x) : s.engineWork ≤ 2 * s.unread + 2 := by
  rw [arrival_eq] at hp
  split at hp
  · rw [State.engineWork_deBit hp]
    omega
  · split at hp <;> simp [State.engineWork, hp]

end

/-! ### The engines that read: FREQ_ACCUM and HDR_READ -/

/-- A phase whose work is the unread input, going on in such a phase after an answered RD. -/
theorem Progress.read {s t : State} {n : Nat} {v : BitVec n} (hn : 0 < n) (hpeek : s.peek n = some v)
    (hs : s.phase ∈ [.faRead, .hrMagic, .hrBit, .hrSym]) (ht : t.phase ∈ [.faRead, .hrMagic, .hrBit, .hrSym])
    (hsame : SameControl s t) (hinput : t.input = s.input) (hpos : t.pos = s.pos + n) : Progress s t := by
  have hunread := State.unread_advance hpeek
  rw [← State.unread_congr (s := s.advance n) (t := t) hinput hpos] at hunread
  refine .work hsame ?_
  rw [State.engineWork_reading hs, State.engineWork_reading ht]
  omega

theorem faRead_progress {s : State} (hp : s.phase = .faRead) : Progress s (faRead s) := by
  unfold faRead
  split
  · exact .finish (.refl s)
  next r hr =>
  split
  · exact .raise
  · rw [countByte_eq]
    exact .read (by decide) hr (by simp [hp]) (by simp) ⟨rfl, rfl, rfl, rfl⟩ rfl rfl

theorem hrMagic_progress {s : State} (hp : s.phase = .hrMagic) : Progress s (hrMagic s) := by
  unfold hrMagic
  dsimp only
  split
  · exact .raise
  next r hr =>
  split
  · exact .read (s := s) (by decide) hr (by simp [hp]) (by simp) ⟨rfl, rfl, rfl, rfl⟩ rfl rfl
  · exact .raise

theorem hrBit_progress {s : State} (hp : s.phase = .hrBit) : Progress s (hrBit s) := by
  unfold hrBit
  split
  · exact .finish ⟨rfl, rfl, rfl, rfl⟩
  split
  · exact .raise
  split
  · exact .raise
  next r hr =>
  split
  · rw [parseInternal, State.startNode_eq]
    exact .read (by decide) hr (by simp [hp]) (by simp) ⟨rfl, rfl, rfl, rfl⟩ rfl rfl
  · rw [parseLeaf, State.startNode_eq]
    exact .read (by decide) hr (by simp [hp]) (by simp) ⟨rfl, rfl, rfl, rfl⟩ rfl rfl

theorem hrSym_progress {s : State} (hp : s.phase = .hrSym) : Progress s (hrSym s) := by
  unfold hrSym
  split
  · exact .raise
  next r hr =>
  rw [State.setNode_eq]
  exact .read (by decide) hr (by simp [hp]) (by simp) ⟨rfl, rfl, rfl, rfl⟩ rfl rfl

/-! ### TREE_BUILD -/

theorem tbBuild_progress (s : State) : Progress s (tbBuild s) := by
  unfold tbBuild
  dsimp only
  split
  · exact .raise
  · exact .finish ⟨rfl, rfl, rfl, rfl⟩

/-! ### HDR_WRITE -/

theorem pow_three_add_lt {a b c : Nat} (ha : a < c) (hb : b < c) : 3 ^ a + 3 ^ b < 3 ^ c := by
  obtain ⟨c, rfl⟩ := Nat.exists_eq_add_of_lt (Nat.zero_lt_of_lt ha)
  have ha' : 3 ^ a ≤ 3 ^ c := Nat.pow_le_pow_right (by decide) (by omega)
  have hb' : 3 ^ b ≤ 3 ^ c := Nat.pow_le_pow_right (by decide) (by omega)
  have hc : 0 < 3 ^ c := Nat.pow_pos (by decide)
  rw [Nat.zero_add, Nat.pow_succ]
  omega

/-- R117, R133: the order of the tree falls from an internal node to its children. -/
theorem State.rank_children {s : State} (htree : s.HoldsTree) (hvalid : s.treeValid = true) {n : NodeIdx} (hn : n < s.ncount)
    (hleaf : (s.nodeAt n).leaf = false) :
    s.rank (s.nodeAt n).left < s.rank n ∧ s.rank (s.nodeAt n).right < s.rank n := by
  have hfull := htree hvalid
  obtain ⟨hleft, hright⟩ := State.children_lt htree hvalid hn hleaf
  have hslots := slotsOf_subset_childSlots (BitVec.lt_def.mp hn) hleaf
  have hl := hfull.ordered (.left n) (hslots (by simp [slotsOf]))
  have hr := hfull.ordered (.right n) (hslots (by simp [slotsOf]))
  rw [BitVec.lt_def] at hleft hright
  unfold State.rank
  unfold slotOrdered at hl hr
  cases hsrc : s.treeSrc <;> simp only [hsrc, decide_eq_true_eq] at hl hr ⊢
  · exact ⟨hl, hr⟩
  · have hl : n.toNat < (s.nodeAt n).left.toNat := hl
    have hr : n.toNat < (s.nodeAt n).right.toNat := hr
    omega

theorem State.walkWork_cons (s : State) (n : NodeIdx) (ts : List NodeIdx) :
    s.walkWork (n :: ts) = 3 ^ s.rank n + s.walkWork ts := by
  simp [State.walkWork]

theorem hwWalk_progress {s : State} (hp : s.phase = .hwWalk) (htree : s.HoldsTree) (hvalid : s.treeValid = true)
    (hts : ∀ n ∈ s.ts, n < s.ncount) : Progress s (hwWalk s) := by
  cases hs : s.ts with
  | nil => exact hwWalk_empty hs ▸ .finish (.refl s)
  | cons n rest =>
    have hwork := State.engineWork_hwWalk hp
    rw [hs, State.walkWork_cons] at hwork
    cases hleaf : (s.nodeAt n).leaf with
    | true =>
      have hpos : 0 < 3 ^ s.rank n := Nat.pow_pos (by decide)
      rw [hwWalk_leaf hs hleaf]
      refine .work ⟨rfl, rfl, rfl, rfl⟩ ?_
      rw [State.engineWork_hwSym rfl, hwork]
      show 2 * s.walkWork rest + 1 < _
      omega
    | false =>
      obtain ⟨hl, hr⟩ := State.rank_children htree hvalid (hts n (hs ▸ List.mem_cons_self)) hleaf
      have hlt := pow_three_add_lt hl hr
      rw [hwWalk_internal hs hleaf]
      refine .work ⟨rfl, rfl, rfl, rfl⟩ ?_
      rw [State.engineWork_hwWalk rfl, hwork]
      show 2 * s.walkWork ((s.nodeAt n).left :: (s.nodeAt n).right :: rest) < _
      rw [State.walkWork_cons, State.walkWork_cons]
      omega

/-! ### ENCODE -/

theorem lookUp_progress {s u : State} (hsame : SameControl s u)
    (hwork : (if u.eomf then 0 else 513 * (u.unread + 1)) + 512 < s.engineWork) : Progress s (lookUp u) := by
  unfold lookUp
  split
  · exact .work ⟨hsame.activeCmd, hsame.seq, hsame.done, hsame.err⟩ hwork
  · exact .raise

theorem enRead_progress {s : State} (hp : s.phase = .enRead) : Progress s (enRead s) := by
  unfold enRead
  split
  · refine lookUp_progress ⟨rfl, rfl, rfl, rfl⟩ ?_
    rw [State.engineWork_enRead hp, if_pos rfl]
    omega
  next r hr =>
  have hunread := State.unread_advance hr
  refine lookUp_progress ⟨rfl, rfl, rfl, rfl⟩ ?_
  show (if s.eomf then 0 else 513 * ((s.advance 8).unread + 1)) + 512 < _
  rw [State.engineWork_enRead hp]
  split <;> omega

theorem enBits_progress {s : State} (hp : s.phase = .enBits) : Progress s (phaseStep s) := by
  have hwork := State.engineWork_enBits hp
  have hej := s.ej.isLt
  by_cases hbit : s.ej < (s.codeAt s.esym.toNat).len
  · have hnext : (s.ej + 1#9).toNat = s.ej.toNat + 1 := by
      have hlen := (s.codeAt s.esym.toNat).len.isLt
      rw [BitVec.lt_def] at hbit
      rw [BitVec.toNat_add, BitVec.toNat_ofNat]
      omega
    rw [phaseStep_enBits_bit hp hbit]
    refine .work ⟨rfl, rfl, rfl, rfl⟩ (lt_of_eq_of_lt (State.engineWork_enBits hp) ?_)
    rw [hwork]
    show (if s.eomf then 0 else 513 * (s.unread + 1)) + (512 - (s.ej + 1#9).toNat) < _
    omega
  · rw [phaseStep_enBits_end hp hbit]
    refine .work ⟨rfl, rfl, rfl, rfl⟩ ?_
    rw [hwork]
    cases s.eomf with
    | false =>
      show 513 * (s.unread + 1) < 513 * (s.unread + 1) + _
      omega
    | true =>
      show 0 < 0 + _
      omega

/-! ### DECODE -/

theorem deStart_progress {s : State} (hp : s.phase = .deStart) : Progress s (deStart s) := by
  have hwork := State.engineWork_deStart hp
  unfold deStart
  split
  · split
    · exact .work ⟨rfl, rfl, rfl, rfl⟩ (hwork ▸ Nat.succ_pos _)
    · exact .raise
  · exact .work ⟨rfl, rfl, rfl, rfl⟩ (hwork ▸ Nat.lt_succ_self _)

theorem deBit_progress {s : State} (hp : s.phase = .deBit) : Progress s (deBit s) := by
  unfold deBit
  split
  · exact .raise
  next r hr =>
  have hunread := State.unread_advance hr
  refine .work ⟨rfl, rfl, rfl, rfl⟩ ((State.engineWork_arrival_le rfl).trans_lt ?_)
  show 2 * (s.advance 1).unread + 2 < _
  rw [State.engineWork_deBit hp]
  omega

/-! ### Every phase -/

/-- What a running block has, as far as the end of its command depends on it. -/
structure State.Running (s : State) : Prop where
  busy : s.busy = true
  err : s.err = false
  memory : s.memoryOk = true
  sequencer : s.sequencerOk = true
  preconditions : s.preconditionsOk = true
  tree : s.TreeSafe

theorem phaseStep_progress {s : State} (h : s.Running) : Progress s (phaseStep s) := by
  have hvalid := State.treeValid_of_preconditionsOk h.preconditions
  cases hp : s.phase
  case enBits => exact enBits_progress hp
  all_goals simp only [phaseStep, hp]
  case idle => exact .inl hp
  case nopRun => exact .finish (.refl s)
  case fcClear => exact .finish ⟨rfl, rfl, rfl, rfl⟩
  case faInit => exact .work ⟨rfl, rfl, rfl, rfl⟩ (State.engineWork_faInit hp ▸ Nat.lt_succ_self _)
  case faRead => exact faRead_progress hp
  case tbBuild => exact tbBuild_progress s
  case cgGen => exact .finish ⟨rfl, rfl, rfl, rfl⟩
  case hwMagic => exact .work ⟨rfl, rfl, rfl, rfl⟩ (State.engineWork_hwMagic hp ▸ Nat.lt_succ_self _)
  case hwWalk =>
    exact hwWalk_progress hp h.tree.holdsTree (hvalid (.inl (by rw [hp]; rfl))) ((State.treeSafe_hwWalk hp).mp h.tree).2
  case hwSym => exact .work ⟨rfl, rfl, rfl, rfl⟩ (State.engineWork_hwSym hp ▸ Nat.lt_succ_self _)
  case enRewind => exact .work ⟨rfl, rfl, rfl, rfl⟩ (State.engineWork_enRewind hp ▸ Nat.lt_succ_self _)
  case enRead => exact enRead_progress hp
  case enClose => exact .finish ⟨rfl, rfl, rfl, rfl⟩
  case hrMagic => exact hrMagic_progress hp
  case hrBit => exact hrBit_progress hp
  case hrSym => exact hrSym_progress hp
  case deStart => exact deStart_progress hp
  case deBit => exact deBit_progress hp
  case deEmit => exact .work ⟨rfl, rfl, rfl, rfl⟩ (State.engineWork_deEmit hp ▸ Nat.lt_succ_self _)
  case deClose => exact .finish ⟨rfl, rfl, rfl, rfl⟩

/-! ### The end of the command -/

/-- A core step that does not end the command leaves the block running. -/
theorem State.Running.next {s : State} (h : s.Running) (hbusy : (phaseStep s).busy = true) : (phaseStep s).Running where
  busy := hbusy
  err := by
    obtain herr | ⟨-, hidle, -⟩ := (phaseStep_move s).err
    · exact herr.trans h.err
    · exact absurd hbusy (Bool.eq_false_iff.mp hidle)
  memory := phaseStep_memoryOk h.memory
  sequencer := (phaseStep_move s).sequencerOk h.sequencer
  preconditions := phaseStep_preconditionsOk h.busy h.sequencer h.preconditions
  tree := phaseStep_treeSafe h.memory h.preconditions h.tree

/-- R51: while a command runs ERR is 0. -/
theorem State.err_of_statusOk {s : State} (h : s.statusOk = true) (hbusy : s.busy = true) : s.err = false := by
  cases herr : s.err with
  | false => rfl
  | true => simp [State.statusOk, hbusy, herr] at h

/-- R100, R156: a running command ends, with DONE or with ERR. -/
theorem State.Running.ends {s : State} (h : s.Running) :
    ∃ k t, Runs k s t ∧ t.busy = false ∧ (t.endedWell = true ∨ t.failed = true) := by
  induction hm : s.measure using WellFoundedLT.induction generalizing s with
  | ind m ih =>
    cases hbusy : (phaseStep s).busy with
    | false =>
      refine ⟨1, phaseStep s, Runs.single rfl, hbusy, ?_⟩
      have hended := (phaseStep_move s).ended h.busy hbusy
      rw [State.endedWell, State.failed, hbusy]
      cases herr : (phaseStep s).err with
      | false => simpa [herr] using hended
      | true => exact .inr rfl
    | true =>
      have hless := (phaseStep_progress h).resolve_left (of_decide_eq_true hbusy)
      obtain ⟨k, t, hrun, hend⟩ := ih _ (hm ▸ hless) (h.next hbusy) rfl
      exact ⟨k + 1, t, Runs.head rfl hrun, hend⟩

/-- Settles O60, by induction on the measure: every core step ends the command, hands over to a later engine, or leaves less
work for the running one. -/
theorem everyCommandEnds : Obligations.EveryCommandEnds := by
  intro s hquiet hinv hbusy
  obtain ⟨⟨⟨⟨⟨⟨⟨hmem, hseq⟩, hpre⟩, -⟩, hstatus⟩, -⟩, htree⟩, hwalk⟩ := by
    simpa only [State.inv, Bool.and_eq_true] using hinv
  obtain ⟨k, t, hrun, hend⟩ :=
    State.Running.ends ⟨hbusy, State.err_of_statusOk hstatus hbusy, hmem, hseq, hpre, htree, hwalk⟩
  exact ⟨k, t, hrun.after hquiet, hend⟩

end Sys2Proof.Machine
end

section
/-! The round trip of COMPRESS and DECOMPRESS (R152): the tree that COMPRESS writes fits the header that DECOMPRESS accepts, and the
codes of the bytes are the words of its body. -/

namespace Sys2Proof.Machine

/-! ### The leaves of a full tree -/

/-- The entries below `n` that are leaves. -/
def leafEntries (m : Memory Node) (n : Nat) : List Nat := (List.range n).filter fun i => (Memory.read Node.zero m i).leaf

theorem length_childSlots_add_leafEntries (m : Memory Node) (n : Nat) :
    (childSlots m n).length + 2 * (leafEntries m n).length = 2 * n := by
  induction n with
  | zero => rfl
  | succ n ih =>
    rw [leafEntries] at ih ⊢
    rw [childSlots_succ, List.length_append, List.range_succ, List.filter_append, List.length_append, slotsAt]
    cases hleaf : (Memory.read Node.zero m n).leaf <;> simp [hleaf, slotsOf] <;> omega

section
variable {src : TreeSource} {m : Memory Node} {root n : Nat} (h : FullTree src m root n)
include h

/-- R28: a full binary tree of `n` nodes has `(n + 1) / 2` leaves. -/
theorem FullTree.length_leafEntries : 2 * (leafEntries m n).length = n + 1 := by
  have hroot := h.root_lt
  have hslots := h.children.length_eq
  rw [List.length_map, List.length_erase_of_mem (List.mem_range.mpr hroot), List.length_range] at hslots
  have hcount := length_childSlots_add_leafEntries m n
  omega

/-- The leaves of the trees spelled in a full tree are leaf entries of it. -/
theorem FullTree.symbols_subset {t : Tree} {i : NodeIdx} (hi : i.toNat < n) (hspells : Spells m i t) :
    t.symbols ⊆ (leafEntries m n).map fun i => (Memory.read Node.zero m i).sym := by
  induction t generalizing i with
  | leaf sym =>
    obtain ⟨hleaf, hsym⟩ := hspells
    have hentry : i.toNat ∈ leafEntries m n := List.mem_filter.mpr ⟨List.mem_range.mpr hi, hleaf⟩
    exact List.cons_subset.mpr ⟨List.mem_map.mpr ⟨i.toNat, hentry, hsym⟩, List.nil_subset _⟩
  | node l r ihl ihr =>
    obtain ⟨hleaf, hl, hr⟩ := hspells
    obtain ⟨hli, hri⟩ := h.children_lt hi hleaf
    rw [Tree.symbols_node]
    exact List.append_subset.mpr ⟨ihl hli hl, ihr hri hr⟩

/-- R10: leaves with distinct symbols are distinct entries of the store, so at most 257 of its 513 nodes. -/
theorem FullTree.leaves_le {t : Tree} {i : NodeIdx} (hi : i.toNat < n) (hspells : Spells m i t) (hnodup : t.symbols.Nodup) :
    t.leaves ≤ 257 := by
  have hle := (hnodup.subperm (h.symbols_subset hi hspells)).length_le
  rw [t.length_symbols, List.length_map] at hle
  have hcount := h.length_leafEntries
  have hn : n ≤ 513 := h.n_le
  omega

end

/-! ### The body -/

/-- The codes of the bytes with their symbols, as DECODE reads them. -/
def wordsOf (code : Symbol → List Bool) (xs : List Byte) : List (List Bool × Symbol) :=
  xs.map fun x => (code (x.zeroExtend 9), x.zeroExtend 9)

theorem flatMap_fst_wordsOf (code : Symbol → List Bool) (xs : List Byte) :
    (wordsOf code xs).flatMap Prod.fst = xs.flatMap fun x => code (x.zeroExtend 9) := by
  rw [wordsOf, List.flatMap_map]

theorem byte_zeroExtend_ne_eom (x : Byte) : x.zeroExtend 9 ≠ 256#9 := fun h => by
  exact absurd ((toNat_byte_symbol x).symm.trans (congrArg BitVec.toNat h)) x.isLt.ne

/-- R145: the low 8 bits of a byte's symbol are the byte. -/
theorem symbolBytes_wordsOf (code : Symbol → List Bool) (xs : List Byte) : symbolBytes (wordsOf code xs) = bitsOfBytes xs := by
  have hlow : ∀ x : Byte, (x.zeroExtend 9).extractLsb' 0 8 = x := fun x => by
    ext i hi
    simp [BitVec.getLsbD_eq_getElem hi, show i < 9 by omega]
  simp only [symbolBytes, wordsOf, List.flatMap_map, hlow, bitsOfBytes]

/-- Settles O26: the stream that COMPRESS writes is a header and a body that DECOMPRESS accepts, with the pad behind it; whole bytes
come out, so the CLOSE of DECODE pads nothing. -/
theorem compressThenDecompressRoundTrips : Obligations.CompressThenDecompressRoundTrips := by
  intro s xs hquiet hmem hinput hpos hout hlen
  obtain ⟨t, k, u, tree, code, pad, hexec, hrun, -, htree, hspells, hnodup, hpath, heom, -, hu⟩ :=
    compressWritesTheStream s xs [] hquiet hmem hpos (by rw [hinput, List.append_nil]) (by decide) hlen
  have hfull := treeOk_iff.mp htree
  refine ⟨t, k, u, hexec, hrun, by rw [hu]; rfl, fun s2 hquiet2 hmem2 hinput2 hpos2 hout2 => ?_⟩
  have hstream : s2.input.drop s2.pos =
      bitsOf 0xFACE8201#32 ++ tree.ser ++ (wordsOf code xs).flatMap Prod.fst ++ code 256#9 ++ pad := by
    rw [hinput2, hpos2, List.drop_zero, hu, flatMap_fst_wordsOf]
    simp [hout]
  have hwords : ∀ w ∈ wordsOf code xs, tree.IsPath w.1 w.2 ∧ w.2 ≠ 256#9 := fun w hw => by
    obtain ⟨x, hx, rfl⟩ := List.mem_map.mp hw
    exact ⟨hpath x hx, byte_zeroExtend_ne_eom x⟩
  obtain ⟨t2, k2, v, pad2, hexec2, hrun2, hpad2, -, hv⟩ :=
    decompressReadsTheStream s2 tree (wordsOf code xs) (code 256#9) pad hquiet2 hmem2
      (hfull.leaves_le hfull.root_lt hspells hnodup) hwords heom hstream
  have hbytes : (wordsOf code xs).flatMap (fun w => bitsOf (w.2.extractLsb' 0 8)) = bitsOfBytes xs := symbolBytes_wordsOf code xs
  rw [hbytes, hout2, List.nil_append, length_bitsOfBytes] at hpad2
  have hpad2 : pad2 = [] := List.eq_nil_of_length_eq_zero (by omega)
  refine ⟨t2, k2, v, hexec2, hrun2, by rw [hv]; rfl, ?_⟩
  rw [hv, hpad2, hbytes, hout2]
  simp

end Sys2Proof.Machine
end

section
/-! Errors (R98, R155 to R157, R162): a core step either leaves ERR, ERRCODE and ERRINFO alone or takes one error of its phase's rows in
the cause table, which ends the command; so the result registers stay consistent. -/

namespace Sys2Proof.Machine

/-! ### What a core step does to the result registers -/

/-- ERR, ERRCODE and ERRINFO are the same in both states. -/
structure SameResult (s t : State) : Prop where
  err : t.err = s.err
  errcode : t.errcode = s.errcode
  errinfo : t.errinfo = s.errinfo

/-- R156, R157: the core step from `s` to `t` took an error, with a row of the cause table for the phase of `s`. -/
structure Raised (s t : State) : Prop where
  idle : t.phase = .idle
  done : t.done = s.done
  output : t.output = s.output
  outBits : t.outBits = s.outBits
  activeCmd : t.activeCmd = s.activeCmd
  seq : t.seq = s.seq
  cause : ∃ (c : Cause) (atEof midcode : Bool), t.errcode = errcodeWord midcode atEof s.phase.code c.code
  legal : t.errcode ∈ legalErrcodes

/-- The two things a core step can do to the result registers. -/
inductive ResultMove (s t : State) : Prop where
  | kept (hsame : SameResult s t)
  | raised (hraised : Raised s t)

theorem SameResult.finish {s u : State} (h : SameResult s u) : SameResult s u.finish :=
  ⟨u.finish_err.trans h.err, u.finish_errcode.trans h.errcode, u.finish_errinfo.trans h.errinfo⟩

theorem State.startNode_result (s : State) (sl : Slot) (rest : List Slot) (leaf : Bool) :
    SameResult s (s.startNode sl rest leaf) := by
  rw [State.startNode_eq]
  exact ⟨rfl, rfl, rfl⟩

/-- R156: an error raised where the step has written nothing but what its phase writes before the raise. -/
theorem ResultMove.raise {s u : State} {p : Phase} {c : Cause} {info : Word} {atEof midcode : Bool} (hp : s.phase = p)
    (hphase : u.phase = s.phase) (hcontrol : SameControl s u) (houtput : u.output = s.output) (houtBits : u.outBits = s.outBits)
    (hlegal : errcodeWord midcode atEof p.code c.code ∈ legalErrcodes) : ResultMove s (u.raise c info atEof midcode) :=
  have hcode : (u.raise c info atEof midcode).errcode = errcodeWord midcode atEof s.phase.code c.code := by
    rw [State.raise, State.takeError_errcode, hphase]
  .raised ⟨rfl, hcontrol.done, houtput, houtBits, hcontrol.activeCmd, hcontrol.seq, ⟨c, atEof, midcode, hcode⟩,
    by rw [hcode, hp]; exact hlegal⟩

/-! ### Phase by phase -/

theorem faRead_result {s : State} (hp : s.phase = .faRead) : ResultMove s (faRead s) := by
  unfold faRead
  split
  · exact .kept (SameResult.finish ⟨rfl, rfl, rfl⟩)
  split
  · exact .raise hp rfl ⟨rfl, rfl, rfl, rfl⟩ rfl rfl (by decide)
  · exact .kept (by constructor <;> simp [countByte])

theorem tbBuild_result {s : State} (hp : s.phase = .tbBuild) : ResultMove s (tbBuild s) := by
  unfold tbBuild
  dsimp only
  split
  · exact .raise hp rfl ⟨rfl, rfl, rfl, rfl⟩ rfl rfl (by decide)
  · exact .kept (SameResult.finish ⟨rfl, rfl, rfl⟩)

theorem hwWalk_result (s : State) : SameResult s (hwWalk s) := by
  unfold hwWalk
  split
  · exact SameResult.finish ⟨rfl, rfl, rfl⟩
  split <;> exact ⟨rfl, rfl, rfl⟩

theorem lookUp_result {s u : State} (hp : s.phase = .enRead) (hphase : u.phase = s.phase) (hcontrol : SameControl s u)
    (houtput : u.output = s.output) (houtBits : u.outBits = s.outBits) (hsame : SameResult s u) : ResultMove s (lookUp u) := by
  unfold lookUp
  split
  · exact .kept ⟨hsame.err, hsame.errcode, hsame.errinfo⟩
  · exact .raise hp hphase hcontrol houtput houtBits (by decide)

theorem enRead_result {s : State} (hp : s.phase = .enRead) : ResultMove s (enRead s) := by
  unfold enRead
  split <;> exact lookUp_result hp rfl ⟨rfl, rfl, rfl, rfl⟩ rfl rfl ⟨rfl, rfl, rfl⟩

theorem enBits_result (s : State) : SameResult s (enBits s) := by
  unfold enBits
  dsimp only
  split
  · exact ⟨rfl, rfl, rfl⟩
  split <;> exact ⟨rfl, rfl, rfl⟩

theorem hrMagic_result {s : State} (hp : s.phase = .hrMagic) : ResultMove s (hrMagic s) := by
  unfold hrMagic
  dsimp only
  split
  · exact .raise hp rfl ⟨rfl, rfl, rfl, rfl⟩ rfl rfl (by decide)
  split
  · exact .kept ⟨rfl, rfl, rfl⟩
  · exact .raise hp rfl ⟨rfl, rfl, rfl, rfl⟩ rfl rfl (by decide)

theorem hrBit_result {s : State} (hp : s.phase = .hrBit) : ResultMove s (hrBit s) := by
  unfold hrBit
  split
  · exact .kept (SameResult.finish ⟨rfl, rfl, rfl⟩)
  next slot rest _ =>
  split
  · exact .raise hp rfl (.refl s) rfl rfl (by decide)
  split
  · exact .raise hp rfl (.refl s) rfl rfl (by decide)
  split
  · obtain ⟨herr, hcode, hinfo⟩ := State.startNode_result (s.advance 1) slot rest false
    exact .kept ⟨herr, hcode, hinfo⟩
  · obtain ⟨herr, hcode, hinfo⟩ := State.startNode_result (s.advance 1) slot rest true
    exact .kept ⟨herr, hcode, hinfo⟩

theorem hrSym_result {s : State} (hp : s.phase = .hrSym) : ResultMove s (hrSym s) := by
  unfold hrSym
  split
  · exact .raise hp rfl (.refl s) rfl rfl (by decide)
  · exact .kept (by constructor <;> simp)

theorem deStart_result {s : State} (hp : s.phase = .deStart) : ResultMove s (deStart s) := by
  unfold deStart
  split
  · split
    · exact .kept ⟨rfl, rfl, rfl⟩
    · exact .raise hp rfl (.refl s) rfl rfl (by decide)
  · exact .kept ⟨rfl, rfl, rfl⟩

/-- R155: NO_TERMINATOR, in the middle of a code or between two. -/
theorem noTerminator_legal : ∀ midcode : Bool,
    errcodeWord midcode true Phase.deBit.code Cause.noTerminator.code ∈ legalErrcodes := by decide

theorem deBit_result {s : State} (hp : s.phase = .deBit) : ResultMove s (deBit s) := by
  unfold deBit
  split
  · exact .raise hp rfl (.refl s) rfl rfl (noTerminator_legal _)
  · exact .kept ⟨rfl, rfl, rfl⟩

/-- R155, R156: a core step keeps the result registers or takes an error of its phase. -/
theorem phaseStep_result (s : State) : ResultMove s (phaseStep s) := by
  unfold phaseStep
  cases hp : s.phase <;> dsimp only
  case nopRun => exact .kept (SameResult.finish ⟨rfl, rfl, rfl⟩)
  case fcClear => exact .kept (SameResult.finish (u := s.clearTable) ⟨rfl, rfl, rfl⟩)
  case faRead => exact faRead_result hp
  case tbBuild => exact tbBuild_result hp
  case cgGen => exact .kept (SameResult.finish ⟨rfl, rfl, rfl⟩)
  case hwWalk => exact .kept (hwWalk_result s)
  case enRead => exact enRead_result hp
  case enBits => exact .kept (enBits_result s)
  case enClose => exact .kept (SameResult.finish (u := s.close) ⟨rfl, rfl, rfl⟩)
  case hrMagic => exact hrMagic_result hp
  case hrBit => exact hrBit_result hp
  case hrSym => exact hrSym_result hp
  case deStart => exact deStart_result hp
  case deBit => exact deBit_result hp
  case deClose => exact .kept (SameResult.finish (u := s.close) ⟨rfl, rfl, rfl⟩)
  all_goals exact .kept ⟨rfl, rfl, rfl⟩

/-! ### The result registers in every step -/

/-- `State.statusOk`, part by part. -/
structure State.StatusConsistent (s : State) : Prop where
  running : s.busy = true → s.done = false ∧ s.err = false ∧ s.errcode = 0#32 ∧ s.errinfo = 0#32
  legal : s.errcode = 0#32 ∨ s.errcode ∈ legalErrcodes
  err_cause : s.err = true → s.errcode ≠ 0#32
  done_none : s.done = true → s.errcode = 0#32

theorem State.statusOk_iff {s : State} : s.statusOk = true ↔ s.StatusConsistent := by
  have himp : ∀ {b : Bool} {p : Prop}, b = false ∨ p ↔ (b = true → p) := fun {b p} => by cases b <;> simp
  simp only [State.statusOk, Bool.and_eq_true, Bool.or_eq_true, Bool.not_eq_true', decide_eq_true_eq, and_assoc, himp]
  exact ⟨fun ⟨h1, h2, h3, h4⟩ => ⟨h1, h2, h3, h4⟩, fun ⟨h1, h2, h3, h4⟩ => ⟨h1, h2, h3, h4⟩⟩

/-- An error that leaves DONE at 0 and the block idle. -/
theorem State.StatusConsistent.of_error {s : State} (hidle : s.phase = .idle) (hdone : s.done = false)
    (hlegal : s.errcode ∈ legalErrcodes) : s.StatusConsistent where
  running hbusy := absurd hidle (of_decide_eq_true hbusy)
  legal := .inr hlegal
  err_cause _ hzero := absurd (hzero ▸ hlegal) (by decide)
  done_none h := absurd h (Bool.eq_false_iff.mp hdone)

/-- No error: ERR = 0 and ERRCODE = 0. -/
theorem State.StatusConsistent.of_clear {s : State} (hrunning : s.busy = true → s.done = false) (herr : s.err = false)
    (hcode : s.errcode = 0#32) (hinfo : s.errinfo = 0#32) : s.StatusConsistent where
  running hbusy := ⟨hrunning hbusy, herr, hcode, hinfo⟩
  legal := .inl hcode
  err_cause h := absurd h (Bool.eq_false_iff.mp herr)
  done_none _ := hcode

section
variable {s : State} (h : s.StatusConsistent)
include h

/-- Only PHASE, DONE and the error registers matter. -/
theorem State.StatusConsistent.congr {t : State} (hphase : t.phase = s.phase) (hdone : t.done = s.done) (hsame : SameResult s t) :
    t.StatusConsistent := by
  have hbusy : t.busy = s.busy := by rw [State.busy, State.busy, hphase]
  obtain ⟨hrunning, hlegal, herr, hnone⟩ := h
  obtain ⟨hsame_err, hcode, hinfo⟩ := hsame
  constructor <;> simpa only [hbusy, hdone, hsame_err, hcode, hinfo]

/-- R95, R96, R98: every end of a command write. -/
theorem State.StatusConsistent.dispatch (op : BitVec 8) : (s.dispatch op).StatusConsistent := by
  obtain ⟨-, hd⟩ | ⟨-, -, hd⟩ | ⟨-, -, -, hd⟩ | ⟨-, -, e, es, -, hd⟩ := s.dispatch_cases op <;> rw [hd]
  · exact h.congr rfl rfl ⟨rfl, rfl, rfl⟩
  · exact .of_error rfl rfl (show errcodeWord false false dispatchCode Cause.illegalCmd.code ∈ legalErrcodes by decide)
  · exact .of_error rfl rfl (show errcodeWord false false dispatchCode Cause.notReady.code ∈ legalErrcodes by decide)
  · exact .of_clear (fun _ => rfl) rfl rfl rfl

/-- R34: a STATUS write only clears flags. -/
theorem State.StatusConsistent.acknowledge (v : Word) : (s.acknowledge v).StatusConsistent where
  running hbusy := by
    obtain ⟨hdone, herr, hcode, hinfo⟩ := h.running hbusy
    exact ⟨by simp [State.acknowledge, hdone], by simp [State.acknowledge, herr], hcode, hinfo⟩
  legal := h.legal
  err_cause herr := h.err_cause (Bool.and_eq_true_iff.mp herr).1
  done_none hdone := h.done_none (Bool.and_eq_true_iff.mp hdone).1

/-- R100, R156: a core step of a running command. -/
theorem State.StatusConsistent.phaseStep (hbusy : s.busy = true) : (phaseStep s).StatusConsistent := by
  obtain ⟨hdone, herr, hcode, hinfo⟩ := h.running hbusy
  cases phaseStep_result s with
  | kept hsame =>
    refine .of_clear (fun hbusy' => ?_) (hsame.err.trans herr) (hsame.errcode.trans hcode) (hsame.errinfo.trans hinfo)
    obtain hkept | ⟨-, hidle⟩ := (phaseStep_move s).done
    · exact hkept.trans hdone
    · exact absurd hbusy' (Bool.eq_false_iff.mp hidle)
  | raised hraised => exact .of_error hraised.idle (hraised.done.trans hdone) hraised.legal

end

/-- Settles O50, by cases on what the step did: a command starts with all results cleared, and an error leaves a row of the cause
table in an idle block. -/
theorem stepKeepsStatusConsistent : Obligations.StepKeepsStatusConsistent := by
  intro s t hstatus hstep
  have h := State.statusOk_iff.mp hstatus
  have hturns : ∀ turns, ({ s with turns := turns } : State).StatusConsistent := fun _ => h.congr rfl rfl ⟨rfl, rfl, rfl⟩
  refine State.statusOk_iff.mpr ?_
  cases stepEvent_of_step hstep with
  | outside => exact h.congr rfl rfl ⟨rfl, rfl, rfl⟩
  | reset => exact .of_clear (fun _ => rfl) rfl rfl rfl
  | @command _ v rest => exact (hturns rest).dispatch (v.setWidth 8)
  | @acknowledge _ v rest => exact (hturns rest).acknowledge v
  | frequency => exact h.congr (by simp) (by simp) (by constructor <;> simp)
  | core turns hbusy => exact (hturns turns).phaseStep hbusy

/-! ### The end of a command that fails -/

/-- R170: an idle block at rest stays as it is. -/
theorem after_idle {k : Nat} {s u : State} (hquiet : s.quiet = true) (hidle : s.phase = .idle) (h : After k s u) : u = s := by
  have hfixed : phaseStep s = s := by simp only [phaseStep, hidle]
  rw [(after_iff hquiet).mp h, Function.iterate_fixed hfixed]

/-- Settles O59: a core step that sets ERR took an error (`phaseStep_result`), and the block that it leaves is idle. -/
theorem anErrorEndsTheCommand : Obligations.AnErrorEndsTheCommand := by
  intro s t hquiet _ hclear hstep herr
  obtain rfl : phaseStep s = t := Host.Outcome.next.inj ((step_quiet hquiet).symm.trans hstep)
  cases phaseStep_result s with
  | kept hsame => exact absurd (hsame.err.symm.trans herr) (Bool.eq_false_iff.mp hclear)
  | raised h =>
    exact ⟨h.idle, h.done, h.output, h.outBits, h.activeCmd, h.seq, h.cause,
      fun k u => after_idle (phaseStep_quiet hquiet) h.idle⟩

end Sys2Proof.Machine
end

section
/-! The step as the turn's operation (R66): a decoded write and a header token run as their instructions; and the internal memories
stay canonical in every step (R25, R27, R29). -/

namespace Sys2Proof.Machine

/-! ### Decoded instructions -/

/-- Settles O5: a defined write with reset released runs what its word decodes to. -/
theorem stepRunsDecodedWrite : Obligations.StepRunsDecodedWrite := by
  intro s off v i rest hturn hreset halign hdecode
  have hdefined : (Access.write off .word v).defined = true := Access.defined_write.mpr ⟨rfl, halign⟩
  simp only [step_of_turns_cons hturn, takeTurn, hostTurn, hreset, Bool.false_eq_true, if_false, hdefined, if_true, runAccess,
    hdecode]

/-- R131, R132: a token stands at the parser only in a phase of HDR_READ that reads. -/
theorem State.phase_of_headerToken {s : State} {i : Instr} (h : s.headerToken = some i) : s.phase = .hrBit ∨ s.phase = .hrSym := by
  unfold State.headerToken at h
  split at h
  · exact .inl ‹_›
  · exact .inr ‹_›
  · cases h

/-- R68: HR_BIT and HR_SYM address the input port only. -/
theorem State.not_blocked_of_inputAnswers {s : State} (hp : s.phase = .hrBit ∨ s.phase = .hrSym) (hanswers : s.inputAnswers = true) :
    s.blocked = false := by
  obtain hp | hp := hp <;> simp only [State.blocked, State.transaction, hp]
  · by_cases hdone : s.pend = [] ∨ s.ncount = 513#10
    · rw [if_pos hdone]
    · simp [if_neg hdone, hanswers]
  · simp [hanswers]

theorem coreTurn_of_headerToken {s : State} {i : Instr} (hreset : s.resetLine = false) (hanswers : s.inputAnswers = true)
    (h : s.headerToken = some i) : coreTurn s = exec i s := by
  have hp := State.phase_of_headerToken h
  have hbusy : s.phase ≠ .idle := by obtain hp | hp := hp <;> simp [hp]
  rw [coreTurn_of_enabled hreset hbusy (State.not_blocked_of_inputAnswers hp hanswers), exec_headerToken h]

/-- Settles O6: the core's turn is enabled where a token stands at the parser, and neither depends on the schedule. -/
theorem stepRunsHeaderToken : Obligations.StepRunsHeaderToken := fun s _ hreset hanswers htoken =>
  ⟨fun hturns => (step_of_turns_nil hturns).trans (coreTurn_of_headerToken hreset hanswers htoken),
    fun rest hturns => (step_of_turns_cons hturns).trans
      (coreTurn_of_headerToken (s := { s with turns := rest }) hreset hanswers htoken)⟩

/-! ### The internal memories -/

theorem State.memoryOk_dispatch {s : State} (h : s.memoryOk = true) (op : BitVec 8) : (s.dispatch op).memoryOk = true := by
  obtain ⟨-, hd⟩ | ⟨-, -, hd⟩ | ⟨-, -, -, hd⟩ | ⟨-, -, e, es, -, hd⟩ := s.dispatch_cases op <;> rw [hd] <;> exact h

/-- Settles O47, by cases on what the step did: a reset empties the memories, a FREQ_DATA write and the core's phases write entries
within their bounds, and nothing else touches them. -/
theorem stepKeepsMemoriesCanonical : Obligations.StepKeepsMemoriesCanonical := by
  intro s t h hstep
  cases stepEvent_of_step hstep with
  | outside => exact h
  | reset => exact State.memoryOk_reset
  | @command _ v rest => exact State.memoryOk_dispatch (s := { s with turns := rest }) h (v.setWidth 8)
  | acknowledge => exact h
  | @frequency _ v rest _ _ k => exact State.memoryOk_setFreq (s := { s with turns := rest }) h k v
  | core turns => exact phaseStep_memoryOk (s := { s with turns := turns }) h

end Sys2Proof.Machine
end

section
/-! Reset (R171 to R175), and the offsets and registers that a write does not reach (R31, R163). -/

namespace Sys2Proof.Machine

/-! ### The soft reset and the reset input -/

/-- Settles O27: SRESET is the reset of the block, which keeps the ports and the model's own fields. -/
theorem softResetGivesTheResetValues : Obligations.SoftResetGivesTheResetValues := by
  intro s v hv
  have hdecode : decode (.busWrite 0x00#8 v) = .ok .sreset := by simp [decode, decodeCtrl, hv]
  exact ⟨hdecode, s.resetBlock, rfl, writeGives_of_busWrite rfl fun _ => State.writeCtrl_reset hv, s.resetBlock_hasResetValues,
    rfl, rfl, rfl, rfl, rfl, rfl, rfl, rfl⟩

theorem step_host_under_reset {s : State} {a : Access} {rest : List Turn} (hreset : s.resetLine = true)
    (hturn : s.turns = .host a :: rest) : step s = .fault .busNoAnswer := by
  simp only [step_of_turns_cons hturn, takeTurn, hostTurn, hreset, if_true]

/-- Settles O28: the two levels of the reset input, and the turns that find it asserted. -/
theorem hardwareResetHoldsTheBlock : Obligations.HardwareResetHoldsTheBlock := by
  intro s rest
  refine ⟨fun hturn => ?_, fun hturn => step_of_turns_cons hturn,
    fun hreset hturns => (step_of_turns_nil hturns).trans (coreTurn_of_not_enabled (.inl hreset)),
    fun hreset a hturn => step_host_under_reset hreset hturn⟩
  exact ⟨_, step_of_turns_cons hturn, State.resetBlock_hasResetValues { s with turns := rest, resetLine := true },
    rfl, rfl, rfl, rfl, rfl, rfl⟩

/-! ### The state after reset -/

/-- Settles O29: State.reset is what a reset of it leaves, and an idle core has no step. -/
theorem resetStateHasTheResetValues : Obligations.ResetStateHasTheResetValues :=
  ⟨State.reset.resetBlock_hasResetValues, rfl, rfl,
    (step_of_turns_nil rfl).trans (coreTurn_of_not_enabled (.inr (.inl rfl)))⟩

/-- Settles O46: a closed fact about one state, whose memories are empty and whose PHASE is idle. -/
theorem resetMeetsTheInvariant : Obligations.ResetMeetsTheInvariant := show State.reset.inv = true by decide

/-! ### Unmapped offsets and read-only registers -/

/-- R31: OUT_BITS at 0x44 is the last register of the window. -/
theorem Reg.atOffset_unmapped {off : BitVec 8} (h : 0x48#8 ≤ off) : Reg.atOffset off = none := by
  cases hr : Reg.atOffset off with
  | none => rfl
  | some r =>
    have hbelow : ∀ r : Reg, ¬ 0x48#8 ≤ r.offset := fun r => by cases r <;> decide
    exact absurd (Reg.offset_of_atOffset hr ▸ h) (hbelow r)

/-- Settles O39, by the register at the offset: none from 0x48 on, and one that ignores writes at each read-only offset. -/
theorem unmappedAndReadOnlyIgnoreWrites : Obligations.UnmappedAndReadOnlyIgnoreWrites := by
  intro s off v halign
  refine ⟨fun hoff => ⟨readAnswers_of_busValue halign ?_, writeGives_of_busWrite halign fun rest => ?_⟩, fun hoff => ?_⟩
  · rw [State.busValue, Reg.atOffset_unmapped hoff]
  · rw [State.busWrite, Reg.atOffset_unmapped hoff]
  · fin_cases hoff <;> exact writeGives_of_busWrite rfl fun _ => rfl

end Sys2Proof.Machine
end
